-- ==== Sys2Proof/Word.lean ====
section
/-! DEFINITION. The words of the core (00_scope.md R11): every field is a byte or narrower, link addresses are
7 bits wide (20_memory.md R62) and a delay operand is 16 bits wide (30_encoding.md R122). -/

namespace Sys2Proof

/-- An unsigned 8-bit value (R11). -/
abbrev Byte := BitVec 8

/-- A 7-bit reader register address (R62). -/
abbrev Addr := BitVec 7

/-- A delay in milliseconds, the operand `t16` (R122). -/
abbrev Millis := BitVec 16

end Sys2Proof
end

