-- ==== Sys2Proof/Config.lean ====
section
/-! DEFINITION. The implementation parameters of 00_scope.md R6 as plain data, the constants the source or the spec
fixes, the shapes of the environment's answers, and the free values (opaque constants: no proof can see what they are). -/

namespace Sys2Proof

/-! ## Shapes of results and answers -/

/-- The level of a control line (10_state.md R35). -/
inductive Line where
  | asserted
  | deasserted
deriving DecidableEq, Repr, Inhabited

/-- The result codes of 60_exceptions.md R361. -/
inductive ResultCode where
  | ok
  | timeout
  | pcdError
  | noRoom
  | badLength
  | badLastBits
  | bccMismatch
  | crcTimeout
deriving DecidableEq, Repr, Inhabited

/-- The failures a transceive can end in (42_anticollision_engine.md R183). -/
inductive XcvFailure where
  | timeout
  | pcdError
  | noRoom
deriving DecidableEq, Repr, Inhabited

/-- `XcvResult` of R183: the bytes received with the number of valid bits in the last one (0 means all 8), or a failure. -/
inductive XcvResult where
  | ok (rx : List Byte) (lastBits : BitVec 3)
  | fail (why : XcvFailure)
deriving DecidableEq, Repr, Inhabited

/-- The outcome of a CRC computation (R192): the low byte and the high byte, or `Fail(CRC_TIMEOUT)`. -/
inductive CrcResult where
  | ok (lo hi : Byte)
  | timeout
deriving DecidableEq, Repr, Inhabited

/-! ## Parameters -/

/-- `BACKEND` (R6). -/
inductive Backend where
  | live
  | sim
deriving DecidableEq, Repr, Inhabited

/-- The level at which the Live backend is modelled (00_scope.md R10): `a` draws the outcome of a transceive,
`b` runs the register sequence. -/
inductive Level where
  | a
  | b
deriving DecidableEq, Repr, Inhabited

/-- `LOCKOUT_TAG_HANDLING` (R6). -/
inductive LockoutTagHandling where
  | readAndDiscard
  | notRead
deriving DecidableEq, Repr, Inhabited

/-- `LINK_BIT_ORDER` (20_memory.md R65). -/
inductive BitOrder where
  | msbFirst
  | lsbFirst
deriving DecidableEq, Repr, Inhabited

/-- The reader registers the core names (30_encoding.md R112). -/
inductive ReaderReg where
  | command | comIrq | divIrq | error | fifoData | fifoLevel | control | bitFraming | mode | txControl | txAsk
  | crcResultH | crcResultL | tMode | tPrescaler | tReloadH | tReloadL
deriving DecidableEq, Repr, Inhabited

/-- `PCD_REGMAP` (30_encoding.md R112): the link address of every reader register the core names. -/
structure RegMap where
  command : Addr
  comIrq : Addr
  divIrq : Addr
  error : Addr
  fifoData : Addr
  fifoLevel : Addr
  control : Addr
  bitFraming : Addr
  mode : Addr
  txControl : Addr
  txAsk : Addr
  crcResultH : Addr
  crcResultL : Addr
  tMode : Addr
  tPrescaler : Addr
  tReloadH : Addr
  tReloadL : Addr
deriving DecidableEq, Repr

/-- `PCD_CMD` (R113): the values written to `CommandReg`. -/
structure PcdCommands where
  idle : Byte
  calcCrc : Byte
  transceive : Byte
  softReset : Byte
deriving DecidableEq, Repr

/-- A byte that a level-B sequence names: a literal, a reader command (R113), or one of the masks of R6. -/
inductive SeqByte where
  | lit (d : Byte)
  | idle
  | calcCrc
  | transceive
  | softReset
  | completionMask
  | errMask
  | crcDoneMask
deriving DecidableEq, Repr

/-- One line of a level-B register sequence (42_anticollision_engine.md R187, R193). The sequence is a parameter that may
differ on another reader. -/
inductive SeqStep where
  /-- `LinkWrite(r, d)`. -/
  | write (r : ReaderReg) (d : SeqByte)
  /-- `LinkWrite(r, b)` for every byte `b` of the frame or of the data, in order. -/
  | load (r : ReaderReg)
  /-- `LinkWrite` of the valid bits of the last transmitted byte, from this bit position up. -/
  | frame (r : ReaderReg) (shift : Nat)
  /-- `XSETB r, m`. -/
  | setBits (r : ReaderReg) (m : SeqByte)
  /-- `XCLRB r, m`. -/
  | clearBits (r : ReaderReg) (m : SeqByte)
  /-- `XWAIT r, m, t`: a timeout ends the sequence in `Fail(TIMEOUT)`. -/
  | wait (r : ReaderReg) (m : SeqByte)
  /-- A read that ends the sequence in `Fail(PCD_ERROR)` if a bit of the mask is set. -/
  | check (r : ReaderReg) (m : SeqByte)
  /-- A read whose bits in the mask are the number of bytes received; more than the capacity is `Fail(NO_ROOM)`. -/
  | count (r : ReaderReg) (m : SeqByte)
  /-- One read for each byte counted, appended to what was received. -/
  | collect (r : ReaderReg)
  /-- One read, appended to what was received. -/
  | readByte (r : ReaderReg)
  /-- A read whose three bits from this position up are the valid bits of the last byte received. -/
  | lastBits (r : ReaderReg) (shift : Nat)
deriving DecidableEq, Repr

/-- The parameters of R6 that are not fixed numbers. They are fixed at build time (10_state.md R39): no step writes them. -/
structure Config where
  /-- `MAGIC` (OPEN). -/
  magic : Byte
  /-- The bytes of durable storage beyond the record, so that `STORAGE_SIZE >= 5` holds by construction (20_memory.md R71). -/
  storageBeyond : Nat
  /-- `T_RST_HOLD_MS` (OPEN). -/
  rstHold : Millis
  /-- `T_SOFTRESET_SETTLE_MS` (OPEN). -/
  softResetSettle : Millis
  /-- `BACKEND`. -/
  backend : Backend
  /-- Level A or level B of the Live backend (R10). -/
  level : Level
  /-- `LOCKOUT_TAG_HANDLING`. -/
  lockoutTags : LockoutTagHandling
  /-- `LOAD_RANGE_CHECK`. -/
  loadRangeCheck : Bool
  /-- `BOOT_DRIVE_ACTUATOR` (OPEN). -/
  bootDrive : Bool
  /-- The values of `AUTH` that are known; beyond them `AUTH` is the free function `Config.freeAuth`. -/
  authKnown : List (List Byte × Bool)
  /-- `LINK_BIT_ORDER` (OPEN). -/
  bitOrder : BitOrder
  /-- `CS_ACTIVE_LOW`. -/
  csActiveLow : Bool
  /-- `RST_ACTIVE_LOW`. -/
  rstActiveLow : Bool
  /-- `PCD_REGMAP`. -/
  regs : RegMap
  /-- `PCD_CMD`. -/
  cmds : PcdCommands
  /-- `INIT_TABLE`, in the order it is written. Its registers are `PCD_REGMAP` names (30_encoding.md R119), which `regs`
  gives their addresses. -/
  initTable : List (ReaderReg × Byte)
  /-- `ANTENNA_REG`, a `PCD_REGMAP` name too. -/
  antennaReg : ReaderReg
  /-- `ANTENNA_MASK`. -/
  antennaMask : Byte
  /-- `ERR_MASK`. -/
  errMask : Byte
  /-- `COMPLETION_MASK`. -/
  completionMask : Byte
  /-- `CRC_DONE_MASK`. -/
  crcDoneMask : Byte
  /-- `FIFO_CAP`, the bound of `n` and `cap` in R122. It is a byte because those operands are bytes. -/
  fifoCap : Byte
  /-- The level-B sequence of a transceive (R187: "a parameter that may differ on another reader"). -/
  xcvSteps : List SeqStep
  /-- The level-B sequence of a CRC computation (R193, 93_implementation_defined.md I9). -/
  crcSteps : List SeqStep
deriving DecidableEq, Repr

/-! ## Numbers the source or the spec fixes (R6) -/

/-- `MAX_WRONG_ATTEMPTS`. -/
def Config.maxWrongAttempts : Nat := 3

/-- `LOCKOUT_SECONDS`. -/
def Config.lockoutSeconds : Nat := 30

/-- `RECORD_OFFSET`. -/
def Config.recordOffset : Nat := 0

/-- `RECORD_SIZE`. -/
def Config.recordSize : Nat := 5

/-- `TAGBUF_CAP`. -/
def Config.tagBufCap : Nat := 10

/-- `UID_LEN_CL1`. -/
def Config.uidLen : Nat := 4

/-- `REQA_BOUND_MS`. -/
def Config.reqaBound : Byte := 50#8

/-- `ANTICOLL_BOUND_MS` (decided, D15). -/
def Config.anticollBound : Byte := 50#8

/-- `CRC_BOUND_MS`. -/
def Config.crcBound : Byte := 20#8

/-- `SIM_LINE_CAP`. -/
def Config.simLineCap : Nat := 64

/-- `SIM_MIN_PAIRS`. -/
def Config.simMinPairs : Nat := 4

/-- `READ_MAXLEN` (decided, D42). -/
def Config.readMaxLen : Nat := 10

/-- The default of `FIFO_CAP`. PRESUMED (the spec's general-knowledge default, D12, notes/assumptions/26.md). -/
def defaultFifoCap : Byte := 64#8

/-- The link address of a reader register (R112). -/
def RegMap.addr (m : RegMap) : ReaderReg → Addr
  | .command => m.command
  | .comIrq => m.comIrq
  | .divIrq => m.divIrq
  | .error => m.error
  | .fifoData => m.fifoData
  | .fifoLevel => m.fifoLevel
  | .control => m.control
  | .bitFraming => m.bitFraming
  | .mode => m.mode
  | .txControl => m.txControl
  | .txAsk => m.txAsk
  | .crcResultH => m.crcResultH
  | .crcResultL => m.crcResultL
  | .tMode => m.tMode
  | .tPrescaler => m.tPrescaler
  | .tReloadH => m.tReloadH
  | .tReloadL => m.tReloadL

/-- The value of a byte that a level-B sequence names. -/
def Config.seqByte (c : Config) : SeqByte → Byte
  | .lit d => d
  | .idle => c.cmds.idle
  | .calcCrc => c.cmds.calcCrc
  | .transceive => c.cmds.transceive
  | .softReset => c.cmds.softReset
  | .completionMask => c.completionMask
  | .errMask => c.errMask
  | .crcDoneMask => c.crcDoneMask

/-- `STORAGE_SIZE` (R61). -/
def Config.storageSize (c : Config) : Nat := Config.recordOffset + Config.recordSize + c.storageBeyond

/-- Configuring a storage of `n` bytes; less than a record is ill-formed and refused (R71). -/
def Config.withStorageSize (c : Config) (n : Nat) : Option Config :=
  if n < Config.recordOffset + Config.recordSize then none
  else some { c with storageBeyond := n - (Config.recordOffset + Config.recordSize) }

/-! ## Free values (00_scope.md R15, 93_implementation_defined.md Part 2). None has a body. -/

/-- `MAGIC` of a core as built (I31). -/
opaque Config.freeMagic : Byte
/-- The storage beyond the record of a core as built (I32). -/
opaque Config.freeStorageBeyond : Nat
/-- `T_RST_HOLD_MS` of a core as built (I33). -/
opaque Config.freeRstHold : Millis
/-- `T_SOFTRESET_SETTLE_MS` of a core as built (I33). -/
opaque Config.freeSoftResetSettle : Millis
/-- `BACKEND` of a core as built (I36). -/
opaque Config.freeBackend : Backend
/-- The level of the Live backend (R10). -/
opaque Config.freeLevel : Level
/-- `BOOT_DRIVE_ACTUATOR` of a core as built (I30). -/
opaque Config.freeBootDrive : Bool
/-- `LINK_BIT_ORDER` of a core as built (D6). -/
opaque Config.freeBitOrder : BitOrder
/-- `AUTH` (I34): any total function from byte lists to Bool. -/
opaque Config.freeAuth : List Byte → Bool
/-- The byte the reader returns on the draw with this number (I24). -/
opaque Config.freeByte : Nat → Byte
/-- How many polls beyond the second the wait with this draw number makes at most, before `Expired` is true (I26). -/
opaque Config.freePolls : Nat → Nat
/-- The outcome of the level-A transceive with this draw number (I24). -/
opaque Config.freeXcv : Nat → XcvResult
/-- The outcome of the level-A CRC with this draw number (I24). -/
opaque Config.freeCrc : Nat → CrcResult
/-- The result byte in this place of a CRC computation whose configured sequence reads too few bytes (notes/assumptions/32.md). -/
opaque Config.freeCrcByte : Nat → Byte
/-- The valid bits of the last byte when a configured transceive sequence reads none (notes/assumptions/32.md). -/
opaque Config.freeLastBits : BitVec 3
/-- What the storage byte at this offset holds at first power-up (I25). -/
opaque Config.powerUpByte : Nat → Byte
/-- The level of `link.rst` at the power-up with this draw number (I27). -/
opaque Config.freeRstLine : Nat → Line

/-- `AUTH` (46_lockout_policy.md R321): a total function of the identifier, looked up in what is known of it, free elsewhere. -/
def Config.auth (c : Config) (id : List Byte) : Bool :=
  (c.authKnown.lookup id).getD (Config.freeAuth id)

end Sys2Proof
end

