-- ==== Sys2Proof/Syntax.lean ====
section
/-! DEFINITION. The operations of the core: one constructor per row of spec/opcode_table.json, the formats and the
opcode map of 30_encoding.md Part 3, and why an encoding is refused. -/

namespace Sys2Proof

/-- One constructor per row of the opcode table. A length operand `n` is the length of the list it counts (R121). -/
inductive Instr where
  /-- `XWR a, d` (41_transport.md R144). -/
  | xwr (a : Addr) (d : Byte)
  /-- `XRD a` (R145). -/
  | xrd (a : Addr)
  /-- `XSETB a, m` (R146). -/
  | xsetb (a : Addr) (m : Byte)
  /-- `XCLRB a, m` (R147). -/
  | xclrb (a : Addr) (m : Byte)
  /-- `XWAIT a, m, t` (R148). -/
  | xwait (a : Addr) (m : Byte) (t : Byte)
  /-- `XDELAY t16` (R149). -/
  | xdelay (t : Millis)
  /-- `XRST t16` (R150). -/
  | xrst (t : Millis)
  /-- `PINIT` (42_anticollision_engine.md R180). -/
  | pinit
  /-- `PANTON` (R182). -/
  | panton
  /-- `PXCV n, lb, cap, t, tx` (R184). -/
  | pxcv (lb : BitVec 3) (cap : Byte) (t : Byte) (tx : List Byte)
  /-- `PREQA` (R188). -/
  | preqa
  /-- `PANTICOLL` (R190). -/
  | panticoll
  /-- `PCRC n, data` (R192). -/
  | pcrc (data : List Byte)
  /-- `TAGAVAIL` (R196 Live, R246 Sim). -/
  | tagavail
  /-- `READTAG maxLen` (R197). -/
  | readtag (maxLen : Byte)
  /-- `SLOAD` (44_state_record.md R274). -/
  | sload
  /-- `SSAVE` (R276). -/
  | ssave
  /-- `LTAKE` (45_power_fail_latch.md R301). -/
  | ltake
  /-- `BOOT` (46_lockout_policy.md R330). -/
  | boot
  /-- `EVAL n, id` (R332). -/
  | eval (id : List Byte)
  /-- `TICK` (R334). -/
  | tick
  /-- `PFCHECK` (R335). -/
  | pfcheck
  /-- `LOOP` (R336). -/
  | loop
  /-- A write transfer on the link wire (R142, 30_encoding.md R101). -/
  | linkWrite (a : Addr) (d : Byte)
  /-- A read transfer on the link wire (R143); `v` is the byte the reader sends in the data slot. -/
  | linkRead (a : Addr) (v : Byte)
  /-- The REQA short frame (R104). -/
  | reqa
  /-- The anticollision Cascade Level 1 frame (R106). -/
  | anticollCl1
  /-- The reader command Idle (R113). -/
  | pcdIdle
  /-- The reader command CalcCRC (R113). -/
  | pcdCalcCrc
  /-- The reader command Transceive (R113). -/
  | pcdTransceive
  /-- The reader command SoftReset (R113). -/
  | pcdSoftReset
deriving DecidableEq, Repr

/-- The encoding spaces of the opcode table (its field "space"): the operation port (R120), the link wire (R100),
the frames to the card (R103) and the reader's `CommandReg` values (R113). -/
inductive Space where
  | operation
  | link
  | card
  | command
deriving DecidableEq, Repr

/-- The encoding space an instruction is written in. -/
def Instr.space : Instr → Space
  | .xwr _ _ | .xrd _ | .xsetb _ _ | .xclrb _ _ | .xwait _ _ _ | .xdelay _ | .xrst _ => .operation
  | .pinit | .panton | .pxcv _ _ _ _ | .preqa | .panticoll | .pcrc _ | .tagavail | .readtag _ => .operation
  | .sload | .ssave | .ltake | .boot | .eval _ | .tick | .pfcheck | .loop => .operation
  | .linkWrite _ _ | .linkRead _ _ => .link
  | .reqa | .anticollCl1 => .card
  | .pcdIdle | .pcdCalcCrc | .pcdTransceive | .pcdSoftReset => .command

/-- The operations of the operation port, without their operands (R123). -/
inductive Opcode where
  | xwr | xrd | xsetb | xclrb | xwait | xdelay | xrst
  | pinit | panton | pxcv | preqa | panticoll | pcrc | tagavail | readtag
  | sload | ssave | ltake | boot | eval | tick | pfcheck | loop
deriving DecidableEq, Repr

/-- Why the decoder refuses an encoding (R124), with the offending byte that `F_REFUSED` records (60_exceptions.md R368). -/
inductive Reject where
  /-- A reserved opcode, or a byte that begins no encoding of its space. -/
  | opcode (b : Byte)
  /-- An operand outside its range. -/
  | operand (b : Byte)
  /-- The stream ends inside the operation that begins with this byte. -/
  | truncated (b : Byte)
  /-- The stream holds no byte at all. -/
  | empty
deriving DecidableEq, Repr

end Sys2Proof
end

