-- ==== Sys2Proof/WellFormed.lean ====
section
/-! DEFINITION. The operand ranges of 30_encoding.md R122, as a check on instructions. Ranges that a field's width
already keeps (`a` below 128, `lb` below 8) need no check here; the decoder checks the bits that must be 0. -/

namespace Sys2Proof

/-- Every operand is in the range R122 gives it, for a reader whose `FIFO_CAP` is `fifoCap` (00_scope.md R6). -/
def Instr.wellFormed (fifoCap : Byte) : Instr → Bool
  | .xwait _ _ t => t != 0#8
  | .pxcv _ cap t tx =>
    decide (1 ≤ tx.length ∧ tx.length ≤ fifoCap.toNat ∧ 1 ≤ cap.toNat ∧ cap.toNat ≤ fifoCap.toNat ∧ t ≠ 0#8)
  | .pcrc data => decide (data.length ≤ fifoCap.toNat)
  | .eval id => decide (id.length ≤ Config.tagBufCap)
  | .xwr _ _ | .xrd _ | .xsetb _ _ | .xclrb _ _ | .xdelay _ | .xrst _ => true
  | .pinit | .panton | .preqa | .panticoll | .tagavail | .readtag _ => true
  | .sload | .ssave | .ltake | .boot | .tick | .pfcheck | .loop => true
  | .linkWrite _ _ | .linkRead _ _ | .reqa | .anticollCl1 => true
  | .pcdIdle | .pcdCalcCrc | .pcdTransceive | .pcdSoftReset => true

end Sys2Proof
end

