-- ==== Sys2Proof/Decode.lean ====
section
/-! DEFINITION. The total decoder of every encoding space of the opcode table (30_encoding.md R120 to R125, R100 to
R106, R113), the encoder written from the same tables, and the two words-to-instructions maps the host asks for. -/

namespace Sys2Proof

/-! ## The opcode map and its formats -/

/-- The opcode byte of an operation (R123). -/
def Opcode.byte : Opcode → Byte
  | .xwr => 0x10#8 | .xrd => 0x11#8 | .xsetb => 0x12#8 | .xclrb => 0x13#8
  | .xwait => 0x14#8 | .xdelay => 0x15#8 | .xrst => 0x16#8
  | .pinit => 0x20#8 | .panton => 0x21#8 | .pxcv => 0x22#8 | .preqa => 0x23#8
  | .panticoll => 0x24#8 | .pcrc => 0x25#8 | .tagavail => 0x26#8 | .readtag => 0x27#8
  | .sload => 0x30#8 | .ssave => 0x31#8 | .ltake => 0x40#8
  | .boot => 0x50#8 | .eval => 0x51#8 | .tick => 0x52#8 | .pfcheck => 0x53#8 | .loop => 0x54#8

/-- Every operation of R123, in the order of its table. -/
def Opcode.all : List Opcode :=
  [.xwr, .xrd, .xsetb, .xclrb, .xwait, .xdelay, .xrst,
   .pinit, .panton, .pxcv, .preqa, .panticoll, .pcrc, .tagavail, .readtag,
   .sload, .ssave, .ltake, .boot, .eval, .tick, .pfcheck, .loop]

/-- The operation a byte is the opcode of; every other byte is reserved (R124). -/
def Opcode.ofByte (b : Byte) : Option Opcode :=
  Opcode.all.find? (fun o => o.byte = b)

/-- The bytes of an operation's format before any counted bytes (R121). -/
def Opcode.fixedLength : Opcode → Nat
  | .xwr | .xsetb | .xclrb | .xdelay | .xrst => 3
  | .xrd | .readtag | .pcrc | .eval => 2
  | .xwait => 4
  | .pxcv => 6
  | .pinit | .panton | .preqa | .panticoll | .tagavail | .sload | .ssave | .ltake
  | .boot | .tick | .pfcheck | .loop => 1

/-! ## Operand assembly (R122) -/

/-- The 7-bit address in an `a` byte, `byte[6:0]`. -/
def addrOfByte (b : Byte) : Addr := b.setWidth 7

/-- The delay `t16`: the low byte comes first. -/
def millisOfBytes (tl th : Byte) : Millis := tl.setWidth 16 ||| (th.setWidth 16 <<< 8)

/-- What decoding gives: an instruction with the rest of the stream, or why it is refused. -/
abbrev Decoded := Except Reject (Instr × List Byte)

/-- Format `FA`: `byte[7]` of the address byte must be 0. -/
def decodeFA (op : Byte) (mk : Addr → Instr) : List Byte → Decoded
  | a :: rest => if a.getLsbD 7 then .error (.operand a) else .ok (mk (addrOfByte a), rest)
  | [] => .error (.truncated op)

/-- Formats `FAD` and `FAM`: an address byte and a data or mask byte. -/
def decodeFAD (op : Byte) (mk : Addr → Byte → Instr) : List Byte → Decoded
  | a :: d :: rest => if a.getLsbD 7 then .error (.operand a) else .ok (mk (addrOfByte a) d, rest)
  | _ => .error (.truncated op)

/-- Format `FAMT`: a wait bound of 0 is refused. -/
def decodeFAMT (op : Byte) (mk : Addr → Byte → Byte → Instr) : List Byte → Decoded
  | a :: m :: t :: rest =>
    if a.getLsbD 7 then .error (.operand a)
    else if t = 0#8 then .error (.operand t)
    else .ok (mk (addrOfByte a) m t, rest)
  | _ => .error (.truncated op)

/-- Format `FT16`. -/
def decodeFT16 (op : Byte) (mk : Millis → Instr) : List Byte → Decoded
  | tl :: th :: rest => .ok (mk (millisOfBytes tl th), rest)
  | _ => .error (.truncated op)

/-- Format `FL`. -/
def decodeFL (op : Byte) (mk : Byte → Instr) : List Byte → Decoded
  | n :: rest => .ok (mk n, rest)
  | [] => .error (.truncated op)

/-- Format `FN`: `n` and then `n` bytes, with `n` at most `cap`. -/
def decodeFN (op : Byte) (cap : Nat) (mk : List Byte → Instr) : List Byte → Decoded
  | n :: rest =>
    if rest.length < n.toNat then .error (.truncated op)
    else if cap < n.toNat then .error (.operand n)
    else .ok (mk (rest.take n.toNat), rest.drop n.toNat)
  | [] => .error (.truncated op)

/-- Format `FX`: `n, lb, cap, t`, a reserved byte that must be 0, and then `n` bytes, with `n` and `cap` at most `fifoCap`. -/
def decodeFX (op : Byte) (fifoCap : Nat) (mk : BitVec 3 → Byte → Byte → List Byte → Instr) : List Byte → Decoded
  | n :: lb :: cap :: t :: reserved :: rest =>
    if rest.length < n.toNat then .error (.truncated op)
    else if n.toNat = 0 ∨ fifoCap < n.toNat then .error (.operand n)
    else if 8 ≤ lb.toNat then .error (.operand lb)
    else if cap.toNat = 0 ∨ fifoCap < cap.toNat then .error (.operand cap)
    else if t = 0#8 then .error (.operand t)
    else if reserved ≠ 0#8 then .error (.operand reserved)
    else .ok (mk (lb.setWidth 3) cap t (rest.take n.toNat), rest.drop n.toNat)
  | _ => .error (.truncated op)

/-- The operands of an operation, by its format (R121, R123). -/
def decodeOperands (fifoCap : Byte) (o : Opcode) (rest : List Byte) : Decoded :=
  match o with
  | .xwr => decodeFAD o.byte .xwr rest
  | .xrd => decodeFA o.byte .xrd rest
  | .xsetb => decodeFAD o.byte .xsetb rest
  | .xclrb => decodeFAD o.byte .xclrb rest
  | .xwait => decodeFAMT o.byte .xwait rest
  | .xdelay => decodeFT16 o.byte .xdelay rest
  | .xrst => decodeFT16 o.byte .xrst rest
  | .pinit => .ok (.pinit, rest)
  | .panton => .ok (.panton, rest)
  | .pxcv => decodeFX o.byte fifoCap.toNat .pxcv rest
  | .preqa => .ok (.preqa, rest)
  | .panticoll => .ok (.panticoll, rest)
  | .pcrc => decodeFN o.byte fifoCap.toNat .pcrc rest
  | .tagavail => .ok (.tagavail, rest)
  | .readtag => decodeFL o.byte .readtag rest
  | .sload => .ok (.sload, rest)
  | .ssave => .ok (.ssave, rest)
  | .ltake => .ok (.ltake, rest)
  | .boot => .ok (.boot, rest)
  | .eval => decodeFN o.byte Config.tagBufCap .eval rest
  | .tick => .ok (.tick, rest)
  | .pfcheck => .ok (.pfcheck, rest)
  | .loop => .ok (.loop, rest)

/-! ## The decoders of the four encoding spaces -/

/-- The operation port (R125): the opcode, then its operands; a reserved opcode is refused. -/
def decodeOperation (fifoCap : Byte) : List Byte → Decoded
  | [] => .error .empty
  | b :: rest =>
    match Opcode.ofByte b with
    | some o => decodeOperands fifoCap o rest
    | none => .error (.opcode b)

/-- The link wire (R101): bit 7 of the address byte says read. -/
def decodeLink : List Byte → Decoded
  | x :: y :: rest =>
    if x.getLsbD 7 then .ok (.linkRead (addrOfByte x) y, rest) else .ok (.linkWrite (addrOfByte x) y, rest)
  | [x] => .error (.truncated x)
  | [] => .error .empty

/-- The two frames the core sends to the card (R104, R106). -/
def decodeCard : List Byte → Decoded
  | [] => .error .empty
  | b :: rest =>
    if b = 0x26#8 then .ok (.reqa, rest)
    else if b = 0x93#8 then
      match rest with
      | [] => .error (.truncated b)
      | n :: rest => if n = 0x20#8 then .ok (.anticollCl1, rest) else .error (.operand n)
    else .error (.opcode b)

/-- The reader commands (R113); bits 7:4 are written 0. PRESUMED codes, the spec's general-knowledge defaults. -/
def decodeCommand : List Byte → Decoded
  | [] => .error .empty
  | b :: rest =>
    if b = 0x00#8 then .ok (.pcdIdle, rest)
    else if b = 0x03#8 then .ok (.pcdCalcCrc, rest)
    else if b = 0x0C#8 then .ok (.pcdTransceive, rest)
    else if b = 0x0F#8 then .ok (.pcdSoftReset, rest)
    else .error (.opcode b)

/-- The decoder: total on any bytes, in any of the encoding spaces, for any `FIFO_CAP` (00_scope.md R6). -/
def decode (fifoCap : Byte) : Space → List Byte → Decoded
  | .operation, bs => decodeOperation fifoCap bs
  | .link, bs => decodeLink bs
  | .card, bs => decodeCard bs
  | .command, bs => decodeCommand bs

/-! ## The encoder -/

/-- An address byte whose bit 7 is 0. -/
def byteOfAddr (a : Addr) : Byte := a.setWidth 8

/-- The count byte of a counted list. -/
def countByte (bs : List Byte) : Byte := BitVec.ofNat 8 bs.length

/-- The low byte and the high byte of a delay. -/
def bytesOfMillis (t : Millis) : List Byte := [t.setWidth 8, (t >>> 8).setWidth 8]

/-- The bytes of an instruction in its encoding space (R121, R123, R101, R104, R106, R113). -/
def encode : Instr → List Byte
  | .xwr a d => [Opcode.byte .xwr, byteOfAddr a, d]
  | .xrd a => [Opcode.byte .xrd, byteOfAddr a]
  | .xsetb a m => [Opcode.byte .xsetb, byteOfAddr a, m]
  | .xclrb a m => [Opcode.byte .xclrb, byteOfAddr a, m]
  | .xwait a m t => [Opcode.byte .xwait, byteOfAddr a, m, t]
  | .xdelay t => Opcode.byte .xdelay :: bytesOfMillis t
  | .xrst t => Opcode.byte .xrst :: bytesOfMillis t
  | .pinit => [Opcode.byte .pinit]
  | .panton => [Opcode.byte .panton]
  | .pxcv lb cap t tx => [Opcode.byte .pxcv, countByte tx, lb.setWidth 8, cap, t, 0x00#8] ++ tx
  | .preqa => [Opcode.byte .preqa]
  | .panticoll => [Opcode.byte .panticoll]
  | .pcrc data => [Opcode.byte .pcrc, countByte data] ++ data
  | .tagavail => [Opcode.byte .tagavail]
  | .readtag maxLen => [Opcode.byte .readtag, maxLen]
  | .sload => [Opcode.byte .sload]
  | .ssave => [Opcode.byte .ssave]
  | .ltake => [Opcode.byte .ltake]
  | .boot => [Opcode.byte .boot]
  | .eval id => [Opcode.byte .eval, countByte id] ++ id
  | .tick => [Opcode.byte .tick]
  | .pfcheck => [Opcode.byte .pfcheck]
  | .loop => [Opcode.byte .loop]
  | .linkWrite a d => [byteOfAddr a, d]
  | .linkRead a v => [0x80#8 ||| byteOfAddr a, v]
  | .reqa => [0x26#8]
  | .anticollCl1 => [0x93#8, 0x20#8]
  | .pcdIdle => [0x00#8]
  | .pcdCalcCrc => [0x03#8]
  | .pcdTransceive => [0x0C#8]
  | .pcdSoftReset => [0x0F#8]

/-! ## The words of the opcode table -/

/-- The longest encoding: `PXCV` with `FIFO_CAP` bytes, or `EVAL` with 10. -/
def longestInstr (fifoCap : Byte) : Nat := max 12 (6 + fifoCap.toNat)

/-- The low `n` bytes of a number, the lowest first. -/
def lowBytes : Nat → Nat → List Byte
  | 0, _ => []
  | n + 1, w => BitVec.ofNat 8 w :: lowBytes n (w / 256)

/-- The encoding space a word of the opcode table is read in. A word that begins with an opcode and is no longer than
that opcode's format is an operation; of the others, an 8-bit word is a reader command, a 16-bit word is the anticollision
frame or a link transfer, a 7-bit word is a short frame (DESIGN CHOICE, notes/assumptions/8.md: the table's spaces overlap). -/
def tableSpace (nbits w : Nat) : Space :=
  let other : Space :=
    if nbits ≤ 8 then .command else if w = 0x9320 then .card else .link
  if nbits = 7 then .card
  else
    match Opcode.ofByte (BitVec.ofNat 8 w) with
    | some o => if nbits ≤ 8 * o.fixedLength then .operation else other
    | none => other

/-- The bytes of a word of the opcode table as the hardware has them. Operations: the lowest byte is byte 0, and every
byte beyond the word is 0. Link transfers and card frames are one word sent high byte first (R65, R100). -/
def tableBytes (fifoCap : Byte) (nbits w : Nat) : List Byte :=
  match tableSpace nbits w with
  | .operation =>
    let bs := lowBytes ((nbits + 7) / 8) w
    bs ++ List.replicate (longestInstr fifoCap - bs.length) 0x00#8
  | .link => (lowBytes 2 w).reverse
  | .card => if nbits ≤ 8 then lowBytes 1 w else (lowBytes 2 w).reverse
  | .command => lowBytes 1 w

/-- The instruction the decoder reads from a word of the opcode table, `FIFO_CAP` at its default. -/
def decodeTableWord (nbits w : Nat) : Option Instr :=
  match decode defaultFifoCap (tableSpace nbits w) (tableBytes defaultFifoCap nbits w) with
  | .ok (i, _) => some i
  | .error _ => none

/-- The bytes of a table word cut to the instruction that stands in them, if any does. -/
def tableInstrBytes (fifoCap : Byte) (nbits w : Nat) : List Byte :=
  let bs := tableBytes fifoCap nbits w
  match decode fifoCap (tableSpace nbits w) bs with
  | .ok (_, rest) => bs.take (bs.length - rest.length)
  | .error _ => bs

end Sys2Proof
end

