-- ==== Sys2Proof/Machine/Binding.lean ====
section
/-! DEFINITION. The level-B binding of the reader (30_encoding.md R112 to R119): the spec's general-knowledge defaults,
all PRESUMED (notes/assumptions/22.md), the standard register sequences, and the configuration of a core as built. -/

namespace Sys2Proof.Machine

/-- `PCD_REGMAP` (R112), link addresses. PRESUMED. -/
def defaultRegs : RegMap where
  command := 0x02#7
  comIrq := 0x08#7
  divIrq := 0x0A#7
  error := 0x0C#7
  fifoData := 0x12#7
  fifoLevel := 0x14#7
  control := 0x18#7
  bitFraming := 0x1A#7
  mode := 0x22#7
  txControl := 0x28#7
  txAsk := 0x2A#7
  crcResultH := 0x42#7
  crcResultL := 0x44#7
  tMode := 0x54#7
  tPrescaler := 0x56#7
  tReloadH := 0x58#7
  tReloadL := 0x5A#7

/-- `PCD_CMD` (R113). PRESUMED. -/
def defaultCommands : PcdCommands where
  idle := 0x00#8
  calcCrc := 0x03#8
  transceive := 0x0C#8
  softReset := 0x0F#8

/-- `INIT_TABLE` (R119), in its order. PRESUMED. -/
def defaultInitTable : List (ReaderReg × Byte) :=
  [(.tMode, 0x80#8), (.tPrescaler, 0xA9#8), (.tReloadH, 0x03#8), (.tReloadL, 0xE8#8), (.txAsk, 0x40#8), (.mode, 0x3D#8)]

/-- `ANTENNA_REG` (R119). PRESUMED. -/
def defaultAntennaReg : ReaderReg := .txControl

/-- `ANTENNA_MASK` (R119). PRESUMED. -/
def defaultAntennaMask : Byte := 0x03#8

/-- `ERR_MASK` (R116). PRESUMED. -/
def defaultErrMask : Byte := 0x1B#8

/-- `COMPLETION_MASK` (R114). PRESUMED. -/
def defaultCompletionMask : Byte := 0x30#8

/-- `CRC_DONE_MASK` (R115). PRESUMED. -/
def defaultCrcDoneMask : Byte := 0x04#8

/-- The value that clears bits 6:0 of `ComIrqReg` (R114), as the assembler's `CLEARIRQ` writes it. PRESUMED. -/
def clearComIrq : Byte := 0x7F#8

/-- `FlushBuffer`, bit 7 of `FIFOLevelReg` (R117), as the assembler's `FLUSHFIFO` writes it. PRESUMED. -/
def flushBuffer : Byte := 0x80#8

/-- The sequence of `XcvB` (42_anticollision_engine.md R187), line by line. PRESUMED (notes/assumptions/32.md). -/
def standardXcv : List SeqStep :=
  [.write .command .idle, .write .comIrq (.lit 0x7F#8), .write .fifoLevel (.lit 0x80#8), .load .fifoData,
   .frame .bitFraming 0, .write .command .transceive, .setBits .bitFraming (.lit 0x80#8), .wait .comIrq .completionMask,
   .check .error .errMask, .count .fifoLevel (.lit 0x7F#8), .collect .fifoData, .lastBits .control 0]

/-- The sequence of `CrcB` (R193), line by line. PRESUMED (notes/assumptions/32.md). -/
def standardCrc : List SeqStep :=
  [.write .command .idle, .write .divIrq (.lit 0x04#8), .write .fifoLevel (.lit 0x80#8), .load .fifoData,
   .write .command .calcCrc, .wait .divIrq .crcDoneMask, .write .command .idle, .readByte .crcResultL,
   .readByte .crcResultH]

/-- The configuration of a core as built: OPEN parameters are free values, decided parameters have the spec's default,
the binding has its general-knowledge defaults. -/
def builtConfig : Config where
  magic := Config.freeMagic
  storageBeyond := Config.freeStorageBeyond
  rstHold := Config.freeRstHold
  softResetSettle := Config.freeSoftResetSettle
  backend := Config.freeBackend
  level := Config.freeLevel
  lockoutTags := .readAndDiscard
  loadRangeCheck := false
  bootDrive := Config.freeBootDrive
  authKnown := []
  bitOrder := Config.freeBitOrder
  csActiveLow := true
  rstActiveLow := true
  regs := defaultRegs
  cmds := defaultCommands
  initTable := defaultInitTable
  antennaReg := defaultAntennaReg
  antennaMask := defaultAntennaMask
  errMask := defaultErrMask
  completionMask := defaultCompletionMask
  crcDoneMask := defaultCrcDoneMask
  fifoCap := defaultFifoCap
  xcvSteps := standardXcv
  crcSteps := standardCrc

end Sys2Proof.Machine
end

