-- ==== Sys2Proof/Machine/State.lean ====
section
/-! DEFINITION. The state of the machine as plain data: one record per unit (10_state.md R21), the durable storage, the
inputs, the configuration, and the model's own fields (the port, the schedule, the draws, the last result). -/

namespace Sys2Proof.Machine

/-! ## Units -/

/-- The record copy `rec` (10_state.md R23) in record order. -/
structure Record where
  /-- `rec.magic`. -/
  magic : Byte
  /-- `rec.lockState`: 0x01 is Unlocked, every other value counts as Locked (R24). -/
  lockState : Byte
  /-- `rec.wrongAttempts` (R25). -/
  wrongAttempts : Byte
  /-- `rec.lockoutSecondsRemaining`, short `lsr` (R26). -/
  lsr : Byte
  /-- `rec.checksum` (R27). -/
  checksum : Byte
deriving DecidableEq, Repr

/-- The tag buffer (R30). `bytes` is the part of the buffer that holds a value (R22): `tag.len` is its length. -/
structure Tag where
  valid : Bool
  bytes : List Byte
deriving DecidableEq, Repr

/-- The simulated line buffer (R31). `line` is the part that holds a value (R22): `sim.len` is its length. -/
structure Sim where
  line : List Byte
deriving DecidableEq, Repr

/-- The power-fail latch (R33). -/
structure Latch where
  latch : Bool
deriving DecidableEq, Repr

/-- The interrupt state (R36), with the edge held pending while interrupts are disabled (60_exceptions.md R371). -/
structure Irq where
  attached : Bool
  enabled : Bool
  pending : Bool
deriving DecidableEq, Repr

/-- What the core records of the link (41_transport.md R140). -/
inductive LinkEvent where
  | cs (l : Line)
  | rst (l : Line)
  | w (a : Addr) (d : Byte)
  | r (a : Addr) (v : Byte)
  | delay (t : Millis)
  | xcv (tx : List Byte) (lb : BitVec 3) (cap : Byte) (t : Byte) (r : XcvResult)
  | crc (data : List Byte) (r : CrcResult)
deriving DecidableEq, Repr

/-- The link lines and history (R35, R140). -/
structure Link where
  cs : Line
  rst : Line
  hist : List LinkEvent
deriving DecidableEq, Repr

/-- The engine's result status (R37): the code of the last engine operation's outcome. R43 gives it no value at reset; the
model's reset value is a DESIGN CHOICE (notes/assumptions/33.md). -/
structure Engine where
  lastResult : ResultCode
deriving DecidableEq, Repr

/-- The actuator commands (R34). -/
inductive ActCommand where
  | lock
  | unlock
deriving DecidableEq, Repr

/-- The history of the actuator port `ACT` (R34). -/
structure Actuator where
  hist : List ActCommand
deriving DecidableEq, Repr

/-- `seq.phase` (R38). -/
inductive Phase where
  | powerOn
  | booting
  | running
deriving DecidableEq, Repr

/-- What one pseudocode step found out and handed on: a byte read, a test, a draw, the record. -/
inductive Answer where
  | unit
  | bit (b : Bool)
  | byte (v : Byte)
  | bytes (bs : List Byte)
  | count (n : Nat)
  | record (r : Option Record)
  | xcv (r : XcvResult)
  | crc (r : CrcResult)
deriving DecidableEq, Repr

/-- The step position inside the current operation's pseudocode (R38): the operation, and what each step taken so far
answered. The answers fix which path through the pseudocode was taken, so they name the next step, local variables
included (notes/assumptions/34.md). -/
structure Position where
  instr : Instr
  answers : List Answer
deriving DecidableEq, Repr

/-- The sequencer's bookkeeping (R29) and its position (R38), the pair of the phase and the step position; `none` when no
operation is in progress. -/
structure Sequencer where
  booted : Bool
  phase : Phase
  position : Option Position
deriving DecidableEq, Repr

/-- The environment inputs held in queues (R42): `in.chars` and `in.ticks`. -/
structure Inputs where
  chars : List Byte
  ticks : Nat
deriving DecidableEq, Repr

/-- Durable storage (20_memory.md R61): the bytes written since first power-up, offsets strictly rising. A byte that is
not listed was never written and has no value of its own: reading it gives the free value `Config.powerUpByte` of its
offset (notes/assumptions/16.md). -/
abbrev Memory := List Host.Cell

/-- One `MemWrite` (R66): its offset and its bytes. -/
abbrev StorageWrite := Nat × List Byte

/-! ## The model's own parts -/

/-- The operation port (30_encoding.md R120): the encoding space selected and the bytes waiting. -/
structure Port where
  space : Space
  bytes : List Byte
deriving DecidableEq, Repr

/-- What arrives from outside the sequencer, between any two of its steps (20_memory.md R74): the power-fail edge
(45_power_fail_latch.md R300), an elapsed second, an input character (10_state.md R42). -/
inductive Arrival where
  | edge
  | second
  | char (c : Byte)
deriving DecidableEq, Repr

/-- Who moves next: the sequencer, with one pseudocode step (`advance`) or with everything up to the end of its operation;
something that arrives; or the power, which is lost and comes back with these characters waiting (60_exceptions.md R382). -/
inductive Move where
  | sequencer
  | advance
  | arrive (a : Arrival)
  | powerLoss (chars : List Byte)
deriving DecidableEq, Repr

/-- The environment's answers (00_scope.md R15): scripts that are used up first, and the number of the next free draw. -/
structure Draws where
  reads : List Byte
  waits : List Nat
  xcvs : List XcvResult
  crcs : List CrcResult
  count : Nat
deriving DecidableEq, Repr

/-- The verdicts of `EVAL` (46_lockout_policy.md R332, R333). -/
inductive Verdict where
  | skipped
  | matched
  | mismatched
  | lockoutStarted
deriving DecidableEq, Repr

/-- What an operation returned (60_exceptions.md R360): the value of `Ok`, or the code of `Fail`. -/
inductive OpResult where
  | unit
  | byte (v : Byte)
  | bytes (bs : List Byte)
  | bit (b : Bool)
  | received (rx : List Byte) (lastBits : BitVec 3)
  | copied (k : Nat) (out : List Byte)
  | verdict (v : Verdict)
  | fail (c : ResultCode)
deriving DecidableEq, Repr

/-- The whole machine. -/
structure State where
  /-- The build-time parameters (R6, R39): no step writes them. -/
  cfg : Config
  /-- The five `rec` registers. R43 gives them no value at reset; the model's reset values are a DESIGN CHOICE
  (notes/assumptions/13.md). -/
  record : Record
  /-- Whether a rule has written `rec` since reset (R22): until then no operation may read it (60_exceptions.md R366). -/
  loaded : Bool
  /-- `tag`. -/
  tag : Tag
  /-- `sim`. -/
  sim : Sim
  /-- `pfl`. -/
  pfl : Latch
  /-- `irq`. -/
  irq : Irq
  /-- `link`. -/
  link : Link
  /-- `eng`. -/
  eng : Engine
  /-- `act`. -/
  act : Actuator
  /-- `seq`. -/
  seq : Sequencer
  /-- `in`. -/
  inp : Inputs
  /-- Durable storage. -/
  durable : Memory
  /-- The sequence of storage writes (R381). -/
  writes : List StorageWrite
  /-- The operation port (the model's own). -/
  port : Port
  /-- The schedule (the model's own); when it is empty the sequencer moves, a whole operation at a time. -/
  moves : List Move
  /-- The environment's answers (the model's own). -/
  draws : Draws
  /-- What the last operation returned (the model's own); none when none has returned. -/
  result : Option OpResult
deriving DecidableEq, Repr

/-- The model faults of 60_exceptions.md R365; each ends the run in `Faulted(F)`. All are safe: no claim about a run
after one can be proved. -/
inductive Fault where
  /-- `F_UNWRITTEN` (R366): raised by an operation that reads `rec` before any rule has written it, which in a run is `SSAVE` before the first `SLOAD` or `BOOT`. Safe. -/
  | unwritten
  /-- `F_NOT_BOOTED` (R367): raised by `EVAL`, `TICK`, `PFCHECK`, `LOOP` before `BOOT`. Safe. -/
  | notBooted
  /-- `F_BOOTED_TWICE` (R367): raised by `BOOT` after a completed `BOOT`. Safe. -/
  | bootedTwice
  /-- `F_REFUSED` (R368): raised by the step when the decoder refuses the bytes on the port, with the offending byte. Safe. -/
  | refused (why : Reject)
deriving DecidableEq, Repr

/-- Refusals. No step of this model gives one: every operation has its meaning. -/
inductive Refusal where
  /-- An instruction without a meaning, by its mnemonic: raised by no arm of `exec`. Safe. -/
  | notModelled (mnemonic : String)
deriving DecidableEq, Repr

/-- The machine right after reset (10_state.md R43, 70_reset_and_hazards.md R400, R401): first power-up of a core as built. -/
def State.reset : State where
  cfg := builtConfig
  record := { magic := 0x00#8, lockState := 0x00#8, wrongAttempts := 0x00#8, lsr := 0x00#8, checksum := 0x00#8 }
  loaded := false
  tag := { valid := false, bytes := [] }
  sim := { line := [] }
  pfl := { latch := false }
  irq := { attached := false, enabled := true, pending := false }
  link := { cs := .deasserted, rst := Config.freeRstLine 0, hist := [] }
  eng := { lastResult := .ok }
  act := { hist := [] }
  seq := { booted := false, phase := .powerOn, position := none }
  inp := { chars := [], ticks := 0 }
  durable := []
  writes := []
  port := { space := .operation, bytes := [] }
  moves := []
  draws := { reads := [], waits := [], xcvs := [], crcs := [], count := 0 }
  result := none

end Sys2Proof.Machine
end

