-- ==== Sys2Proof/Machine/Flags.lean ====
section
/-! DEFINITION. The flag and check computations of the core: bit tests of masks, the two XOR checks, the result codes
and the derived policy mode. The core has no arithmetic flags and no condition codes (10_state.md R37). -/

namespace Sys2Proof.Machine

/-- Some bit of the mask is set: `(v & m) != 0` (41_transport.md R148). -/
def anySet (v m : Byte) : Bool := v &&& m != 0#8

/-- Every bit of the mask is set: not `(v & m) != m` (R146). -/
def allSet (v m : Byte) : Bool := v &&& m == m

/-- `xor_fold` (00_scope.md R12): the XOR of all elements. -/
def xorFold (l : List Byte) : Byte := l.foldr (· ^^^ ·) 0#8

/-- `fold` of four bytes (44_state_record.md R270). -/
def fold4 (m l w s : Byte) : Byte := m ^^^ l ^^^ w ^^^ s

/-- `fold(rec)` (R270). -/
def Record.fold (r : Record) : Byte := fold4 r.magic r.lockState r.wrongAttempts r.lsr

/-- `BccOk` (42_anticollision_engine.md R191): the fifth byte is the XOR of the first four. -/
def bccOk (rx : List Byte) : Bool :=
  rx.getD 4 0#8 == rx.getD 0 0#8 ^^^ rx.getD 1 0#8 ^^^ rx.getD 2 0#8 ^^^ rx.getD 3 0#8

/-- The numbers of the result codes (60_exceptions.md R361). -/
def codeNumber : ResultCode → Nat
  | .ok => 0
  | .timeout => 1
  | .pcdError => 2
  | .noRoom => 3
  | .badLength => 4
  | .badLastBits => 5
  | .bccMismatch => 6
  | .crcTimeout => 7

/-- The code of a transceive failure (R183, R361). -/
def codeOfFailure : XcvFailure → ResultCode
  | .timeout => .timeout
  | .pcdError => .pcdError
  | .noRoom => .noRoom

/-- `code(r)` of R184: `OK` for every `Ok`. -/
def codeOfXcv : XcvResult → ResultCode
  | .ok _ _ => .ok
  | .fail why => codeOfFailure why

/-- `code(r)` of R192. -/
def codeOfCrc : CrcResult → ResultCode
  | .ok _ _ => .ok
  | .timeout => .crcTimeout

/-- The policy mode (10_state.md R28), derived from `lsr` alone. -/
inductive Mode where
  | active
  | lockedOut
deriving DecidableEq, Repr

/-- `mode` of a record (R28). -/
def modeOf (r : Record) : Mode := if r.lsr = 0#8 then .active else .lockedOut

/-- What reading `rec` finds: its five registers, or nothing as long as no rule has written them (R22). -/
def State.held (s : State) : Option Record := if s.loaded then some s.record else none

/-- The mode of the machine: undefined until the record is loaded (R43). -/
def State.mode (s : State) : Option Mode := s.held.map modeOf

end Sys2Proof.Machine
end

