-- ==== Sys2Proof/Machine/Operands.lean ====
section
/-! DEFINITION. Operand forms and byte layouts: the record's bytes, buffer lengths, the bytes and bits a transfer puts on
the link wire, the electrical levels of the lines, and the decoding of a simulated input line. -/

namespace Sys2Proof.Machine

/-! ## The record (44_state_record.md R271 to R273) -/

/-- `bytes(rec)` (R271). -/
def Record.bytes (r : Record) : List Byte := [r.magic, r.lockState, r.wrongAttempts, r.lsr, r.checksum]

/-- The record whose five bytes these are (R271); a missing byte reads as 0, and every access has five. -/
def Record.ofBytes (b : List Byte) : Record where
  magic := b.getD 0 0#8
  lockState := b.getD 1 0#8
  wrongAttempts := b.getD 2 0#8
  lsr := b.getD 3 0#8
  checksum := b.getD 4 0#8

/-- `Default` (R272). -/
def defaultRecord (magic : Byte) : Record where
  magic := magic
  lockState := 0x00#8
  wrongAttempts := 0x00#8
  lsr := 0x00#8
  checksum := magic

/-- The ranges of 10_state.md R24 to R26. -/
def Record.inRange (r : Record) : Bool :=
  (r.lockState == 0x00#8 || r.lockState == 0x01#8)
    && decide (r.wrongAttempts.toNat ≤ Config.maxWrongAttempts)
    && decide (r.lsr.toNat ≤ Config.lockoutSeconds)

/-- `Valid` (R273): magic, checksum, and the ranges when `LOAD_RANGE_CHECK` asks for them. -/
def Record.valid (c : Config) (r : Record) : Bool :=
  r.magic == c.magic && r.checksum == r.fold && (!c.loadRangeCheck || r.inRange)

/-- `lockState` read as a decision (10_state.md R24): only 0x01 is Unlocked. -/
def Record.decision (r : Record) : ActCommand := if r.lockState = 0x01#8 then .unlock else .lock

/-! ## Buffers (10_state.md R30, R31) -/

/-- `tag.len`. -/
def Tag.len (t : Tag) : Nat := t.bytes.length

/-- `sim.len`. -/
def Sim.len (m : Sim) : Nat := m.line.length

/-! ## The link wire (30_encoding.md R101, R102; 41_transport.md R142, R143) -/

/-- The address byte of a write transfer: bit 7 is 0. -/
def writeAddressByte (a : Addr) : Byte := byteOfAddr a

/-- The address byte of a read transfer: bit 7 is 1. -/
def readAddressByte (a : Addr) : Byte := 0x80#8 ||| byteOfAddr a

/-- What the core sends in the data slot of a read (R102). PRESUMED, the spec's general-knowledge filler. -/
def readFiller : Byte := 0x00#8

/-- The bytes the core sends for an event of the link history. -/
def LinkEvent.wireOut : LinkEvent → List Byte
  | .w a d => [writeAddressByte a, d]
  | .r a _ => [readAddressByte a, readFiller]
  | _ => []

/-- The bits of a byte in the order they travel (20_memory.md R65). -/
def wireBits (o : BitOrder) (b : Byte) : List Bool :=
  let lsb := (List.range 8).map b.getLsbD
  match o with
  | .lsbFirst => lsb
  | .msbFirst => lsb.reverse

/-- The electrical level of a line (R35): `true` is high. -/
def lineHigh (activeLow : Bool) : Line → Bool
  | .asserted => !activeLow
  | .deasserted => activeLow

/-! ## The simulated input line (43_simulated_frontend.md R241, R243) -/

/-- `isTerm`: carriage return or line feed. -/
def isTerm (c : Byte) : Bool := c == 0x0D#8 || c == 0x0A#8

/-- `hexval`: the value of a hexadecimal digit of either case; every other byte is no digit. -/
def hexval (c : Byte) : Option (BitVec 4) :=
  if 0x30#8 ≤ c ∧ c ≤ 0x39#8 then some ((c - 0x30#8).setWidth 4)
  else if 0x41#8 ≤ c ∧ c ≤ 0x46#8 then some ((c - 0x37#8).setWidth 4)
  else if 0x61#8 ≤ c ∧ c ≤ 0x66#8 then some ((c - 0x57#8).setWidth 4)
  else none

/-- `isHex`. -/
def isHex (c : Byte) : Bool := (hexval c).isSome

/-- Digits paired in order, the first of a pair the high one; an odd last digit is dropped. -/
def pairDigits : List (BitVec 4) → List Byte
  | hi :: lo :: ds => ((hi.setWidth 8 <<< 4) ||| lo.setWidth 8) :: pairDigits ds
  | _ => []

/-- `DecodeLine` (R243): separators are skipped, digits pair across them. -/
def decodeLine (l : List Byte) : List Byte := pairDigits (l.filterMap hexval)

end Sys2Proof.Machine
end

