-- ==== Sys2Proof/Machine/Prog.lean ====
section
/-! DEFINITION. Pseudocode as data. An operation is a `Prog`: atomic steps on the state one after the other, each choosing
the next by what it found, up to a `return` or a `raise` (00_scope.md R16, 10_state.md R38). A program is run to its end,
or resumed from a position; that position is plain data, so that anything else can happen between two steps
(20_memory.md R74). -/

namespace Sys2Proof.Machine

/-- A piece of pseudocode that ends with a value of type `α`, or raises a model fault. -/
inductive Prog (α : Type) where
  /-- `return a`. -/
  | ret (a : α)
  /-- `raise Fault(f)` (60_exceptions.md R365). -/
  | raise (f : Fault)
  /-- One atomic step, and what follows each answer it can give. -/
  | step (act : State → Answer × State) (next : Answer → Prog α)

/-! ## Building programs -/

/-- One piece of pseudocode after another, the second given the value of the first. -/
def Prog.bind {α β : Type} : Prog α → (α → Prog β) → Prog β
  | .ret a, k => k a
  | .raise f, _ => .raise f
  | .step act next, k => .step act (fun a => (next a).bind k)

/-- Pseudocode after a piece that has no value. -/
def Prog.andThen {β : Type} (p : Prog Unit) (q : Prog β) : Prog β := p.bind (fun _ => q)

/-- A step that only changes the state. -/
def Prog.tell (f : State → State) : Prog Unit := .step (fun s => (.unit, f s)) (fun _ => .ret ())

/-- What a test found. -/
def Answer.toBit : Answer → Bool
  | .bit b => b
  | _ => false

/-- The byte a step read. -/
def Answer.toByte : Answer → Byte
  | .byte v => v
  | _ => 0#8

/-- The bytes a step read. -/
def Answer.toBytes : Answer → List Byte
  | .bytes bs => bs
  | _ => []

/-- The number a step found. -/
def Answer.toCount : Answer → Nat
  | .count n => n
  | _ => 0

/-- The record a step found, if it holds one. -/
def Answer.toRecord : Answer → Option Record
  | .record r => r
  | _ => none

/-- The outcome of a transceive that was drawn. -/
def Answer.toXcv : Answer → XcvResult
  | .xcv r => r
  | _ => .fail .timeout

/-- The outcome of a CRC computation that was drawn. -/
def Answer.toCrc : Answer → CrcResult
  | .crc r => r
  | _ => .timeout

/-- A step that finds something out, with the way its answer is written down and read back. -/
def Prog.ask {α : Type} (put : α → Answer) (get : Answer → α) (f : State → α × State) : Prog α :=
  .step (fun s => (put (f s).1, (f s).2)) (fun a => .ret (get a))

/-- A step that tests. -/
def Prog.askBit (f : State → Bool × State) : Prog Bool := .ask .bit Answer.toBit f

/-- A step that reads a byte. -/
def Prog.askByte (f : State → Byte × State) : Prog Byte := .ask .byte Answer.toByte f

/-- A step that reads bytes. -/
def Prog.askBytes (f : State → List Byte × State) : Prog (List Byte) := .ask .bytes Answer.toBytes f

/-- A step that finds a number. -/
def Prog.askCount (f : State → Nat × State) : Prog Nat := .ask .count Answer.toCount f

/-- A step that reads the record. -/
def Prog.askRecord (f : State → Option Record × State) : Prog (Option Record) := .ask .record Answer.toRecord f

/-- A step that draws the outcome of a transceive. -/
def Prog.askXcv (f : State → XcvResult × State) : Prog XcvResult := .ask .xcv Answer.toXcv f

/-- A step that draws the outcome of a CRC computation. -/
def Prog.askCrc (f : State → CrcResult × State) : Prog CrcResult := .ask .crc Answer.toCrc f

/-! ## Running programs -/

/-- All the steps of a program, up to its `return` or its `raise`. -/
def Prog.run {α : Type} : Prog α → State → Except Fault (α × State)
  | .ret a, s => .ok (a, s)
  | .raise f, _ => .error f
  | .step act next, s => (next (act s).1).run (act s).2

/-- What is left of a program after the steps that gave these answers. -/
def Prog.resume {α : Type} : List Answer → Prog α → Prog α
  | [], p => p
  | a :: as, .step _ next => Prog.resume as (next a)
  | _ :: _, p => p

/-! ## Outcomes of operations -/

/-- What the operation returns to its issuer (60_exceptions.md R360). -/
def State.returning (r : OpResult) (s : State) : State :=
  { s with result := some r }

/-- An operation that returned `r` in this state. -/
def done (r : OpResult) (s : State) : Host.Outcome State Fault Refusal :=
  .next (State.returning r s)

/-- A whole operation: it returns, or it raises a model fault (R360, R365). -/
def perform (p : Prog OpResult) (s : State) : Host.Outcome State Fault Refusal :=
  match p.run s with
  | .ok q => done q.1 q.2
  | .error f => .fault f

/-- No operation is in progress any more. -/
def State.idle (s : State) : State :=
  { s with seq := { s.seq with position := none } }

/-- The operation in progress, and the steps it has taken. -/
def State.atPosition (p : Position) (s : State) : State :=
  { s with seq := { s.seq with position := some p } }

/-- One step of what is left of the operation at this position: an atomic step, after which the position is one step
further (10_state.md R38), or the `return`, which gives control back to the issuer, or the `raise`. -/
def takeStep (p : Position) (s : State) : Prog OpResult → Host.Outcome State Fault Refusal
  | .ret r => done r s.idle
  | .raise f => .fault f
  | .step act _ => .next (State.atPosition { p with answers := p.answers ++ [(act s).1] } (act s).2)

end Sys2Proof.Machine
end

