-- ==== Sys2Proof/Machine/Ops.lean ====
section
/-! DEFINITION. The named operations. First the atomic steps, as functions of the state: events and lines, draws, storage,
the record, the latch with its interrupt (taking the edge, R300, R373, and its implicit return, R374), arrivals and
power-up. Then the shared pseudocode over them: transfers, waits, the record's load and save. Each follows the pseudocode
of the rule it cites. -/

namespace Sys2Proof.Machine

/-! ## Small updates -/

/-- Records an event in `link.hist` (41_transport.md R140). -/
def State.emit (e : LinkEvent) (s : State) : State :=
  { s with link := { s.link with hist := s.link.hist ++ [e] } }

/-- Drives chip-select and records the change (10_state.md R35). -/
def State.driveCs (l : Line) (s : State) : State :=
  State.emit (.cs l) { s with link := { s.link with cs := l } }

/-- Drives the reader's reset line and records the change (R35). -/
def State.driveRst (l : Line) (s : State) : State :=
  State.emit (.rst l) { s with link := { s.link with rst := l } }

/-- `eng.lastResult <- c` (R37). -/
def State.setLast (c : ResultCode) (s : State) : State :=
  { s with eng := { lastResult := c } }

/-- `Emit(ACT, c)` (R34). -/
def State.command (c : ActCommand) (s : State) : State :=
  { s with act := { hist := s.act.hist ++ [c] } }

/-- A step that reads the record (00_scope.md R13). -/
def State.readRecord (s : State) : Option Record × State := (s.held, s)

/-- `rec <- r`: all five fields (44_state_record.md R274). -/
def State.loadCopy (r : Record) (s : State) : State :=
  { s with record := r, loaded := true }

/-- A write of fields of `rec`. -/
def State.editRecord (f : Record → Record) (s : State) : State :=
  { s with record := f s.record }

/-- `seq.phase <- p` (10_state.md R38). -/
def State.setPhase (p : Phase) (s : State) : State :=
  { s with seq := { s.seq with phase := p } }

/-- `seq.booted <- 1` (R29). -/
def State.setBooted (s : State) : State :=
  { s with seq := { s.seq with booted := true } }

/-- `irq.attached <- 1` (R36). -/
def State.attach (s : State) : State :=
  { s with irq := { s.irq with attached := true } }

/-- `tag.bytes` and `tag.len`: the identifier collected (R30). -/
def State.fillTag (bs : List Byte) (s : State) : State :=
  { s with tag := { s.tag with bytes := bs } }

/-- `tag.valid <- b` (R30). -/
def State.setTagValid (b : Bool) (s : State) : State :=
  { s with tag := { s.tag with valid := b } }

/-- `sim.line` and `sim.len` (R31). -/
def State.setLine (l : List Byte) (s : State) : State :=
  { s with sim := { line := l } }

/-- `in.ticks <- in.ticks - 1` (R42). -/
def State.takeSecond (s : State) : State :=
  { s with inp := { s.inp with ticks := s.inp.ticks - 1 } }

/-- Takes the next input character off its queue, if one waits (43_simulated_frontend.md R246). -/
def State.takeChar (s : State) : Option Byte × State :=
  match s.inp.chars with
  | [] => (none, s)
  | c :: cs => (some c, { s with inp := { s.inp with chars := cs } })

/-! ## Draws (00_scope.md R15) -/

/-- A byte the reader sends: the next of the script, or a free value. -/
def Draws.byte (d : Draws) : Byte × Draws :=
  match d.reads with
  | v :: vs => (v, { d with reads := vs })
  | [] => (Config.freeByte d.count, { d with count := d.count + 1 })

/-- How many polls beyond the second a wait makes at most. -/
def Draws.polls (d : Draws) : Nat × Draws :=
  match d.waits with
  | n :: ns => (n, { d with waits := ns })
  | [] => (Config.freePolls d.count, { d with count := d.count + 1 })

/-- The outcome of a level-A transceive: the next of the script, or a free value. -/
def Draws.xcv (d : Draws) : XcvResult × Draws :=
  match d.xcvs with
  | r :: rs => (r, { d with xcvs := rs })
  | [] => (Config.freeXcv d.count, { d with count := d.count + 1 })

/-- The outcome of a level-A CRC. -/
def Draws.crc (d : Draws) : CrcResult × Draws :=
  match d.crcs with
  | r :: rs => (r, { d with crcs := rs })
  | [] => (Config.freeCrc d.count, { d with count := d.count + 1 })

/-! ## Draws as steps -/

/-- The data slot of a read transfer: the reader's byte, recorded (41_transport.md R143); it is a draw under no law
(20_memory.md R64). -/
def State.receive (a : Addr) (s : State) : Byte × State :=
  (s.draws.byte.1, State.emit (.r a s.draws.byte.1) { s with draws := s.draws.byte.2 })

/-- The draw that bounds the polls of a timed wait (00_scope.md R15). -/
def State.drawPolls (s : State) : Nat × State :=
  (s.draws.polls.1, { s with draws := s.draws.polls.2 })

/-! ## Durable storage (20_memory.md R61, R66) -/

/-- The byte at an offset: what was written last, or the free value of a byte never written. -/
def Memory.read (m : Memory) (off : Nat) : Byte :=
  (m.lookup off).getD (Config.powerUpByte off)

/-- Writes one byte, keeping the offsets strictly rising. -/
def Memory.write (off : Nat) (b : Byte) : Memory → Memory
  | [] => [(off, b)]
  | (o, x) :: m =>
    if off < o then (off, b) :: (o, x) :: m
    else if off = o then (off, b) :: m
    else (o, x) :: Memory.write off b m

/-- `get(off, n)`. -/
def Memory.readBytes (m : Memory) (off : Nat) : Nat → List Byte
  | 0 => []
  | n + 1 => Memory.read m off :: Memory.readBytes m (off + 1) n

/-- `put(off, bytes)`. -/
def Memory.writeBytes (off : Nat) : List Byte → Memory → Memory
  | [], m => m
  | b :: bs, m => Memory.writeBytes (off + 1) bs (Memory.write off b m)

/-- The canonical form: offsets strictly rising. -/
def Memory.wf : Memory → Bool
  | [] => true
  | [_] => true
  | (o, _) :: (o', x) :: m => decide (o < o') && Memory.wf ((o', x) :: m)

/-- Every listed byte exists: its offset is below `STORAGE_SIZE`. -/
def Memory.within (size : Nat) (m : Memory) : Bool := m.all (fun c => decide (c.1 < size))

/-- A sequence of completed writes, in order. -/
def Memory.replay (m : Memory) : List StorageWrite → Memory
  | [] => m
  | w :: ws => Memory.replay (Memory.writeBytes w.1 w.2 m) ws

/-- The record's bytes in storage: `MemRead(RECORD_OFFSET, RECORD_SIZE)`. -/
def State.recordBytes (s : State) : List Byte :=
  Memory.readBytes s.durable Config.recordOffset Config.recordSize

/-- `MemRead` of the record: one atomic snapshot (R66). -/
def State.readStored (s : State) : List Byte × State := (s.recordBytes, s)

/-- `MemWrite(off, n, bytes)` (R66): one atomic step and one entry of the write history. -/
def State.memWrite (off : Nat) (bs : List Byte) (s : State) : State :=
  { s with durable := Memory.writeBytes off bs s.durable, writes := s.writes ++ [(off, bs)] }

/-- `MemWrite(RECORD_OFFSET, RECORD_SIZE, bytes(rec))` (44_state_record.md R276). -/
def State.storeCopy (s : State) : State := State.memWrite Config.recordOffset s.record.bytes s

/-! ## The latch and its interrupt (45_power_fail_latch.md R300, R301; 60_exceptions.md R371 to R374) -/

/-- `EDGE`: taking the interrupt is one atomic step that sets the latch; nothing is saved, no mode changes, and its return
is implicit. An edge is lost before it is attached, and held pending while interrupts are disabled (R371). -/
def takeEdge (s : State) : State :=
  if s.irq.attached then
    if s.irq.enabled then { s with pfl := { latch := true } }
    else { s with irq := { s.irq with pending := true } }
  else s

/-- Re-enabling interrupts delivers an edge that was held pending (R371). -/
def enableIrq (s : State) : State :=
  if s.irq.pending then
    { s with irq := { s.irq with enabled := true, pending := false }, pfl := { latch := true } }
  else { s with irq := { s.irq with enabled := true } }

/-- `LTAKE`: read and clear with interruption disabled, one atomic step (R301). -/
def takeLatch (s : State) : Bool × State :=
  let s := { s with irq := { s.irq with enabled := false } }
  let v := s.pfl.latch
  (v, enableIrq { s with pfl := { latch := false } })

/-! ## Arrivals -/

/-- What an arrival does, in one atomic step: the edge (R300), one more elapsed second, one more input character
(10_state.md R42). -/
def arrive (a : Arrival) (s : State) : State :=
  match a with
  | .edge => takeEdge s
  | .second => { s with inp := { s.inp with ticks := s.inp.ticks + 1 } }
  | .char c => { s with inp := { s.inp with chars := s.inp.chars ++ [c] } }

/-- The seconds that can still arrive on the schedule. -/
def Move.seconds : List Move → Nat
  | [] => 0
  | .arrive .second :: ms => Move.seconds ms + 1
  | _ :: ms => Move.seconds ms

/-- How many seconds a `while in.ticks > 0` can find (46_lockout_policy.md R336): those that have elapsed, and those that
can still elapse. -/
def State.secondsAhead (s : State) : Nat × State := (s.inp.ticks + Move.seconds s.moves, s)

/-! ## Power (70_reset_and_hazards.md R400; 60_exceptions.md R382) -/

/-- Power-up after a power loss: volatile state as at reset, storage as the last completed write left it, the environment
as it chooses. The draw counter goes on, so that later free values are fresh. -/
def State.powerUp (chars : List Byte) (s : State) : State :=
  { State.reset with
    cfg := s.cfg
    link := { cs := .deasserted, rst := Config.freeRstLine (s.draws.count + 1), hist := [] }
    inp := { chars := chars, ticks := 0 }
    durable := s.durable
    moves := s.moves
    draws := { s.draws with count := s.draws.count + 1 } }

/-! ## The link (41_transport.md R141 to R151) -/

/-- `with_link` (R141): chip-select is asserted and recorded, the body makes one transfer, chip-select is deasserted and
recorded. -/
def claimLink {α : Type} (body : Prog α) : Prog α :=
  (Prog.tell (State.driveCs .asserted)).andThen (body.bind fun v =>
    (Prog.tell (State.driveCs .deasserted)).andThen (.ret v))

/-- `LinkWrite(a, d)` (R142), the transfer recorded while the link is claimed (R151). -/
def linkWrite (a : Addr) (d : Byte) : Prog Unit :=
  claimLink (.tell (State.emit (.w a d)))

/-- `LinkRead(a)` (R143). -/
def linkRead (a : Addr) : Prog Byte :=
  claimLink (.askByte (State.receive a))

/-- Set bits, writing only if one of them is clear (R146). -/
def setBits (a : Addr) (m : Byte) : Prog Unit :=
  (linkRead a).bind fun v => if allSet v m then .ret () else linkWrite a (v ||| m)

/-- Clear bits, always writing (R147). -/
def clearBits (a : Addr) (m : Byte) : Prog Unit :=
  (linkRead a).bind fun v => linkWrite a (v &&& ~~~m)

/-- The polls of a timed wait, the flag tested before the bound at each; `Expired` is true at the last one (R148). -/
def pollFlag (a : Addr) (m : Byte) : Nat → Prog (Option Byte)
  | 0 => (linkRead a).bind fun v => .ret (if anySet v m then some v else none)
  | n + 1 => (linkRead a).bind fun v => if anySet v m then .ret (some v) else pollFlag a m n

/-- The loop of `XWAIT` (R148): `some v` is `Ok(v)`, `none` is `Fail(TIMEOUT)`. `Expired` is false at the first poll and
true from a poll the environment chooses (R15), so at most `n + 2` polls are made with `n` drawn. -/
def waitFlag (a : Addr) (m : Byte) : Prog (Option Byte) :=
  (Prog.askCount State.drawPolls).bind fun n => (pollFlag a m (n + 1)).bind fun w =>
    (Prog.tell (State.setLast (if w.isSome then .ok else .timeout))).andThen (.ret w)

/-- `Wait(t)` with its event (R149): one step (70_reset_and_hazards.md R412). -/
def settleDelay (t : Millis) : Prog Unit := .tell (State.emit (.delay t))

/-- The reset pulse (R150). -/
def resetPulse (t : Millis) : Prog Unit :=
  (Prog.tell (State.driveRst .asserted)).andThen ((settleDelay t).andThen (.tell (State.driveRst .deasserted)))

/-! ## The record (44_state_record.md R274, R276) -/

/-- `SLOAD`: the bytes it returns, with the record loaded, healed in storage first if it is corrupt. -/
def loadRecord (c : Config) : Prog (List Byte) :=
  (Prog.askBytes State.readStored).bind fun b =>
    if (Record.ofBytes b).valid c then (Prog.tell (State.loadCopy (Record.ofBytes b))).andThen (.ret b)
    else
      (Prog.tell (State.memWrite Config.recordOffset (defaultRecord c.magic).bytes)).andThen
        ((Prog.tell (State.loadCopy (defaultRecord c.magic))).andThen (.ret (defaultRecord c.magic).bytes))

/-- The record, which some rule must have written: `F_UNWRITTEN` otherwise (00_scope.md R13; 60_exceptions.md R366). -/
def heldRecord : Prog Record :=
  (Prog.askRecord State.readRecord).bind fun
    | none => .raise .unwritten
    | some r => .ret r

/-- `SSAVE` (R276): the magic forced, the checksum recomputed, one write. It raises `F_UNWRITTEN` before its first write
if `rec` holds no value (60_exceptions.md R366). -/
def persist (c : Config) : Prog Unit :=
  heldRecord.bind fun _ =>
    (Prog.tell (State.editRecord (fun r => { r with magic := c.magic }))).andThen
      ((Prog.tell (State.editRecord fun r =>
          { r with checksum := fold4 c.magic r.lockState r.wrongAttempts r.lsr })).andThen
        (.tell State.storeCopy))

end Sys2Proof.Machine
end

