-- ==== Sys2Proof/Machine/Engine.lean ====
section
/-! DEFINITION. The anticollision engine, the Live backend (42_anticollision_engine.md R180 to R194): initialisation, the
transceive at level A and level B, REQA, anticollision Cascade Level 1 and the auxiliary CRC. The level-B register sequences
are parameters (R187), which `runSequence` carries out. -/

namespace Sys2Proof.Machine

/-! ## Initialisation -/

/-- The body of `PANTON` (R182). -/
def antennaOn (c : Config) : Prog Unit := setBits (c.regs.addr c.antennaReg) c.antennaMask

/-- Writes a table of named registers in its order. -/
def writeTable (m : RegMap) : List (ReaderReg × Byte) → Prog Unit
  | [] => .ret ()
  | p :: ps => (linkWrite (m.addr p.1) p.2).andThen (writeTable m ps)

/-- The body of `PINIT` (R180). -/
def initReader (c : Config) : Prog Unit :=
  (resetPulse c.rstHold).andThen
    ((linkWrite c.regs.command c.cmds.softReset).andThen
      ((settleDelay c.softResetSettle).andThen
        ((writeTable c.regs c.initTable).andThen (antennaOn c))))

/-! ## Level-B sequences (R187, R193) -/

/-- The operands a sequence works on: the bytes to load, the valid bits of the last, and the receive capacity. -/
structure Exchange where
  tx : List Byte
  lb : BitVec 3
  cap : Byte
deriving DecidableEq, Repr

/-- What a sequence has gathered so far: the number of bytes counted, the bytes received, the valid bits of the last. -/
structure Gathered where
  k : Nat
  rx : List Byte
  lastBits : BitVec 3
deriving DecidableEq, Repr

/-- Nothing gathered yet. A configured sequence that never reads the valid bits leaves them the free value
`Config.freeLastBits`: R187's own sequence reads them, and what another reader's leaves is open. DESIGN CHOICE
(notes/assumptions/32.md). -/
def Gathered.start : Gathered := { k := 0, rx := [], lastBits := Config.freeLastBits }

/-- Writes bytes to one register, one transfer each. -/
def writeAll (a : Addr) : List Byte → Prog Unit
  | [] => .ret ()
  | b :: bs => (linkWrite a b).andThen (writeAll a bs)

/-- Reads one register `n` times. -/
def readAll (a : Addr) : Nat → Prog (List Byte)
  | 0 => .ret []
  | n + 1 => (linkRead a).bind fun v => (readAll a n).bind fun vs => .ret (v :: vs)

/-- One line of a sequence: what has been gathered after it, or the failure the sequence ends in. The bound of a wait acts
only through the draw of `Expired` (notes/assumptions/25.md). -/
def runSeqStep (c : Config) (x : Exchange) (g : Gathered) : SeqStep → Prog (Except XcvFailure Gathered)
  | .write r d => (linkWrite (c.regs.addr r) (c.seqByte d)).andThen (.ret (.ok g))
  | .load r => (writeAll (c.regs.addr r) x.tx).andThen (.ret (.ok g))
  | .frame r shift => (linkWrite (c.regs.addr r) (x.lb.setWidth 8 <<< shift)).andThen (.ret (.ok g))
  | .setBits r m => (setBits (c.regs.addr r) (c.seqByte m)).andThen (.ret (.ok g))
  | .clearBits r m => (clearBits (c.regs.addr r) (c.seqByte m)).andThen (.ret (.ok g))
  | .wait r m => (waitFlag (c.regs.addr r) (c.seqByte m)).bind fun w =>
    .ret (if w.isSome then .ok g else .error .timeout)
  | .check r m => (linkRead (c.regs.addr r)).bind fun e =>
    .ret (if anySet e (c.seqByte m) then .error .pcdError else .ok g)
  | .count r m => (linkRead (c.regs.addr r)).bind fun v =>
    let k := (v &&& c.seqByte m).toNat
    .ret (if x.cap.toNat < k then .error .noRoom else .ok { g with k := k })
  | .collect r => (readAll (c.regs.addr r) g.k).bind fun vs => .ret (.ok { g with rx := g.rx ++ vs })
  | .readByte r => (linkRead (c.regs.addr r)).bind fun v => .ret (.ok { g with rx := g.rx ++ [v] })
  | .lastBits r shift => (linkRead (c.regs.addr r)).bind fun v => .ret (.ok { g with lastBits := (v >>> shift).setWidth 3 })

/-- A whole sequence: its lines in order, up to the first failure. -/
def runSequence (c : Config) (x : Exchange) : List SeqStep → Gathered → Prog XcvResult
  | [], g => .ret (.ok g.rx g.lastBits)
  | st :: sts, g => (runSeqStep c x g st).bind fun
    | .error why => .ret (.fail why)
    | .ok g => runSequence c x sts g

/-! ## Transceive -/

/-- An `Ok` outcome never holds more than `cap` bytes (R185). -/
def capResult (cap : Byte) : XcvResult → XcvResult
  | .ok rx lastBits => .ok (rx.take cap.toNat) lastBits
  | .fail why => .fail why

/-- The draw of `XcvA` (R186), recorded as one event (R184). -/
def State.drawXcv (tx : List Byte) (lb : BitVec 3) (cap t : Byte) (s : State) : XcvResult × State :=
  let r := capResult cap s.draws.xcv.1
  (r, State.emit (.xcv tx lb cap t r) { s with draws := s.draws.xcv.2 })

/-- `XcvB` (R187): the configured sequence. -/
def xcvB (c : Config) (tx : List Byte) (lb : BitVec 3) (cap : Byte) : Prog XcvResult :=
  (runSequence c { tx := tx, lb := lb, cap := cap } c.xcvSteps .start).bind fun r => .ret (capResult cap r)

/-- The body of `PXCV` (R184), at the level the configuration names. -/
def transceive (c : Config) (tx : List Byte) (lb : BitVec 3) (cap t : Byte) : Prog XcvResult :=
  (match c.level with
    | .a => Prog.askXcv (State.drawXcv tx lb cap t)
    | .b => xcvB c tx lb cap).bind fun r =>
  (Prog.tell (State.setLast (codeOfXcv r))).andThen (.ret r)

/-! ## Tag detection -/

/-- The exchange that carries the REQA frame (R104, R188). -/
def exchangeReqa (c : Config) : Prog XcvResult := transceive c [0x26#8] 7#3 2#8 Config.reqaBound

/-- The checks of an ATQA (R188): the length, then the valid bits. -/
def checkAtqa : XcvResult → Except ResultCode (List Byte)
  | .fail why => .error (codeOfFailure why)
  | .ok rx lastBits =>
    if rx.length ≠ 2 then .error .badLength
    else if lastBits ≠ 0#3 then .error .badLastBits
    else .ok rx

/-- The exchange that carries the anticollision frame (R106, R190). -/
def exchangeAnticoll (c : Config) : Prog XcvResult := transceive c [0x93#8, 0x20#8] 0#3 5#8 Config.anticollBound

/-- The checks of an anticollision answer (R190): the length, then the check byte; `rxLastBits` is not checked. -/
def checkUid : XcvResult → Except ResultCode (List Byte)
  | .fail why => .error (codeOfFailure why)
  | .ok rx _ =>
    if rx.length ≠ 5 then .error .badLength
    else if bccOk rx then .ok (rx.take Config.uidLen)
    else .error .bccMismatch

/-- The code an engine step leaves in `eng.lastResult` (R37). -/
def codeOfCheck : Except ResultCode (List Byte) → ResultCode
  | .error c => c
  | .ok _ => .ok

/-- An answer checked, and its code recorded (R188, R190). -/
def checked (p : Prog XcvResult) (check : XcvResult → Except ResultCode (List Byte)) :
    Prog (Except ResultCode (List Byte)) :=
  p.bind fun r => (Prog.tell (State.setLast (codeOfCheck (check r)))).andThen (.ret (check r))

/-- The body of `PREQA` (R188). -/
def requestA (c : Config) : Prog (Except ResultCode (List Byte)) := checked (exchangeReqa c) checkAtqa

/-- The body of `PANTICOLL` (R190). -/
def anticollide (c : Config) : Prog (Except ResultCode (List Byte)) := checked (exchangeAnticoll c) checkUid

/-! ## Auxiliary CRC -/

/-- The draw of the level-A CRC (R192), recorded as one event. -/
def State.drawCrc (data : List Byte) (s : State) : CrcResult × State :=
  (s.draws.crc.1, State.emit (.crc data s.draws.crc.1) { s with draws := s.draws.crc.2 })

/-- The outcome of `CrcB`: the two bytes its sequence read, the low one first, or `Fail(CRC_TIMEOUT)` (R193). What a
configured sequence that reads fewer bytes, or fails otherwise than by its wait, comes to is a DESIGN CHOICE
(notes/assumptions/32.md). -/
def crcOfSequence : XcvResult → CrcResult
  | .ok rx _ => .ok (rx.getD 0 (Config.freeCrcByte 0)) (rx.getD 1 (Config.freeCrcByte 1))
  | .fail _ => .timeout

/-- `CrcB` (R193): the configured sequence. It has no frame and no capacity of its own: a configured line that uses one
finds all eight bits and the largest capacity. DESIGN CHOICE (notes/assumptions/32.md). -/
def crcB (c : Config) (data : List Byte) : Prog CrcResult :=
  (runSequence c { tx := data, lb := 0#3, cap := 0xFF#8 } c.crcSteps .start).bind fun r => .ret (crcOfSequence r)

/-- The body of `PCRC` (R192). -/
def computeCrc (c : Config) (data : List Byte) : Prog CrcResult :=
  (match c.level with
    | .a => Prog.askCrc (State.drawCrc data)
    | .b => crcB c data).bind fun r =>
  (Prog.tell (State.setLast (codeOfCrc r))).andThen (.ret r)

/-! ## Results -/

/-- What `PXCV` returns. -/
def xcvReturn : XcvResult → OpResult
  | .ok rx lastBits => .received rx lastBits
  | .fail why => .fail (codeOfFailure why)

/-- What `PREQA` and `PANTICOLL` return. -/
def checkReturn : Except ResultCode (List Byte) → OpResult
  | .ok bs => .bytes bs
  | .error c => .fail c

/-- What `PCRC` returns: the low byte first (30_encoding.md R108). -/
def crcReturn : CrcResult → OpResult
  | .ok lo hi => .bytes [lo, hi]
  | .timeout => .fail .crcTimeout

/-! ## Pseudocode of the operations -/

/-- `PINIT` (R180). -/
def progPinit (c : Config) : Prog OpResult := (initReader c).andThen (.ret .unit)

/-- `PANTON` (R182). -/
def progPanton (c : Config) : Prog OpResult := (antennaOn c).andThen (.ret .unit)

/-- `PXCV n, lb, cap, t, tx` (R184). -/
def progPxcv (c : Config) (lb : BitVec 3) (cap t : Byte) (tx : List Byte) : Prog OpResult :=
  (transceive c tx lb cap t).bind fun r => .ret (xcvReturn r)

/-- `PREQA` (R188). -/
def progPreqa (c : Config) : Prog OpResult := (requestA c).bind fun r => .ret (checkReturn r)

/-- `PANTICOLL` (R190). -/
def progPanticoll (c : Config) : Prog OpResult := (anticollide c).bind fun r => .ret (checkReturn r)

/-- `PCRC n, data` (R192). -/
def progPcrc (c : Config) (data : List Byte) : Prog OpResult := (computeCrc c data).bind fun r => .ret (crcReturn r)

/-! ## Meanings -/

/-- `PINIT` (R180). -/
def execPinit (s : State) : Host.Outcome State Fault Refusal := perform (progPinit s.cfg) s

/-- `PANTON` (R182). -/
def execPanton (s : State) : Host.Outcome State Fault Refusal := perform (progPanton s.cfg) s

/-- `PXCV n, lb, cap, t, tx` (R184). -/
def execPxcv (lb : BitVec 3) (cap t : Byte) (tx : List Byte) (s : State) : Host.Outcome State Fault Refusal :=
  perform (progPxcv s.cfg lb cap t tx) s

/-- `PREQA` (R188). -/
def execPreqa (s : State) : Host.Outcome State Fault Refusal := perform (progPreqa s.cfg) s

/-- `PANTICOLL` (R190). -/
def execPanticoll (s : State) : Host.Outcome State Fault Refusal := perform (progPanticoll s.cfg) s

/-- `PCRC n, data` (R192). -/
def execPcrc (data : List Byte) (s : State) : Host.Outcome State Fault Refusal := perform (progPcrc s.cfg data) s

end Sys2Proof.Machine
end

