-- ==== Sys2Proof/Machine/Detector.lean ====
section
/-! DEFINITION. The detector contract both backends share (42_anticollision_engine.md R195 to R197) and the Simulated
backend (43_simulated_frontend.md R240 to R246). -/

namespace Sys2Proof.Machine

/-- The test of `tag.valid` (R196, R246). -/
def State.testTag (s : State) : Bool × State := (s.tag.valid, s)

/-- Buffers an identifier: its bytes and their number, then `tag.valid` (R196, R244). -/
def bufferTag (bs : List Byte) : Prog Unit :=
  (Prog.tell (State.fillTag bs)).andThen (.tell (State.setTagValid true))

/-! ## Live backend -/

/-- `TAGAVAIL` with `BACKEND = Live` (R196): at most one REQA and one anticollision exchange, none while an identifier is
buffered. -/
def tagAvailLive (c : Config) : Prog Bool :=
  (Prog.askBit State.testTag).bind fun buffered =>
    if buffered then .ret true
    else
      (requestA c).bind fun
        | .error _ => .ret false
        | .ok _ =>
          (anticollide c).bind fun
            | .error _ => .ret false
            | .ok uid => (bufferTag uid).andThen (.ret true)

/-! ## Simulated backend -/

/-- `Accumulate` (R242): the 65th character of a line empties the buffer and is dropped. -/
def State.accumulate (ch : Byte) (s : State) : State :=
  if s.sim.len < Config.simLineCap then State.setLine (s.sim.line ++ [ch]) s else State.setLine [] s

/-- `CompleteLine` (R244): the buffer is emptied either way, the first four decoded bytes are the identifier. -/
def completeLine : Prog Unit :=
  (Prog.askBytes fun s => (decodeLine s.sim.line, s)).bind fun bs =>
    (Prog.tell (State.setLine [])).andThen
      (if bs.length < Config.simMinPairs then .ret () else bufferTag (bs.take Config.uidLen))

/-- What was popped from `in.chars`, if anything waited there. -/
def popChar : Prog (List Byte) := .askBytes fun s => ((State.takeChar s).1.toList, (State.takeChar s).2)

/-- `TAGAVAIL` with `BACKEND = Sim` (R246): at most one character is taken. -/
def tagAvailSim : Prog Bool :=
  (Prog.askBit State.testTag).bind fun buffered =>
    if buffered then .ret true
    else
      popChar.bind fun
        | [] => .ret false
        | ch :: _ =>
          (if isTerm ch then completeLine else .tell (State.accumulate ch)).andThen (.askBit State.testTag)

/-! ## The contract -/

/-- `tagAvailable()` (R195) of the configured backend. -/
def tagAvailable (c : Config) : Prog Bool :=
  match c.backend with
  | .live => tagAvailLive c
  | .sim => tagAvailSim

/-- `readTag` (R197): copies at most `maxLen` bytes and consumes the identifier; with nothing buffered, or no room, it
changes nothing. -/
def readTag (maxLen : Nat) : Prog (List Byte) :=
  (Prog.askBit State.testTag).bind fun buffered =>
    if buffered = false ∨ maxLen = 0 then .ret []
    else
      (Prog.askBytes fun s => (s.tag.bytes.take maxLen, s)).bind fun out =>
        (Prog.tell (State.setTagValid false)).andThen (.ret out)

/-! ## Pseudocode of the operations -/

/-- `TAGAVAIL` (R196, R246). It never fails (60_exceptions.md R360). -/
def progTagavail (c : Config) : Prog OpResult := (tagAvailable c).bind fun b => .ret (.bit b)

/-- `READTAG maxLen` (R197). -/
def progReadtag (maxLen : Byte) : Prog OpResult := (readTag maxLen.toNat).bind fun out => .ret (.copied out.length out)

/-! ## Meanings -/

/-- `TAGAVAIL` (R196, R246). -/
def execTagavail (s : State) : Host.Outcome State Fault Refusal := perform (progTagavail s.cfg) s

/-- `READTAG maxLen` (R197). -/
def execReadtag (maxLen : Byte) (s : State) : Host.Outcome State Fault Refusal := perform (progReadtag maxLen) s

end Sys2Proof.Machine
end

