-- ==== Sys2Proof/Machine/Storage.lean ====
section
/-! DEFINITION. The persisted security-state record's operations (44_state_record.md R274, R276) and the power-fail
latch's (45_power_fail_latch.md R301). -/

namespace Sys2Proof.Machine

/-! ## Pseudocode -/

/-- `SLOAD` (R274). It never fails: a corrupt record is healed (60_exceptions.md R363). -/
def progSload (c : Config) : Prog OpResult := (loadRecord c).bind fun b => .ret (.bytes b)

/-- `SSAVE` (R276). -/
def progSsave (c : Config) : Prog OpResult := (persist c).andThen (.ret .unit)

/-- `LTAKE` (R301): one atomic step (20_memory.md R75). -/
def progLtake : Prog OpResult := (Prog.askBit takeLatch).bind fun v => .ret (.bit v)

/-! ## Meanings -/

/-- `SLOAD` (R274). -/
def execSload (s : State) : Host.Outcome State Fault Refusal := perform (progSload s.cfg) s

/-- `SSAVE` (R276). -/
def execSsave (s : State) : Host.Outcome State Fault Refusal := perform (progSsave s.cfg) s

/-- `LTAKE` (R301). -/
def execLtake (s : State) : Host.Outcome State Fault Refusal := perform progLtake s

end Sys2Proof.Machine
end

