-- ==== Sys2Proof/Machine/Policy.lean ====
section
/-! DEFINITION. The lockout policy state machine (46_lockout_policy.md R320 to R339): boot, evaluation, the countdown,
the power-fail check and one iteration of the control loop. -/

namespace Sys2Proof.Machine

/-- The test of `seq.booted` (10_state.md R29). -/
def State.testBooted (s : State) : Bool × State := (s.seq.booted, s)

/-- `if seq.booted = 0 then raise Fault(F_NOT_BOOTED)`, then the rest (60_exceptions.md R367). -/
def whenBooted {α : Type} (p : Prog α) : Prog α :=
  (Prog.askBit State.testBooted).bind fun booted => if booted then p else .raise .notBooted

/-! ## Boot -/

/-- `BootDrive` (R331). -/
def bootDrive (c : Config) : Prog Unit :=
  if c.bootDrive then heldRecord.bind fun r => .tell (State.command r.decision) else .ret ()

/-- The body of `BOOT` (R330), in the order the rule fixes: `F_BOOTED_TWICE` before it writes anything if it has completed
before. -/
def bootUp (c : Config) : Prog Unit :=
  (Prog.askBit State.testBooted).bind fun booted =>
    if booted then .raise .bootedTwice
    else
      (Prog.tell (State.setPhase .booting)).andThen
        ((loadRecord c).bind fun _ =>
          (Prog.tell State.attach).andThen
            ((bootDrive c).andThen
              ((match c.backend with
                | .live => initReader c
                | .sim => .ret ()).andThen
                ((Prog.tell State.setBooted).andThen (.tell (State.setPhase .running))))))

/-! ## Evaluation -/

/-- `rec.wrongAttempts <- v` (10_state.md R25). -/
def setAttempts (v : Byte) : Prog Unit := .tell (State.editRecord fun r => { r with wrongAttempts := v })

/-- `rec.lockState <- v` (R24). -/
def setLockState (v : Byte) : Prog Unit := .tell (State.editRecord fun r => { r with lockState := v })

/-- `rec.lsr <- v` (R26). -/
def setCountdown (v : Byte) : Prog Unit := .tell (State.editRecord fun r => { r with lsr := v })

/-- `Mismatch` (R333): the count is clamped, and reaching the limit starts a lockout. -/
def mismatch (c : Config) (r : Record) : Prog Verdict :=
  let wa1 := min (r.wrongAttempts.toNat + 1) Config.maxWrongAttempts
  if Config.maxWrongAttempts ≤ wa1 then
    (setCountdown (BitVec.ofNat 8 Config.lockoutSeconds)).andThen
      ((setAttempts 0x00#8).andThen
        ((setLockState 0x00#8).andThen
          ((Prog.tell (State.command .lock)).andThen
            ((persist c).andThen (.ret .lockoutStarted)))))
  else (setAttempts (BitVec.ofNat 8 wa1)).andThen ((persist c).andThen (.ret .mismatched))

/-- `EVAL` (R332): nothing at all while locked out. Its faults stand in the order of 60_exceptions.md R369. -/
def evaluate (c : Config) (id : List Byte) : Prog Verdict :=
  whenBooted (heldRecord.bind fun r =>
    if r.lsr ≠ 0x00#8 then .ret .skipped
    else if c.auth id then
      (setAttempts 0x00#8).andThen
        ((setLockState 0x01#8).andThen
          ((Prog.tell (State.command .unlock)).andThen
            ((persist c).andThen (.ret .matched))))
    else mismatch c r)

/-! ## Countdown -/

/-- `TICK` (R334): in Active nothing changes and nothing is persisted. -/
def tickSecond (c : Config) : Prog Unit :=
  whenBooted (heldRecord.bind fun r =>
    if r.lsr = 0x00#8 then .ret ()
    else
      (setCountdown (r.lsr - 1#8)).andThen
        ((if r.lsr - 1#8 = 0x00#8 then setAttempts 0x00#8 else .ret ()).andThen (persist c)))

/-! ## Power fail -/

/-- `PFCHECK` (R335): the latch is taken, and the record saved if it was set. -/
def checkPowerFail (c : Config) : Prog Bool :=
  whenBooted ((Prog.askBit takeLatch).bind fun v => (if v then persist c else .ret ()).andThen (.ret v))

/-! ## The control loop -/

/-- Step 2 of `LOOP` (R336): `while in.ticks > 0`, one `TICK` for each elapsed second, the test made each time. The number
bounds how often it can succeed; it is never reached before the test fails (notes/assumptions/31.md). -/
def drainTicks (c : Config) : Nat → Prog Unit
  | 0 => .ret ()
  | n + 1 => (Prog.askBit fun s => (decide (0 < s.inp.ticks), s)).bind fun more =>
    if more then (Prog.tell State.takeSecond).andThen ((tickSecond c).andThen (drainTicks c n)) else .ret ()

/-- Step 3a of `LOOP` (R336), Active: acquire and evaluate. -/
def acquire (c : Config) : Prog Unit :=
  (tagAvailable c).bind fun present =>
    if present then
      (readTag Config.readMaxLen).bind fun id =>
        if 0 < id.length then (evaluate c id).bind fun _ => .ret () else .ret ()
    else .ret ()

/-- Step 3b of `LOOP` (R336), LockedOut: the tag is read and discarded, or the detector is not called. -/
def discardTag (c : Config) : Prog Unit :=
  match c.lockoutTags with
  | .readAndDiscard => (tagAvailable c).bind fun present =>
    if present then (readTag Config.readMaxLen).bind fun _ => .ret () else .ret ()
  | .notRead => .ret ()

/-- Step 3 of `LOOP` (R336): the mode is tested after the ticks. -/
def pollTag (c : Config) : Prog Unit :=
  heldRecord.bind fun r => if r.lsr = 0x00#8 then acquire c else discardTag c

/-- The body of `LOOP` (R336): power fail first, then every elapsed second, then the tag. -/
def controlLoop (c : Config) : Prog Unit :=
  whenBooted ((checkPowerFail c).bind fun _ =>
    (Prog.askCount State.secondsAhead).bind fun n =>
      (drainTicks c n).andThen (pollTag c))

/-! ## Pseudocode of the operations -/

/-- `BOOT` (R330). -/
def progBoot (c : Config) : Prog OpResult := (bootUp c).andThen (.ret .unit)

/-- `EVAL n, id` (R332, R333). -/
def progEval (c : Config) (id : List Byte) : Prog OpResult := (evaluate c id).bind fun v => .ret (.verdict v)

/-- `TICK` (R334). -/
def progTick (c : Config) : Prog OpResult := (tickSecond c).andThen (.ret .unit)

/-- `PFCHECK` (R335). -/
def progPfcheck (c : Config) : Prog OpResult := (checkPowerFail c).bind fun v => .ret (.bit v)

/-- `LOOP` (R336). -/
def progLoop (c : Config) : Prog OpResult := (controlLoop c).andThen (.ret .unit)

/-! ## Meanings -/

/-- `BOOT` (R330). -/
def execBoot (s : State) : Host.Outcome State Fault Refusal := perform (progBoot s.cfg) s

/-- `EVAL n, id` (R332, R333). -/
def execEval (id : List Byte) (s : State) : Host.Outcome State Fault Refusal := perform (progEval s.cfg id) s

/-- `TICK` (R334). -/
def execTick (s : State) : Host.Outcome State Fault Refusal := perform (progTick s.cfg) s

/-- `PFCHECK` (R335). -/
def execPfcheck (s : State) : Host.Outcome State Fault Refusal := perform (progPfcheck s.cfg) s

/-- `LOOP` (R336). -/
def execLoop (s : State) : Host.Outcome State Fault Refusal := perform (progLoop s.cfg) s

end Sys2Proof.Machine
end

