-- ==== Sys2Proof/Machine/Transport.lean ====
section
/-! DEFINITION. The ProtocolTransport operations (41_transport.md R144 to R150): the pseudocode of each, and its meaning as a
whole. None can raise a fault (R152). -/

namespace Sys2Proof.Machine

/-! ## Pseudocode -/

/-- `XWR a, d` (R144). -/
def progXwr (a : Addr) (d : Byte) : Prog OpResult := (linkWrite a d).andThen (.ret .unit)

/-- `XRD a` (R145). -/
def progXrd (a : Addr) : Prog OpResult := (linkRead a).bind fun v => .ret (.byte v)

/-- `XSETB a, m` (R146). -/
def progXsetb (a : Addr) (m : Byte) : Prog OpResult := (setBits a m).andThen (.ret .unit)

/-- `XCLRB a, m` (R147). -/
def progXclrb (a : Addr) (m : Byte) : Prog OpResult := (clearBits a m).andThen (.ret .unit)

/-- What a timed wait returns: the last value read, or `Fail(TIMEOUT)` (R148). -/
def waitResult : Option Byte → OpResult
  | some v => .byte v
  | none => .fail .timeout

/-- `XWAIT a, m, t` (R148). The bound `t` acts only through the draw of `Expired(t)` (notes/assumptions/25.md). -/
def progXwait (a : Addr) (m : Byte) (_t : Byte) : Prog OpResult := (waitFlag a m).bind fun w => .ret (waitResult w)

/-- `XDELAY t16` (R149). -/
def progXdelay (t : Millis) : Prog OpResult := (settleDelay t).andThen (.ret .unit)

/-- `XRST t16` (R150). -/
def progXrst (t : Millis) : Prog OpResult := (resetPulse t).andThen (.ret .unit)

/-! ## Meanings -/

/-- `XWR a, d` (R144). -/
def execXwr (a : Addr) (d : Byte) (s : State) : Host.Outcome State Fault Refusal := perform (progXwr a d) s

/-- `XRD a` (R145). -/
def execXrd (a : Addr) (s : State) : Host.Outcome State Fault Refusal := perform (progXrd a) s

/-- `XSETB a, m` (R146). -/
def execXsetb (a : Addr) (m : Byte) (s : State) : Host.Outcome State Fault Refusal := perform (progXsetb a m) s

/-- `XCLRB a, m` (R147). -/
def execXclrb (a : Addr) (m : Byte) (s : State) : Host.Outcome State Fault Refusal := perform (progXclrb a m) s

/-- `XWAIT a, m, t` (R148). -/
def execXwait (a : Addr) (m : Byte) (t : Byte) (s : State) : Host.Outcome State Fault Refusal := perform (progXwait a m t) s

/-- `XDELAY t16` (R149). -/
def execXdelay (t : Millis) (s : State) : Host.Outcome State Fault Refusal := perform (progXdelay t) s

/-- `XRST t16` (R150). -/
def execXrst (t : Millis) (s : State) : Host.Outcome State Fault Refusal := perform (progXrst t) s

end Sys2Proof.Machine
end

