-- ==== Sys2Proof/Machine/Wire.lean ====
section
/-! DEFINITION. The rows of the opcode table outside the operation port: the two link transfers (41_transport.md R142,
R143), the two card frames (30_encoding.md R104, R106) and the four reader commands (R113). -/

namespace Sys2Proof.Machine

/-! ## Pseudocode -/

/-- `LINK_WRITE a, d` (R142). -/
def progLinkWrite (a : Addr) (d : Byte) : Prog OpResult := (linkWrite a d).andThen (.ret .unit)

/-- `LINK_READ a, v` (R143): the transfer as it stands on the wire, the reader sending `v` (notes/assumptions/9.md). -/
def progLinkRead (a : Addr) (v : Byte) : Prog OpResult :=
  (claimLink (.tell (State.emit (.r a v)))).andThen (.ret (.byte v))

/-- The REQA frame (R104): the exchange that carries it (notes/assumptions/10.md). -/
def progReqaFrame (c : Config) : Prog OpResult := (exchangeReqa c).bind fun r => .ret (xcvReturn r)

/-- The anticollision frame (R106): the exchange that carries it (notes/assumptions/10.md). -/
def progAnticollFrame (c : Config) : Prog OpResult := (exchangeAnticoll c).bind fun r => .ret (xcvReturn r)

/-- A reader command: the value written to `CommandReg` (R113, notes/assumptions/11.md). -/
def readerCommand (c : Config) (d : Byte) : Prog OpResult := (linkWrite c.regs.command d).andThen (.ret .unit)

/-- The reader command Idle (R113). -/
def progPcdIdle (c : Config) : Prog OpResult := readerCommand c c.cmds.idle

/-- The reader command CalcCRC (R113). -/
def progPcdCalcCrc (c : Config) : Prog OpResult := readerCommand c c.cmds.calcCrc

/-- The reader command Transceive (R113). -/
def progPcdTransceive (c : Config) : Prog OpResult := readerCommand c c.cmds.transceive

/-- The reader command SoftReset (R113). -/
def progPcdSoftReset (c : Config) : Prog OpResult := readerCommand c c.cmds.softReset

/-! ## Meanings -/

/-- `LINK_WRITE a, d` (R142). -/
def execLinkWrite (a : Addr) (d : Byte) (s : State) : Host.Outcome State Fault Refusal := perform (progLinkWrite a d) s

/-- `LINK_READ a, v` (R143). -/
def execLinkRead (a : Addr) (v : Byte) (s : State) : Host.Outcome State Fault Refusal := perform (progLinkRead a v) s

/-- The REQA frame (R104). -/
def execReqaFrame (s : State) : Host.Outcome State Fault Refusal := perform (progReqaFrame s.cfg) s

/-- The anticollision frame (R106). -/
def execAnticollFrame (s : State) : Host.Outcome State Fault Refusal := perform (progAnticollFrame s.cfg) s

/-- The reader command Idle (R113). -/
def execPcdIdle (s : State) : Host.Outcome State Fault Refusal := perform (progPcdIdle s.cfg) s

/-- The reader command CalcCRC (R113). -/
def execPcdCalcCrc (s : State) : Host.Outcome State Fault Refusal := perform (progPcdCalcCrc s.cfg) s

/-- The reader command Transceive (R113). -/
def execPcdTransceive (s : State) : Host.Outcome State Fault Refusal := perform (progPcdTransceive s.cfg) s

/-- The reader command SoftReset (R113). -/
def execPcdSoftReset (s : State) : Host.Outcome State Fault Refusal := perform (progPcdSoftReset s.cfg) s

end Sys2Proof.Machine
end

