-- ==== Sys2Proof/Machine/Dispatch.lean ====
section
/-! DEFINITION. One arm per operation: which meaning an instruction has. -/

namespace Sys2Proof.Machine

/-- The meaning of every instruction of the opcode table. -/
def exec (i : Instr) (s : State) : Host.Outcome State Fault Refusal :=
  match i with
  | .xwr a d => Sys2Proof.Machine.execXwr a d s
  | .xrd a => Sys2Proof.Machine.execXrd a s
  | .xsetb a m => Sys2Proof.Machine.execXsetb a m s
  | .xclrb a m => Sys2Proof.Machine.execXclrb a m s
  | .xwait a m t => Sys2Proof.Machine.execXwait a m t s
  | .xdelay t => Sys2Proof.Machine.execXdelay t s
  | .xrst t => Sys2Proof.Machine.execXrst t s
  | .pinit => Sys2Proof.Machine.execPinit s
  | .panton => Sys2Proof.Machine.execPanton s
  | .pxcv lb cap t tx => Sys2Proof.Machine.execPxcv lb cap t tx s
  | .preqa => Sys2Proof.Machine.execPreqa s
  | .panticoll => Sys2Proof.Machine.execPanticoll s
  | .pcrc data => Sys2Proof.Machine.execPcrc data s
  | .tagavail => Sys2Proof.Machine.execTagavail s
  | .readtag maxLen => Sys2Proof.Machine.execReadtag maxLen s
  | .sload => Sys2Proof.Machine.execSload s
  | .ssave => Sys2Proof.Machine.execSsave s
  | .ltake => Sys2Proof.Machine.execLtake s
  | .boot => Sys2Proof.Machine.execBoot s
  | .eval id => Sys2Proof.Machine.execEval id s
  | .tick => Sys2Proof.Machine.execTick s
  | .pfcheck => Sys2Proof.Machine.execPfcheck s
  | .loop => Sys2Proof.Machine.execLoop s
  | .linkWrite a d => Sys2Proof.Machine.execLinkWrite a d s
  | .linkRead a v => Sys2Proof.Machine.execLinkRead a v s
  | .reqa => Sys2Proof.Machine.execReqaFrame s
  | .anticollCl1 => Sys2Proof.Machine.execAnticollFrame s
  | .pcdIdle => Sys2Proof.Machine.execPcdIdle s
  | .pcdCalcCrc => Sys2Proof.Machine.execPcdCalcCrc s
  | .pcdTransceive => Sys2Proof.Machine.execPcdTransceive s
  | .pcdSoftReset => Sys2Proof.Machine.execPcdSoftReset s

end Sys2Proof.Machine
end

