-- ==== Sys2Proof/Machine/Fetch.lean ====
section
/-! DEFINITION. What one move does: the next operation from the port or from the sequencer's own programme, as a whole or one
pseudocode step at a time, what arrives, and the loss of power. -/

namespace Sys2Proof.Machine

/-- The pseudocode of every instruction: what its meaning in `exec` runs as a whole. -/
def program (c : Config) : Instr → Prog OpResult
  | .xwr a d => progXwr a d
  | .xrd a => progXrd a
  | .xsetb a m => progXsetb a m
  | .xclrb a m => progXclrb a m
  | .xwait a m t => progXwait a m t
  | .xdelay t => progXdelay t
  | .xrst t => progXrst t
  | .pinit => progPinit c
  | .panton => progPanton c
  | .pxcv lb cap t tx => progPxcv c lb cap t tx
  | .preqa => progPreqa c
  | .panticoll => progPanticoll c
  | .pcrc data => progPcrc c data
  | .tagavail => progTagavail c
  | .readtag maxLen => progReadtag maxLen
  | .sload => progSload c
  | .ssave => progSsave c
  | .ltake => progLtake
  | .boot => progBoot c
  | .eval id => progEval c id
  | .tick => progTick c
  | .pfcheck => progPfcheck c
  | .loop => progLoop c
  | .linkWrite a d => progLinkWrite a d
  | .linkRead a v => progLinkRead a v
  | .reqa => progReqaFrame c
  | .anticollCl1 => progAnticollFrame c
  | .pcdIdle => progPcdIdle c
  | .pcdCalcCrc => progPcdCalcCrc c
  | .pcdTransceive => progPcdTransceive c
  | .pcdSoftReset => progPcdSoftReset c

/-- The operation the sequencer issues when nothing waits on the port (70_reset_and_hazards.md R402): `BOOT` once, then
`LOOP` for ever. -/
def ownOperation (s : State) : Instr := if s.seq.booted then .loop else .boot

/-- The next operation: the one waiting on the port, decoded (30_encoding.md R125) and taken off it, or the sequencer's own;
a refused encoding has no effect (60_exceptions.md R368). -/
def fetch (s : State) : Except Reject (Instr × State) :=
  match s.port.bytes with
  | [] => .ok (ownOperation s, s)
  | b :: bs =>
    match decode s.cfg.fifoCap s.port.space (b :: bs) with
    | .error why => .error why
    | .ok p => .ok (p.1, { s with port := { s.port with bytes := p.2 } })

/-- What is left of the operation in progress at this position. -/
def remaining (c : Config) (p : Position) : Prog OpResult := Prog.resume p.answers (program c p.instr)

/-- The sequencer's move: the whole next operation, or all that is left of the one in progress. -/
def runSequencer (s : State) : Host.Outcome State Fault Refusal :=
  match s.seq.position with
  | some p => perform (remaining s.cfg p) s.idle
  | none =>
    match fetch s with
    | .error why => .fault (.refused why)
    | .ok p => exec p.1 p.2

/-- One step of the sequencer (10_state.md R38): issuing the next operation, or one pseudocode step of the one in
progress. -/
def advance (s : State) : Host.Outcome State Fault Refusal :=
  match s.seq.position with
  | some p => takeStep p s (remaining s.cfg p)
  | none =>
    match fetch s with
    | .error why => .fault (.refused why)
    | .ok p => .next (State.atPosition { instr := p.1, answers := [] } p.2)

/-- One move of the agent the schedule names. -/
def runMove (m : Move) (s : State) : Host.Outcome State Fault Refusal :=
  match m with
  | .sequencer => runSequencer s
  | .advance => advance s
  | .arrive a => .next (arrive a s)
  | .powerLoss chars => .next (State.powerUp chars s)

/-- Places an instruction's bytes on the port, in their encoding space, with no operation in progress. -/
def State.place (space : Space) (bs : List Byte) (s : State) : State :=
  { s with
    port := { space := space, bytes := bs }
    moves := []
    seq := { s.seq with position := none } }

end Sys2Proof.Machine
end

