-- ==== Sys2Proof/Machine/Step.lean ====
section
/-! DEFINITION. One step of the machine, and where a word of the opcode table is placed so that the next step runs it. -/

namespace Sys2Proof.Machine

/-- One step: the agent that the schedule names moves; with no schedule left it is the sequencer. -/
def step (s : State) : Host.Outcome State Fault Refusal :=
  match s.moves with
  | [] => runSequencer s
  | m :: ms => runMove m { s with moves := ms }

/-- The state whose next step runs the instruction with these bits: its bytes are placed on the port, in the encoding
space the word is read in, and the sequencer moves next. -/
def State.withFetchWord (s : State) (nbits w : Nat) : State :=
  State.place (tableSpace nbits w) (tableInstrBytes s.cfg.fifoCap nbits w) s

end Sys2Proof.Machine
end

