-- ==== Sys2Proof/Safety.lean ====
section
/-! DEFINITION. What claims are stated in: the link-history grammar of 41_transport.md R151, the invariants of 10_state.md
R45 between operations and inside them, the access matrix of R44 with its composite operations, and repeated operations. -/

namespace Sys2Proof.Machine

/-! ## The link history -/

/-- One transfer inside its own claim (R141). -/
def claimed (e : LinkEvent) : List LinkEvent := [.cs .asserted, e, .cs .deasserted]

/-- A claimed read transfer. -/
def readEvents (a : Addr) (v : Byte) : List LinkEvent := claimed (.r a v)

/-- A claimed write transfer. -/
def writeEvents (a : Addr) (d : Byte) : List LinkEvent := claimed (.w a d)

/-- The reset pulse (R150). -/
def pulseEvents (t : Millis) : List LinkEvent := [.rst .asserted, .delay t, .rst .deasserted]

/-- The link-history laws of R151 as a grammar: a history is a sequence of claimed transfers, reset pulses, settle delays
and level-A records. -/
def framed : List LinkEvent → Bool
  | [] => true
  | .cs .asserted :: .w _ _ :: .cs .deasserted :: h => framed h
  | .cs .asserted :: .r _ _ :: .cs .deasserted :: h => framed h
  | .rst .asserted :: .delay _ :: .rst .deasserted :: h => framed h
  | .delay _ :: h => framed h
  | .xcv _ _ _ _ _ :: h => framed h
  | .crc _ _ :: h => framed h
  | _ => false

/-- A write transfer. -/
def LinkEvent.isWrite : LinkEvent → Bool
  | .w _ _ => true
  | _ => false

/-- A read transfer. -/
def LinkEvent.isRead : LinkEvent → Bool
  | .r _ _ => true
  | _ => false

/-- The reader register a transfer is made at; other events are no transfers. -/
def LinkEvent.address : LinkEvent → Option Addr
  | .w a _ | .r a _ => some a
  | _ => none

/-- Read transfers at one address, one for each value returned. -/
def readsAt (a : Addr) (vs : List Byte) : List LinkEvent := vs.flatMap (readEvents a)

/-- Write transfers at one address, one for each value written. -/
def writesAt (a : Addr) (ds : List Byte) : List LinkEvent := ds.flatMap (writeEvents a)

/-- A read and, only if some bit of the mask was clear in the value `v` it returned, a write of all of them (R146). -/
def setBitsEvents (a : Addr) (m v : Byte) : List LinkEvent :=
  readEvents a v ++ (if v &&& m = m then [] else writeEvents a (v ||| m))

/-- The transfers of `PINIT` (42_anticollision_engine.md R180), the antenna register reading `v`. -/
def initEvents (c : Config) (v : Byte) : List LinkEvent :=
  pulseEvents c.rstHold ++ writeEvents c.regs.command c.cmds.softReset ++ [.delay c.softResetSettle]
    ++ c.initTable.flatMap (fun p => writeEvents (c.regs.addr p.1) p.2)
    ++ setBitsEvents (c.regs.addr c.antennaReg) c.antennaMask v

/-- The transfers of the standard `XcvB` before its wait (R187), `BitFramingReg` reading `b` before `StartSend` is set. -/
def sendEvents (c : Config) (tx : List Byte) (lb : BitVec 3) (b : Byte) : List LinkEvent :=
  writeEvents c.regs.command c.cmds.idle ++ writeEvents c.regs.comIrq 0x7F#8 ++ writeEvents c.regs.fifoLevel 0x80#8
    ++ writesAt c.regs.fifoData tx ++ writeEvents c.regs.bitFraming (lb.setWidth 8)
    ++ writeEvents c.regs.command c.cmds.transceive ++ setBitsEvents c.regs.bitFraming 0x80#8 b

/-- What the transfers after the wait of the standard `XcvB` are for each outcome, and which register values it takes (R187). `last` is
the last poll of `ComIrqReg`. -/
def xcvEnding (c : Config) (cap last : Byte) (tail : List LinkEvent) : XcvResult → Prop
  | .fail .timeout => last &&& c.completionMask = 0#8 ∧ tail = []
  | .fail .pcdError =>
    last &&& c.completionMask ≠ 0#8 ∧ ∃ e, e &&& c.errMask ≠ 0#8 ∧ tail = readEvents c.regs.error e
  | .fail .noRoom =>
    last &&& c.completionMask ≠ 0#8 ∧ ∃ (e k : Byte), e &&& c.errMask = 0#8 ∧ cap.toNat < (k.setWidth 7).toNat ∧
      tail = readEvents c.regs.error e ++ readEvents c.regs.fifoLevel k
  | .ok rx lastBits =>
    last &&& c.completionMask ≠ 0#8 ∧ ∃ (e k x : Byte), e &&& c.errMask = 0#8 ∧ rx.length = (k.setWidth 7).toNat ∧
      rx.length ≤ cap.toNat ∧ lastBits = x.setWidth 3 ∧
      tail = readEvents c.regs.error e ++ readEvents c.regs.fifoLevel k ++ readsAt c.regs.fifoData rx
        ++ readEvents c.regs.control x

/-- The transfers of the standard `CrcB` before its wait (R193). -/
def crcEvents (c : Config) (data : List Byte) : List LinkEvent :=
  writeEvents c.regs.command c.cmds.idle ++ writeEvents c.regs.divIrq 0x04#8 ++ writeEvents c.regs.fifoLevel 0x80#8
    ++ writesAt c.regs.fifoData data ++ writeEvents c.regs.command c.cmds.calcCrc

/-- `n` bytes drawn one after the other, and the draws that are left. -/
def Draws.takeBytes : Nat → Draws → List Byte × Draws
  | 0, d => ([], d)
  | n + 1, d => (d.byte.1 :: (Draws.takeBytes n d.byte.2).1, (Draws.takeBytes n d.byte.2).2)

/-! ## Flipped bits -/

/-- The list with one bit of one byte changed. -/
def flipBit (i k : Nat) (l : List Byte) : List Byte := l.set i (l.getD i 0#8 ^^^ (1#8 <<< k))

/-! ## The invariants of R45 -/

/-- The record copy is valid and equals the five durable bytes, once it is loaded. -/
def State.recordStored (s : State) : Prop :=
  ∀ r, s.held = some r → r.valid s.cfg = true ∧ s.recordBytes = r.bytes

/-- What holds at every moment, between any two steps of the sequencer. -/
structure State.Always (s : State) : Prop where
  /-- The storage keeps its canonical form. -/
  memory : Memory.wf s.durable = true
  /-- Every byte ever written exists (20_memory.md R61). -/
  memoryWithin : Memory.within s.cfg.storageSize s.durable = true
  /-- Once the record is loaded, the stored record is valid at every moment (44_state_record.md R276, 20_memory.md R66). -/
  stored : s.loaded = true → (Record.ofBytes s.recordBytes).valid s.cfg = true
  /-- `tag.valid = 1` implies `tag.len = 4`. -/
  tag : s.tag.valid = true → s.tag.len = 4
  /-- `tag.len <= TAGBUF_CAP` (R30). -/
  tagCap : s.tag.len ≤ Config.tagBufCap
  /-- `sim.len <= SIM_LINE_CAP`. -/
  simCap : s.sim.len ≤ Config.simLineCap
  /-- No terminator is stored in the line (R31). -/
  simLine : ∀ c ∈ s.sim.line, isTerm c = false
  /-- Between steps interrupts are enabled and no edge is held (R36, R371). -/
  irq : s.irq.enabled = true ∧ s.irq.pending = false
  /-- An edge before attachment is lost (R300). -/
  latch : s.pfl.latch = true → s.irq.attached = true

/-- What holds, beside that, between operations (R45 and the rules it rests on). -/
structure State.Settled (s : State) : Prop where
  /-- R45, first and last items: the copy is valid and equals the stored record. -/
  record : s.recordStored
  /-- A booted machine has loaded its record, has attached the edge, and is running (R29, R36, R38). -/
  booted : s.seq.booted = true → s.loaded = true ∧ s.irq.attached = true ∧ s.seq.phase = .running
  /-- A machine that has not booted is at power-on, and nothing has attached the edge (R38, R43). -/
  notBooted : s.seq.booted = false → s.seq.phase = .powerOn ∧ s.irq.attached = false
  /-- `link.cs = deasserted`. -/
  cs : s.link.cs = .deasserted
  /-- The link history keeps its laws (R151). -/
  hist : framed s.link.hist = true

/-- `u` is `s` with nothing changed but what arrivals change (the latch, a held edge, the inputs), the schedule, and the
sequencer's note of its position. -/
structure Disturbed (s u : State) : Prop where
  same : u = { s with
    pfl := u.pfl
    irq := { s.irq with pending := u.irq.pending }
    inp := u.inp
    moves := u.moves
    seq := { s.seq with position := u.seq.position } }

/-- Run from `s` step by step, whatever arrives before each step, the program keeps `J` at every step, and if it returns it
returns with `Q`. -/
def Prog.Ends {α : Type} (J : State → Prop) (Q : α → State → Prop) : Prog α → State → Prop
  | .ret a, s => Q a s
  | .raise _, _ => True
  | .step act next, s => ∀ u, Disturbed s u → J u → J (act u).2 ∧ (next (act u).1).Ends J Q (act u).2

/-- The invariant of the machine: what holds at every moment; between operations, R45; inside an operation, that the rest of
it leads back there, whatever arrives on the way. -/
structure State.Inv (s : State) : Prop where
  always : s.Always
  /-- Between operations. -/
  settled : s.seq.position = none → s.Settled
  /-- Inside an operation. -/
  underway : ∀ p, s.seq.position = some p → (remaining s.cfg p).Ends State.Always (fun _ => State.Settled) s
  /-- `seq.phase = Booting` only inside `BOOT` (R38). -/
  booting : s.seq.phase = .booting → ∃ p, s.seq.position = some p ∧ p.instr = .boot

/-- The next step of the operation in progress is `LTAKE`'s: the first of `LTAKE`, the second of `PFCHECK`, the third of
`LOOP` (after the tests of `seq.booted`). -/
def Position.takesLatch (p : Position) : Bool :=
  match p.instr with
  | .ltake => p.answers.length == 0
  | .pfcheck => p.answers.length == 1
  | .loop => p.answers.length == 2
  | _ => false

end Sys2Proof.Machine

namespace Sys2Proof

/-! ## The access matrix of R44, composite operations included -/

/-- May write `rec.lockState`. -/
def Instr.mayWriteLockState : Instr → Bool
  | .sload | .eval _ | .boot | .loop => true
  | _ => false

/-- May write `rec.wrongAttempts` or `rec.lsr`. -/
def Instr.mayWriteCounts : Instr → Bool
  | .sload | .eval _ | .tick | .boot | .loop => true
  | _ => false

/-- May write `rec.magic` or `rec.checksum`, or durable storage: `SLOAD`, `SSAVE` and what calls them. -/
def Instr.mayWriteStorage : Instr → Bool
  | .sload | .ssave | .eval _ | .tick | .pfcheck | .boot | .loop => true
  | _ => false

/-- May write `tag`. -/
def Instr.mayWriteTag : Instr → Bool
  | .tagavail | .readtag _ | .loop => true
  | _ => false

/-- May write `sim` or take input characters. -/
def Instr.mayWriteSim : Instr → Bool
  | .tagavail | .loop => true
  | _ => false

/-- May write `pfl.latch`. -/
def Instr.mayWriteLatch : Instr → Bool
  | .ltake | .pfcheck | .loop => true
  | _ => false

/-- May write `link.rst`. -/
def Instr.mayWriteRst : Instr → Bool
  | .xrst _ | .pinit | .boot => true
  | _ => false

/-- Leaves the link alone: `link.cs`, `link.rst` and `link.hist`. -/
def Instr.leavesLink : Instr → Bool
  | .readtag _ | .sload | .ssave | .ltake | .eval _ | .tick | .pfcheck => true
  | _ => false

/-- Makes no link transfer: `link.cs` stays as it is. -/
def Instr.makesNoTransfer : Instr → Bool
  | .xdelay _ | .xrst _ => true
  | i => i.leavesLink

/-- Reaches the reader through the engine's exchanges alone, which at level A are no link transfers (R184, R192). -/
def Instr.onlyExchanges : Instr → Bool
  | .pxcv _ _ _ _ | .preqa | .panticoll | .pcrc _ | .tagavail | .loop | .reqa | .anticollCl1 => true
  | _ => false

/-- The link address an operation is given as its operand, by which its caller reaches any register (20_memory.md R63). -/
def Instr.address : Instr → Option Addr
  | .xwr a _ | .xrd a | .xsetb a _ | .xclrb a _ | .xwait a _ _ | .linkWrite a _ | .linkRead a _ => some a
  | _ => none

/-- May write `eng.lastResult`. -/
def Instr.mayWriteEngine : Instr → Bool
  | .xwait _ _ _ | .pxcv _ _ _ _ | .preqa | .panticoll | .pcrc _ | .tagavail | .loop => true
  | .reqa | .anticollCl1 => true
  | _ => false

/-- May write `in.ticks`. -/
def Instr.mayWriteTicks : Instr → Bool
  | .loop => true
  | _ => false

/-- The policy operations that need a completed `BOOT` (60_exceptions.md R367). -/
def Instr.needsBoot : Instr → Bool
  | .eval _ | .tick | .pfcheck | .loop => true
  | _ => false

/-- Contains `LTAKE`, or attaches the edge: every other operation commutes with `EDGE` (20_memory.md R74). -/
def Instr.ordersEdge : Instr → Bool
  | .ltake | .pfcheck | .loop | .boot => true
  | _ => false

/-- May command the actuator. -/
def Instr.mayCommand : Instr → Bool
  | .eval _ | .boot | .loop => true
  | _ => false

end Sys2Proof

namespace Sys2Proof.Machine

/-! ## Sequences -/

/-- The same operation `n` times, stopping at the first fault or refusal. -/
def repeatExec (i : Instr) : Nat → State → Host.Outcome State Fault Refusal
  | 0, s => .next s
  | n + 1, s =>
    match exec i s with
    | .next t => repeatExec i n t
    | .fault f => .fault f
    | .refused r => .refused r

/-- Presenting identifiers one after the other (46_lockout_policy.md R338), stopping at the first fault or refusal. -/
def evalAll : List (List Byte) → State → Host.Outcome State Fault Refusal
  | [], s => .next s
  | id :: ids, s =>
    match exec (.eval id) s with
    | .next t => evalAll ids t
    | .fault f => .fault f
    | .refused r => .refused r

end Sys2Proof.Machine
end

