-- ==== Sys2Proof/Certificates/Slice0/Obligations.lean ====
section
/-! DEFINITION. The statements for the provers, each one formalising rules of spec/ over every state. A statement of basis
derived names in its docstring the rules it rests on and the entry of the assumption log where it rests on a choice. -/

section Statements

open Sys2Proof Sys2Proof.Machine

/-- O1. Decoding the operation port and encoding are inverse on every byte stream (R125). -/
def Obligations.OperationDecodeIffEncode : Prop :=
  ∀ (cap : Byte) (bs rest : List Byte) (i : Instr),
    decode cap .operation bs = .ok (i, rest) ↔
      i.wellFormed cap = true ∧ i.space = .operation ∧ bs = encode i ++ rest

/-- O2. Decoding the link wire, the card frames and the reader commands is inverse to encoding (R101, R104, R106,
R113; notes/assumptions/8.md). -/
def Obligations.WireDecodeIffEncode : Prop :=
  ∀ (cap : Byte) (sp : Space) (bs rest : List Byte) (i : Instr), sp ≠ .operation →
    (decode cap sp bs = .ok (i, rest) ↔ i.space = sp ∧ bs = encode i ++ rest)

/-- O3. Reserved opcodes, operands out of range and truncated streams are refused with the offending byte (R124, R122,
R368; notes/assumptions/18.md). -/
def Obligations.RefusedStops : Prop :=
  ∀ (s : State), s.seq.position = none → (s.moves = [] ∨ ∃ ms, s.moves = .sequencer :: ms) →
    let cap := s.cfg.fifoCap.toNat
    let refuses := fun (bs : List Byte) (why : Reject) =>
      s.port = { space := .operation, bytes := bs } → step s = .fault (.refused why)
    (∀ (b : Byte) (bs : List Byte),
      (b.toNat ≤ 0x0F ∨ (0x17 ≤ b.toNat ∧ b.toNat ≤ 0x1F) ∨ (0x28 ≤ b.toNat ∧ b.toNat ≤ 0x2F) ∨
        (0x32 ≤ b.toNat ∧ b.toNat ≤ 0x3F) ∨ (0x41 ≤ b.toNat ∧ b.toNat ≤ 0x4F) ∨ 0x55 ≤ b.toNat) →
      refuses (b :: bs) (.opcode b)) ∧
    (∀ (a x y : Byte) (bs : List Byte), 0x80 ≤ a.toNat →
      refuses (0x11#8 :: a :: bs) (.operand a) ∧ refuses (0x14#8 :: a :: x :: y :: bs) (.operand a) ∧
      ∀ o ∈ [0x10#8, 0x12#8, 0x13#8], refuses (o :: a :: x :: bs) (.operand a)) ∧
    (∀ (a m : Byte) (bs : List Byte), a.toNat < 0x80 → refuses (0x14#8 :: a :: m :: 0x00#8 :: bs) (.operand 0x00#8)) ∧
    (∀ (n : Byte) (bs : List Byte), n.toNat ≤ bs.length →
      (cap < n.toNat → refuses (0x25#8 :: n :: bs) (.operand n)) ∧
      (10 < n.toNat → refuses (0x51#8 :: n :: bs) (.operand n))) ∧
    (∀ (n lb c t z : Byte) (bs : List Byte), n.toNat ≤ bs.length →
      let bad := fun (x : Byte) => refuses (0x22#8 :: n :: lb :: c :: t :: z :: bs) (.operand x)
      let inCap := fun (x : Byte) => 1 ≤ x.toNat ∧ x.toNat ≤ cap
      (¬ inCap n → bad n) ∧ (inCap n → 8 ≤ lb.toNat → bad lb) ∧ (inCap n → lb.toNat < 8 → ¬ inCap c → bad c) ∧
      (inCap n → lb.toNat < 8 → inCap c → t = 0x00#8 → bad t) ∧
      (inCap n → lb.toNat < 8 → inCap c → t ≠ 0x00#8 → z ≠ 0x00#8 → bad z)) ∧
    (∀ (o : Opcode) (bs : List Byte),
      (bs.length + 1 < o.fixedLength ∨
        ((o = .pcrc ∨ o = .eval) ∧ ∃ n ds, bs = n :: ds ∧ ds.length < n.toNat) ∨
        (o = .pxcv ∧ ∃ n lb c t z ds, bs = n :: lb :: c :: t :: z :: ds ∧ ds.length < n.toNat)) →
      refuses (o.byte :: bs) (.truncated o.byte)) ∧
    (∀ (b : Byte) (bs : List Byte), s.port = { space := .operation, bytes := b :: bs } →
      (¬ ∃ i rest, i.wellFormed s.cfg.fifoCap = true ∧ i.space = .operation ∧ b :: bs = encode i ++ rest) →
      ∃ x ∈ b :: bs, step s = .fault (.refused (.opcode x)) ∨ step s = .fault (.refused (.operand x)) ∨
        step s = .fault (.refused (.truncated x)))

/-- O4. A few words of the encoding tables decode to the operations they stand for (R123, R101, R104, R106). -/
def Obligations.KnownWords : Prop :=
  decode 64#8 .operation [0x10#8, 0x02#8, 0x0F#8] = .ok (.xwr 0x02#7 0x0F#8, []) ∧
  decode 64#8 .operation [0x14#8, 0x08#8, 0x30#8, 0x32#8] = .ok (.xwait 0x08#7 0x30#8 50#8, []) ∧
  decode 64#8 .operation [0x15#8, 0xF4#8, 0x01#8] = .ok (.xdelay 500#16, []) ∧
  decode 64#8 .operation [0x22#8, 0x01#8, 0x07#8, 0x02#8, 0x32#8, 0x00#8, 0x26#8] = .ok (.pxcv 7#3 2#8 50#8 [0x26#8], []) ∧
  decode 64#8 .operation [0x51#8, 0x04#8, 0x04#8, 0xAB#8, 0x10#8, 0x9F#8]
    = .ok (.eval [0x04#8, 0xAB#8, 0x10#8, 0x9F#8], []) ∧
  decode 64#8 .link [0x82#8, 0x30#8] = .ok (.linkRead 0x02#7 0x30#8, []) ∧
  decode 64#8 .card [0x26#8] = .ok (.reqa, []) ∧
  decode 64#8 .card [0x93#8, 0x20#8] = .ok (.anticollCl1, [])

/-- O5. A step runs the decoded operation waiting on the port, or the sequencer's own next operation (R125, R402;
notes/assumptions/5.md, 7.md). -/
def Obligations.StepRunsDecoded : Prop :=
  (∀ (s : State) (i : Instr) (rest : List Byte), s.seq.position = none →
    i.wellFormed s.cfg.fifoCap = true → s.port = { space := i.space, bytes := encode i ++ rest } →
      (s.moves = [] → step s = exec i { s with port := { space := i.space, bytes := rest } }) ∧
      (∀ ms, s.moves = .sequencer :: ms →
        step s = exec i { s with moves := ms, port := { space := i.space, bytes := rest } })) ∧
  (∀ s : State, s.seq.position = none → s.moves = [] → s.port.bytes = [] →
    (s.seq.booted = false → step s = exec .boot s) ∧ (s.seq.booted = true → step s = exec .loop s))

/-- O6. Bit 7 of the address byte says read, bits 6:0 are the register address (R101). -/
def Obligations.AddressByte : Prop :=
  ∀ (a : Addr) (d : Byte),
    LinkEvent.wireOut (.w a d) = [a.setWidth 8, d] ∧ (a.setWidth 8 : Byte).getLsbD 7 = false ∧
    (a.setWidth 8 : Byte).setWidth 7 = a ∧
    (∀ v, (LinkEvent.wireOut (.r a v)).head? = some (0x80#8 ||| a.setWidth 8)) ∧
    (0x80#8 ||| a.setWidth 8 : Byte).getLsbD 7 = true ∧ (0x80#8 ||| a.setWidth 8 : Byte).setWidth 7 = a ∧
    (∀ x : Byte, x = a.setWidth 8 ↔ x.getLsbD 7 = false ∧ x.setWidth 7 = a)

/-- O7. The delay operand t16 is little-endian (R122, R121). -/
def Obligations.DelayOperand : Prop :=
  ∀ (cap tl th : Byte) (rest : List Byte), ∃ t : Millis, t.toNat = tl.toNat + 256 * th.toNat ∧
    decode cap .operation (0x15#8 :: tl :: th :: rest) = .ok (.xdelay t, rest) ∧
    decode cap .operation (0x16#8 :: tl :: th :: rest) = .ok (.xrst t, rest)

/-- O8. XWR and the LINK_WRITE transfer make one claimed write transfer and change nothing else (R144, R142, R141;
notes/assumptions/12.md). -/
def Obligations.RegisterWrite : Prop :=
  ∀ (a : Addr) (d : Byte) (s : State),
    let t := { s with
      link := { s.link with cs := .deasserted, hist := s.link.hist ++ [.cs .asserted, .w a d, .cs .deasserted] }
      result := some .unit }
    exec (.xwr a d) s = .next t ∧ exec (.linkWrite a d) s = .next t

/-- O9. XRD returns the reader's drawn byte through one claimed read transfer; LINK_READ is that transfer (R145, R143,
R141; notes/assumptions/9.md). -/
def Obligations.RegisterRead : Prop :=
  ∀ (a : Addr) (w : Byte) (s : State),
    exec (.xrd a) s = .next { s with
      draws := s.draws.byte.2
      link := { s.link with
        cs := .deasserted
        hist := s.link.hist ++ [.cs .asserted, .r a s.draws.byte.1, .cs .deasserted] }
      result := some (.byte s.draws.byte.1) } ∧
    exec (.linkRead a w) s = .next { s with
      link := { s.link with cs := .deasserted, hist := s.link.hist ++ [.cs .asserted, .r a w, .cs .deasserted] }
      result := some (.byte w) }

/-- O10. XSETB and PANTON write only if a bit of the mask was clear, and change nothing but the link (R146, R182). -/
def Obligations.SetBits : Prop :=
  ∀ (a : Addr) (m : Byte) (s : State),
    let t := fun (a : Addr) (m : Byte) => { s with
      draws := s.draws.byte.2
      link := { s.link with cs := .deasserted, hist := s.link.hist ++ setBitsEvents a m s.draws.byte.1 }
      result := some .unit }
    exec (.xsetb a m) s = .next (t a m) ∧
    exec .panton s = .next (t (s.cfg.regs.addr s.cfg.antennaReg) s.cfg.antennaMask)

/-- O11. XCLRB always writes back the value read without the mask's bits (R147). -/
def Obligations.ClearBits : Prop :=
  ∀ (a : Addr) (m : Byte) (s : State),
    exec (.xclrb a m) s = .next { s with
      draws := s.draws.byte.2
      link := { s.link with
        cs := .deasserted
        hist := s.link.hist ++ readEvents a s.draws.byte.1 ++ writeEvents a (s.draws.byte.1 &&& ~~~m) }
      result := some .unit }

/-- O12. XDELAY records its delay; XRST is the pulse asserted, delay, deasserted (R149, R150). -/
def Obligations.DelayAndPulse : Prop :=
  ∀ (t : Millis) (s : State),
    exec (.xdelay t) s = .next { s with
      link := { s.link with hist := s.link.hist ++ [.delay t] }
      result := some .unit } ∧
    exec (.xrst t) s = .next { s with
      link := { s.link with
        rst := .deasserted
        hist := s.link.hist ++ [.rst .asserted, .delay t, .rst .deasserted] }
      result := some .unit }

/-- O13. XWAIT polls until a bit of the mask is seen, or fails with TIMEOUT at the poll where the bound has passed
(R148, R15; notes/assumptions/4.md). -/
def Obligations.TimedWait : Prop :=
  ∀ (a : Addr) (m t : Byte) (s : State), ∃ (vs : List Byte) (last : Byte),
    let polls := vs ++ [last]
    let drawn := Draws.takeBytes polls.length s.draws.polls.2
    let u := { s with
      link := { s.link with cs := .deasserted, hist := s.link.hist ++ readsAt a polls }
      draws := drawn.2 }
    drawn.1 = polls ∧ (∀ v ∈ vs, v &&& m = 0#8) ∧
    ((last &&& m ≠ 0#8 ∧ m ≠ 0#8 ∧ polls.length ≤ s.draws.polls.1 + 2 ∧
        exec (.xwait a m t) s = .next { u with eng := { lastResult := .ok }, result := some (.byte last) }) ∨
      (last &&& m = 0#8 ∧ polls.length = s.draws.polls.1 + 2 ∧
        exec (.xwait a m t) s
          = .next { u with eng := { lastResult := .timeout }, result := some (.fail .timeout) }))

/-- O14. A reader command is one write of its configured code to CommandReg (R113, R142; notes/assumptions/11.md). -/
def Obligations.ReaderCommands : Prop :=
  ∀ s : State,
    let t := fun (d : Byte) => { s with
      link := { s.link with cs := .deasserted, hist := s.link.hist ++ writeEvents s.cfg.regs.command d }
      result := some .unit }
    exec .pcdIdle s = .next (t s.cfg.cmds.idle) ∧ exec .pcdCalcCrc s = .next (t s.cfg.cmds.calcCrc) ∧
    exec .pcdTransceive s = .next (t s.cfg.cmds.transceive) ∧
    exec .pcdSoftReset s = .next (t s.cfg.cmds.softReset)

/-- O15. PINIT makes the whole initialisation sequence at any time and leaves the core's own state unchanged (R180,
R181). -/
def Obligations.InitialiseReader : Prop :=
  ∀ s : State,
    exec .pinit s = .next { s with
      draws := s.draws.byte.2
      link := { cs := .deasserted, rst := .deasserted, hist := s.link.hist ++ initEvents s.cfg s.draws.byte.1 }
      result := some .unit }

/-- O16. At level A a transceive is one drawn outcome and one XCV event (R184, R186, R104, R106;
notes/assumptions/10.md). -/
def Obligations.ExchangeLevelA : Prop :=
  ∀ (lb : BitVec 3) (cap t : Byte) (tx : List Byte) (s : State), s.cfg.level = .a →
    let r := fun (cap : Byte) => capResult cap s.draws.xcv.1
    let u := fun (lb : BitVec 3) (cap t : Byte) (tx : List Byte) => { s with
      draws := s.draws.xcv.2
      link := { s.link with hist := s.link.hist ++ [.xcv tx lb cap t (r cap)] }
      eng := { lastResult := codeOfXcv (r cap) }
      result := some (xcvReturn (r cap)) }
    exec (.pxcv lb cap t tx) s = .next (u lb cap t tx) ∧
    exec .reqa s = .next (u 7#3 2#8 50#8 [0x26#8]) ∧
    exec .anticollCl1 s = .next (u 0#3 5#8 50#8 [0x93#8, 0x20#8])

/-- O17. At level B a transceive is the register sequence of XcvB, and its outcome is the one its reads give (R187,
R184, R104, R106, R114, R116, R117, R118; notes/assumptions/32.md, notes/assumptions/10.md). -/
def Obligations.ExchangeLevelB : Prop :=
  let runs := fun (i : Instr) (lb : BitVec 3) (cap : Byte) (tx : List Byte) =>
    ∀ s : State, s.cfg.level = .b → s.cfg.xcvSteps = standardXcv →
      ∃ (b last : Byte) (vs : List Byte) (tail : List LinkEvent) (r : XcvResult) (d : Draws),
        exec i s = .next { s with
          draws := d
          link := { s.link with
            cs := .deasserted
            hist := s.link.hist ++ (sendEvents s.cfg tx lb b ++ readsAt s.cfg.regs.comIrq (vs ++ [last]) ++ tail) }
          eng := { lastResult := codeOfXcv r }
          result := some (xcvReturn r) } ∧
        (∀ v ∈ vs, v &&& s.cfg.completionMask = 0#8) ∧
        xcvEnding s.cfg cap last tail r
  (∀ lb cap t tx, runs (.pxcv lb cap t tx) lb cap tx) ∧
  runs .reqa 7#3 2#8 [0x26#8] ∧ runs .anticollCl1 0#3 5#8 [0x93#8, 0x20#8]

/-- O18. An Ok transceive never exceeds its capacity, at level B follows completion without error, and touches no
policy state (R185, R187, R104, R106; notes/assumptions/10.md). -/
def Obligations.TransceiveLaws : Prop :=
  let law := fun (i : Instr) (cap : Byte) => ∀ s : State, ∃ (u : State) (r : XcvResult),
    exec i s = .next u ∧ u.result = some (xcvReturn r) ∧
    u.tag = s.tag ∧ u.record = s.record ∧ u.loaded = s.loaded ∧ u.sim = s.sim ∧ u.pfl = s.pfl ∧
    ∀ rx lastBits, r = .ok rx lastBits → rx.length ≤ cap.toNat ∧
      (s.cfg.level = .b → s.cfg.xcvSteps = standardXcv → ∃ (v e : Byte) (before after : List LinkEvent),
        v &&& s.cfg.completionMask ≠ 0#8 ∧ e &&& s.cfg.errMask = 0#8 ∧
        u.link.hist = s.link.hist ++ before ++ readEvents s.cfg.regs.comIrq v
          ++ readEvents s.cfg.regs.error e ++ after)
  (∀ lb cap t tx, law (.pxcv lb cap t tx) cap) ∧ law .reqa 2#8 ∧ law .anticollCl1 5#8

/-- O19. PREQA is PXCV 1, 7, 2, 50, {0x26} with its answer checked: length 2 first, then no partial last byte (R188).
-/
def Obligations.RequestAnswer : Prop :=
  ∀ s : State, ∃ (v : State) (r : XcvResult) (c : ResultCode) (o : OpResult),
    exec (.pxcv 7#3 2#8 50#8 [0x26#8]) s = .next v ∧ v.result = some (xcvReturn r) ∧
    exec .preqa s = .next { v with eng := { lastResult := c }, result := some o } ∧
    (∀ w, r = .fail w → c = codeOfFailure w ∧ o = .fail (codeOfFailure w)) ∧
    (∀ rx lastBits, r = .ok rx lastBits →
      (rx.length ≠ 2 → c = .badLength ∧ o = .fail .badLength) ∧
      (rx.length = 2 → lastBits ≠ 0#3 → c = .badLastBits ∧ o = .fail .badLastBits) ∧
      (rx.length = 2 → lastBits = 0#3 → c = .ok ∧ o = .bytes rx))

/-- O20. PANTICOLL is PXCV 2, 0, 5, 50, {0x93, 0x20} with its answer checked: length 5 first, then the check byte
(R190). -/
def Obligations.AnticollisionAnswer : Prop :=
  ∀ s : State, ∃ (v : State) (r : XcvResult) (c : ResultCode) (o : OpResult),
    exec (.pxcv 0#3 5#8 50#8 [0x93#8, 0x20#8]) s = .next v ∧ v.result = some (xcvReturn r) ∧
    exec .panticoll s = .next { v with eng := { lastResult := c }, result := some o } ∧
    (∀ w, r = .fail w → c = codeOfFailure w ∧ o = .fail (codeOfFailure w)) ∧
    (∀ rx lastBits, r = .ok rx lastBits → rx.length ≠ 5 → c = .badLength ∧ o = .fail .badLength) ∧
    (∀ u0 u1 u2 u3 bcc lastBits, r = .ok [u0, u1, u2, u3, bcc] lastBits →
      (bcc ≠ u0 ^^^ u1 ^^^ u2 ^^^ u3 → c = .bccMismatch ∧ o = .fail .bccMismatch) ∧
      (bcc = u0 ^^^ u1 ^^^ u2 ^^^ u3 → c = .ok ∧ o = .bytes [u0, u1, u2, u3]))

/-- O21. The BCC check is a zero XOR fold: every one-bit flip is caught, the same bit in two bytes is not (R191). -/
def Obligations.CheckByte : Prop :=
  (∀ u0 u1 u2 u3 u4 : Byte,
    (bccOk [u0, u1, u2, u3, u4] = true ↔ u4 = u0 ^^^ u1 ^^^ u2 ^^^ u3) ∧
    (bccOk [u0, u1, u2, u3, u4] = true ↔ xorFold [u0, u1, u2, u3, u4] = 0x00#8)) ∧
  (∀ (rx : List Byte) (i j k : Nat), rx.length = 5 → i < 5 → j < 5 → i ≠ j → k < 8 → bccOk rx = true →
    bccOk (flipBit i k rx) = false ∧ bccOk (flipBit j k (flipBit i k rx)) = true) ∧
  bccOk [0x04#8, 0xAB#8, 0x10#8, 0x9F#8, 0x20#8] = true

/-- O22. At level A a CRC computation is one drawn outcome and one CRC event (R192, R108). -/
def Obligations.CrcLevelA : Prop :=
  ∀ (data : List Byte) (s : State), s.cfg.level = .a →
    exec (.pcrc data) s = .next { s with
      draws := s.draws.crc.2
      link := { s.link with hist := s.link.hist ++ [.crc data s.draws.crc.1] }
      eng := { lastResult := codeOfCrc s.draws.crc.1 }
      result := some (crcReturn s.draws.crc.1) }

/-- O23. At level B a CRC computation is the register sequence of CrcB (R193, R192, R108, R115;
notes/assumptions/32.md). -/
def Obligations.CrcLevelB : Prop :=
  ∀ (data : List Byte) (s : State), s.cfg.level = .b → s.cfg.crcSteps = standardCrc →
    ∃ (last : Byte) (vs : List Byte) (tail : List LinkEvent) (r : CrcResult) (d : Draws),
      exec (.pcrc data) s = .next { s with
        draws := d
        link := { s.link with
          cs := .deasserted
          hist := s.link.hist ++ (crcEvents s.cfg data ++ readsAt s.cfg.regs.divIrq (vs ++ [last]) ++ tail) }
        eng := { lastResult := codeOfCrc r }
        result := some (crcReturn r) } ∧
      (∀ v ∈ vs, v &&& s.cfg.crcDoneMask = 0#8) ∧
      ((last &&& s.cfg.crcDoneMask = 0#8 ∧ tail = [] ∧ r = .timeout) ∨
        (∃ lo hi, last &&& s.cfg.crcDoneMask ≠ 0#8 ∧ r = .ok lo hi ∧
          tail = writeEvents s.cfg.regs.command s.cfg.cmds.idle ++ readEvents s.cfg.regs.crcResultL lo
            ++ readEvents s.cfg.regs.crcResultH hi))

/-- O24. Live TAGAVAIL: no I/O while an identifier is buffered, else PREQA and, only if it succeeds, PANTICOLL (R196).
-/
def Obligations.LiveTagPoll : Prop :=
  ∀ s : State, s.cfg.backend = .live →
    (s.tag.valid = true → exec .tagavail s = .next { s with result := some (.bit true) }) ∧
    (s.tag.valid = false → ∃ v, exec .preqa s = .next v ∧
      ((∃ c, v.result = some (.fail c) ∧ exec .tagavail s = .next { v with result := some (.bit false) }) ∨
        (∃ atqa w, v.result = some (.bytes atqa) ∧ exec .panticoll v = .next w ∧
          ((∃ c, w.result = some (.fail c) ∧ exec .tagavail s = .next { w with result := some (.bit false) }) ∨
            (∃ uid, w.result = some (.bytes uid) ∧ uid.length = 4 ∧
              exec .tagavail s
                = .next { w with tag := { valid := true, bytes := uid }, result := some (.bit true) })))))

/-- O25. Simulated TAGAVAIL takes at most one character: accumulate, overflow, or complete the line (R242, R244,
R246). -/
def Obligations.SimulatedStep : Prop :=
  ∀ s : State, s.cfg.backend = .sim →
    (s.tag.valid = true → exec .tagavail s = .next { s with result := some (.bit true) }) ∧
    (s.tag.valid = false → s.inp.chars = [] → exec .tagavail s = .next { s with result := some (.bit false) }) ∧
    (∀ c cs, s.tag.valid = false → s.inp.chars = c :: cs →
      let u := { s with inp := { s.inp with chars := cs } }
      ((c = 0x0D#8 ∨ c = 0x0A#8) → (decodeLine s.sim.line).length < 4 →
        exec .tagavail s = .next { u with sim := { line := [] }, result := some (.bit false) }) ∧
      ((c = 0x0D#8 ∨ c = 0x0A#8) → 4 ≤ (decodeLine s.sim.line).length →
        exec .tagavail s = .next { u with
          sim := { line := [] }
          tag := { valid := true, bytes := (decodeLine s.sim.line).take 4 }
          result := some (.bit true) }) ∧
      (c ≠ 0x0D#8 → c ≠ 0x0A#8 → s.sim.line.length < 64 →
        exec .tagavail s = .next { u with sim := { line := s.sim.line ++ [c] }, result := some (.bit false) }) ∧
      (c ≠ 0x0D#8 → c ≠ 0x0A#8 → 64 ≤ s.sim.line.length →
        exec .tagavail s = .next { u with sim := { line := [] }, result := some (.bit false) }))

/-- O26. A line decodes to its hexadecimal digits paired in order, separators skipped, an odd last digit dropped
(R243). -/
def Obligations.LineDecoding : Prop :=
  (∀ l : List Byte, let ds := l.filterMap hexval
    (decodeLine l).length = ds.length / 2 ∧
    ∀ j, j < ds.length / 2 →
      ∃ hi lo, ds[2 * j]? = some hi ∧ ds[2 * j + 1]? = some lo ∧
        (decodeLine l)[j]? = some ((hi.setWidth 8 <<< 4) ||| lo.setWidth 8)) ∧
  (∀ l k : List Byte, l.filter isHex = k.filter isHex → decodeLine l = decodeLine k) ∧
  (∀ c : Byte, let n := c.toNat
    (0x30 ≤ n ∧ n ≤ 0x39 → hexval c = some (BitVec.ofNat 4 (n - 0x30))) ∧
    (0x41 ≤ n ∧ n ≤ 0x46 → hexval c = some (BitVec.ofNat 4 (n - 0x37))) ∧
    (0x61 ≤ n ∧ n ≤ 0x66 → hexval c = some (BitVec.ofNat 4 (n - 0x57))) ∧
    (n < 0x30 ∨ (0x39 < n ∧ n < 0x41) ∨ (0x46 < n ∧ n < 0x61) ∨ 0x66 < n → hexval c = none))

/-- O27. A whole line with at least four pairs is buffered as its first four bytes, read once, and gone (R248). -/
def Obligations.SimulatedLine : Prop :=
  ∀ (s : State) (line rest : List Byte) (term maxLen again : Byte),
    s.cfg.backend = .sim → s.tag.valid = false → s.sim.line = [] →
    s.inp.chars = line ++ term :: rest → (∀ c ∈ line, isTerm c = false) → isTerm term = true →
    line.length ≤ 64 → 4 ≤ (decodeLine line).length → 4 ≤ maxLen.toNat →
      (∀ k, 0 < k → k ≤ line.length →
        ∃ u, repeatExec .tagavail k s = .next u ∧ u.result = some (.bit false)) ∧
      ∃ t u w, repeatExec .tagavail (line.length + 1) s = .next t ∧
        t = { s with
          inp := { s.inp with chars := rest }
          tag := { valid := true, bytes := (decodeLine line).take 4 }
          result := some (.bit true) } ∧
        exec (.readtag maxLen) t = .next u ∧
        u = { t with
          tag := { valid := false, bytes := (decodeLine line).take 4 }
          result := some (.copied 4 ((decodeLine line).take 4)) } ∧
        exec (.readtag again) u = .next w ∧ w.result = some (.copied 0 [])

/-- O28. READTAG copies at most maxLen bytes and consumes the identifier; with nothing buffered or no room it changes
nothing (R197). -/
def Obligations.ReadTag : Prop :=
  ∀ (n : Byte) (s : State),
    ((s.tag.valid = false ∨ n = 0x00#8) → exec (.readtag n) s = .next { s with result := some (.copied 0 []) }) ∧
    (s.tag.valid = true → n ≠ 0x00#8 → ∃ u, exec (.readtag n) s = .next u ∧
      u = { s with
        tag := { s.tag with valid := false }
        result := some (.copied (min s.tag.len n.toNat) (s.tag.bytes.take (min s.tag.len n.toNat))) } ∧
      ∀ m : Byte, exec (.readtag m) u = .next { u with result := some (.copied 0 []) })

/-- O29. The default record is [MAGIC, 0, 0, 0, MAGIC]: Locked, no attempts, no lockout, and valid (R272). -/
def Obligations.DefaultRecord : Prop :=
  ∀ c : Config, (defaultRecord c.magic).bytes = [c.magic, 0x00#8, 0x00#8, 0x00#8, c.magic] ∧
    (defaultRecord c.magic).decision = .lock ∧ modeOf (defaultRecord c.magic) = .active ∧
    (defaultRecord c.magic).fold = c.magic ∧ (defaultRecord c.magic).valid c = true

/-- O30. SLOAD takes a valid stored record as it is and heals a corrupt one in storage before returning it (R274,
R273, R275, R66). -/
def Obligations.LoadRecord : Prop :=
  ∀ (s : State) (m l w x k : Byte), s.recordBytes = [m, l, w, x, k] →
    let good := m = s.cfg.magic ∧ k = m ^^^ l ^^^ w ^^^ x ∧
      (s.cfg.loadRangeCheck = true → (l = 0x00#8 ∨ l = 0x01#8) ∧ w.toNat ≤ 3 ∧ x.toNat ≤ 30)
    let d : Record :=
      { magic := s.cfg.magic, lockState := 0x00#8, wrongAttempts := 0x00#8, lsr := 0x00#8, checksum := s.cfg.magic }
    (good → exec .sload s = .next { s with
      record := { magic := m, lockState := l, wrongAttempts := w, lsr := x, checksum := k }
      loaded := true
      result := some (.bytes [m, l, w, x, k]) }) ∧
    (¬ good → ∃ t, exec .sload s = .next t ∧
      t = { s with
        record := d
        loaded := true
        durable := t.durable
        writes := s.writes ++ [(0, d.bytes)]
        result := some (.bytes d.bytes) } ∧
      t.recordBytes = d.bytes ∧ ∀ a, 5 ≤ a → Memory.read t.durable a = Memory.read s.durable a) ∧
    ([m, l, w, x, k] = [0xFF#8, 0xFF#8, 0xFF#8, 0xFF#8, 0xFF#8] → ¬ good)

/-- O31. SSAVE forces the magic, recomputes the checksum and writes the five bytes once; unwritten rec is F_UNWRITTEN
(R276, R366, R270). -/
def Obligations.SaveRecord : Prop :=
  ∀ s : State,
    (s.loaded = false → exec .ssave s = .fault .unwritten) ∧
    (∀ r, s.held = some r →
      let q : Record := { r with
        magic := s.cfg.magic
        checksum := s.cfg.magic ^^^ r.lockState ^^^ r.wrongAttempts ^^^ r.lsr }
      ∃ t, exec .ssave s = .next t ∧
        t = { s with
          record := q
          durable := t.durable
          writes := s.writes ++ [(0, q.bytes)]
          result := some .unit } ∧
        t.recordBytes = [q.magic, q.lockState, q.wrongAttempts, q.lsr, q.checksum] ∧
        ∀ a, 5 ≤ a → Memory.read t.durable a = Memory.read s.durable a)

/-- O32. Recovery is idempotent, save after load changes nothing, and load after save returns what was saved (R277).
-/
def Obligations.RecordRoundTrip : Prop :=
  ∀ s : State,
    ((Record.ofBytes s.recordBytes).valid s.cfg = false → ∃ t u, exec .sload s = .next t ∧ exec .sload t = .next u ∧
      t.result = some (.bytes (defaultRecord s.cfg.magic).bytes) ∧ u.result = t.result ∧
      u.held = t.held ∧ u.durable = t.durable ∧ u.writes = t.writes) ∧
    ((Record.ofBytes s.recordBytes).valid s.cfg = true → ∃ t u w, exec .sload s = .next t ∧ exec .ssave t = .next u ∧
      exec .sload u = .next w ∧ t.result = some (.bytes s.recordBytes) ∧ w.result = t.result ∧
      w.held = t.held ∧ u.recordBytes = s.recordBytes ∧ w.recordBytes = s.recordBytes) ∧
    (∀ r, s.held = some r → (s.cfg.loadRangeCheck = true → r.inRange = true) → ∃ t u q,
      exec .ssave s = .next t ∧ exec .sload t = .next u ∧ t.held = some q ∧ u.held = some q ∧
      u.result = some (.bytes q.bytes) ∧ u.durable = t.durable ∧ u.writes = t.writes)

/-- O33. In bytes 1 to 4 the checksum misses exactly the cancelling flips: each bit in an even number of bytes; byte 0
is always caught (R278). -/
def Obligations.ChecksumBlindness : Prop :=
  ∀ (c : Config) (r : Record), r.valid c = true →
    (∀ x1 x2 x3 x4 : Byte,
      let q : Record := { r with
        lockState := r.lockState ^^^ x1
        wrongAttempts := r.wrongAttempts ^^^ x2
        lsr := r.lsr ^^^ x3
        checksum := r.checksum ^^^ x4 }
      (c.loadRangeCheck = true → q.inRange = true) →
        (q.valid c = true ↔ x1 ^^^ x2 ^^^ x3 ^^^ x4 = 0x00#8)) ∧
    (∀ q : Record, q.magic ≠ c.magic → q.valid c = false) ∧
    (∀ i k, i < 5 → k < 8 → (Record.ofBytes (flipBit i k r.bytes)).valid c = false) ∧
    (∀ q : Record, ({ q with lockState := 0x01#8, wrongAttempts := 0x00#8 } : Record).fold
      = ({ q with lockState := 0x00#8, wrongAttempts := 0x01#8 } : Record).fold)

/-- O34. Taking the power-fail edge is one atomic step that sets the latch and nothing else; unattached it is lost
(R300, R371, R373; notes/assumptions/20.md). -/
def Obligations.EdgeSetsLatch : Prop :=
  ∀ (s : State) (ms : List Move), s.moves = .arrive .edge :: ms →
    (s.irq.attached = true → s.irq.enabled = true →
      step s = .next { s with moves := ms, pfl := { latch := true } }) ∧
    (s.irq.attached = true → s.irq.enabled = false →
      step s = .next { s with moves := ms, irq := { s.irq with pending := true } }) ∧
    (s.irq.attached = false → step s = .next { s with moves := ms })

/-- O35. LTAKE returns and clears the latch in one step, re-enables interrupts, and delivers an edge held pending
(R301, R371; notes/assumptions/20.md). -/
def Obligations.TakeLatch : Prop :=
  ∀ s : State, ∃ t u, exec .ltake s = .next t ∧
    t = { s with
      pfl := { latch := s.irq.pending }
      irq := { attached := s.irq.attached, enabled := true, pending := false }
      result := some (.bit s.pfl.latch) } ∧
    exec .ltake t = .next u ∧ u.pfl.latch = false ∧
    (s.irq.pending = false → t.pfl.latch = false ∧ u.result = some (.bit false))

/-- O36. Any positive number of edges makes the next LTAKE return 1 once and the next PFCHECK save once (R302). -/
def Obligations.EdgesCoalesce : Prop :=
  ∀ (s : State) (r : Record) (k : Nat) (ms : List Move),
    s.irq = { attached := true, enabled := true, pending := false } → s.seq.booted = true → s.held = some r →
    1 ≤ k → s.moves = List.replicate k (.arrive .edge) ++ ms →
      ∃ e, Host.Core.run Sys2Proof.core k s = .next e ∧ e = { s with moves := ms, pfl := { latch := true } } ∧
        (∃ t u, exec .ltake e = .next t ∧ t.result = some (.bit true) ∧
          exec .ltake t = .next u ∧ u.result = some (.bit false)) ∧
        (∃ t u w, exec .pfcheck e = .next t ∧ t.result = some (.bit true) ∧ t.writes = s.writes ++ [w] ∧
          exec .pfcheck t = .next u ∧ u.result = some (.bit false) ∧ u.writes = t.writes)

/-- O37. An edge commutes with every operation that contains no LTAKE and does not attach it (R74, R372). -/
def Obligations.EdgeCommutes : Prop :=
  ∀ (i : Instr) (s : State), i.ordersEdge = false →
    (∀ t, exec i s = .next t → exec i (takeEdge s) = .next (takeEdge t)) ∧
    (∀ f, exec i s = .fault f → exec i (takeEdge s) = .fault f)

/-- O38. BOOT loads the record, attaches the edge, drives the actuator if configured, initialises a Live reader, once
(R330, R331, R367, R402). -/
def Obligations.Boot : Prop :=
  ∀ s : State,
    (s.seq.booted = true → exec .boot s = .fault .bootedTwice) ∧
    (s.seq.booted = false → ∃ l p r, exec .sload s = .next l ∧ l.held = some r ∧ exec .pinit s = .next p ∧
      exec .boot s = .next { s with
        record := r
        loaded := true
        durable := l.durable
        writes := l.writes
        irq := { s.irq with attached := true }
        act := { hist := s.act.hist ++
          (if s.cfg.bootDrive then [if r.lockState = 0x01#8 then .unlock else .lock] else []) }
        link := if s.cfg.backend = .live then p.link else s.link
        draws := if s.cfg.backend = .live then p.draws else s.draws
        seq := { s.seq with booted := true, phase := .running }
        result := some .unit })

/-- O39. EVAL: skipped while locked out; a match unlocks and clears; a mismatch counts, and the third starts the
lockout (R332, R333, R366, R367, R369). -/
def Obligations.Evaluate : Prop :=
  ∀ (id : List Byte) (s : State),
    (s.seq.booted = false → exec (.eval id) s = .fault .notBooted) ∧
    (s.seq.booted = true → s.loaded = false → exec (.eval id) s = .fault .unwritten) ∧
    (∀ r, s.seq.booted = true → s.held = some r →
      let m := s.cfg.magic
      let wa := min (r.wrongAttempts.toNat + 1) 3
      let saved := fun (q : Record) (cs : List ActCommand) (v : Verdict) => ∃ t, exec (.eval id) s = .next t ∧
        t = { s with
          record := q
          act := { hist := s.act.hist ++ cs }
          durable := t.durable
          writes := s.writes ++ [(0, q.bytes)]
          result := some (.verdict v) } ∧
        t.recordBytes = q.bytes ∧ ∀ a, 5 ≤ a → Memory.read t.durable a = Memory.read s.durable a
      (r.lsr ≠ 0x00#8 → exec (.eval id) s = .next { s with result := some (.verdict .skipped) }) ∧
      (r.lsr = 0x00#8 → s.cfg.auth id = true →
        saved { magic := m, lockState := 0x01#8, wrongAttempts := 0x00#8, lsr := 0x00#8, checksum := m ^^^ 0x01#8 }
          [.unlock] .matched) ∧
      (r.lsr = 0x00#8 → s.cfg.auth id = false → 3 ≤ wa →
        saved { magic := m, lockState := 0x00#8, wrongAttempts := 0x00#8, lsr := 30#8, checksum := m ^^^ 30#8 }
          [.lock] .lockoutStarted) ∧
      (r.lsr = 0x00#8 → s.cfg.auth id = false → wa < 3 →
        saved { magic := m, lockState := r.lockState, wrongAttempts := BitVec.ofNat 8 wa, lsr := 0x00#8
                checksum := m ^^^ r.lockState ^^^ BitVec.ofNat 8 wa }
          [] .mismatched))

/-- O40. TICK: nothing in Active; in LockedOut one second less, saved, and at 0 the attempts cleared (R334, R366,
R367). -/
def Obligations.CountdownSecond : Prop :=
  ∀ s : State,
    (s.seq.booted = false → exec .tick s = .fault .notBooted) ∧
    (s.seq.booted = true → s.loaded = false → exec .tick s = .fault .unwritten) ∧
    (∀ r, s.seq.booted = true → s.held = some r →
      (r.lsr = 0x00#8 → exec .tick s = .next { s with result := some .unit }) ∧
      (r.lsr ≠ 0x00#8 → ∃ (t : State) (q : Record), exec .tick s = .next t ∧
        q.magic = s.cfg.magic ∧ q.lockState = r.lockState ∧ q.lsr.toNat = r.lsr.toNat - 1 ∧
        q.wrongAttempts = (if r.lsr = 0x01#8 then 0x00#8 else r.wrongAttempts) ∧
        q.checksum = q.magic ^^^ q.lockState ^^^ q.wrongAttempts ^^^ q.lsr ∧
        t = { s with
          record := q
          durable := t.durable
          writes := s.writes ++ [(0, q.bytes)]
          result := some .unit } ∧
        t.recordBytes = q.bytes ∧ ∀ a, 5 ≤ a → Memory.read t.durable a = Memory.read s.durable a))

/-- O41. PFCHECK takes the latch and saves the record exactly if it was set, in either mode (R335). -/
def Obligations.PowerFailCheck : Prop :=
  ∀ s : State,
    (s.seq.booted = false → exec .pfcheck s = .fault .notBooted) ∧
    (∀ r, s.seq.booted = true → s.held = some r → ∃ t u, exec .ltake s = .next t ∧ exec .ssave t = .next u ∧
      (s.pfl.latch = false → exec .pfcheck s = .next { t with result := some (.bit false) }) ∧
      (s.pfl.latch = true → exec .pfcheck s = .next { u with result := some (.bit true) } ∧
        u.writes.length = s.writes.length + 1))

/-- O42. LOOP is PFCHECK, one TICK per elapsed second, and one poll that is evaluated only in Active (R336). -/
def Obligations.LoopIsItsSteps : Prop :=
  ∀ s : State, s.seq.booted = true → s.loaded = true →
    ∃ s1 s2 r, exec .pfcheck s = .next s1 ∧ repeatExec .tick s.inp.ticks s1 = .next s2 ∧ s2.held = some r ∧
      let s3 := { s2 with inp := { s2.inp with ticks := 0 } }
      (r.lsr = 0x00#8 → ∃ s4, exec .tagavail s3 = .next s4 ∧
        ((s4.result = some (.bit false) ∧ exec .loop s = .next { s4 with result := some .unit }) ∨
          (s4.result = some (.bit true) ∧ ∃ s5 k id, exec (.readtag 10#8) s4 = .next s5 ∧
            s5.result = some (.copied k id) ∧
            ((k = 0 ∧ exec .loop s = .next { s5 with result := some .unit }) ∨
              (0 < k ∧ ∃ s6, exec (.eval id) s5 = .next s6 ∧
                exec .loop s = .next { s6 with result := some .unit }))))) ∧
      (r.lsr ≠ 0x00#8 → s.cfg.lockoutTags = .readAndDiscard → ∃ s4, exec .tagavail s3 = .next s4 ∧
        ((s4.result = some (.bit false) ∧ exec .loop s = .next { s4 with result := some .unit }) ∨
          (s4.result = some (.bit true) ∧ ∃ s5, exec (.readtag 10#8) s4 = .next s5 ∧
            exec .loop s = .next { s5 with result := some .unit }))) ∧
      (r.lsr ≠ 0x00#8 → s.cfg.lockoutTags = .notRead → exec .loop s = .next { s3 with result := some .unit })

/-- O43. F_NOT_BOOTED and F_BOOTED_TWICE are raised by exactly the operations R367 names; the others run before BOOT
(R367). -/
def Obligations.SequencingFaults : Prop :=
  (∀ (i : Instr) (s : State), exec i s = .fault .notBooted ↔ i.needsBoot = true ∧ s.seq.booted = false) ∧
  (∀ (i : Instr) (s : State), exec i s = .fault .bootedTwice ↔ i = .boot ∧ s.seq.booted = true) ∧
  (∀ (i : Instr) (s : State), i.needsBoot = false → i ≠ .boot → (i = .ssave → s.loaded = true) →
    ∃ t, exec i s = .next t) ∧
  (∀ (i : Instr) (s : State) (r : Refusal), exec i s ≠ .refused r)

/-- O44. While the countdown runs, no operation unlocks or changes the attempts; only TICK and SLOAD change the record
(R337). -/
def Obligations.LockoutGuarantee : Prop :=
  ∀ (s : State) (r : Record), s.Inv → s.seq.position = none → s.seq.booted = true → s.held = some r →
    r.lsr ≠ 0x00#8 →
    (∀ id, exec (.eval id) s = .next { s with result := some (.verdict .skipped) }) ∧
    (∀ i t, exec i s = .next t → i ≠ .tick → i ≠ .sload → i ≠ .loop → t.held = some r) ∧
    (∀ i t, exec i s = .next t → (i = .loop → s.inp.ticks < r.lsr.toNat) → ∃ q, t.held = some q ∧
      t.act = s.act ∧ q.lockState = r.lockState ∧
      ((i = .tick → r.lsr ≠ 0x01#8) → q.wrongAttempts = r.wrongAttempts)) ∧
    (s.inp.ticks < r.lsr.toNat → ∃ t q, exec .loop s = .next t ∧ t.held = some q ∧
      q.lsr.toNat = r.lsr.toNat - s.inp.ticks)

/-- O45. A booted core commands Unlock only for an identifier AUTH accepts in Active, and Lock only when a lockout
starts (R332, R333, R339, R34). -/
def Obligations.UnlockOnlyOnMatch : Prop :=
  ∀ (i : Instr) (s t : State), s.seq.booted = true → exec i s = .next t →
    t.act = s.act ∨
    (t.act.hist = s.act.hist ++ [.unlock] ∧
      (∃ id, s.cfg.auth id = true ∧ (i = .eval id ∨ (i = .loop ∧ id = t.tag.bytes.take 10))) ∧
      ∃ q, t.held = some q ∧ q.lockState = 0x01#8 ∧ q.wrongAttempts = 0x00#8 ∧ q.lsr = 0x00#8) ∨
    (t.act.hist = s.act.hist ++ [.lock] ∧
      (∃ id, s.cfg.auth id = false ∧ (i = .eval id ∨ (i = .loop ∧ id = t.tag.bytes.take 10))) ∧
      ∃ q, t.held = some q ∧ q.lockState = 0x00#8 ∧ q.wrongAttempts = 0x00#8 ∧ q.lsr = 30#8)

/-- O46. Any sequence of non-matching presentations counts up to the limit and starts one lockout (R338, R333, R415).
-/
def Obligations.MismatchSequence : Prop :=
  ∀ (ids : List (List Byte)) (s : State) (r : Record),
    s.seq.booted = true → s.held = some r → r.lsr = 0x00#8 → r.wrongAttempts.toNat < 3 →
    (∀ id ∈ ids, s.cfg.auth id = false) → ∃ t q, evalAll ids s = .next t ∧ t.held = some q ∧
      (r.wrongAttempts.toNat + ids.length < 3 →
        q.wrongAttempts.toNat = r.wrongAttempts.toNat + ids.length ∧ q.lsr = 0x00#8 ∧ t.act = s.act ∧
        t.writes.length = s.writes.length + ids.length) ∧
      (3 ≤ r.wrongAttempts.toNat + ids.length →
        q.wrongAttempts = 0x00#8 ∧ q.lsr = 30#8 ∧ q.lockState = 0x00#8 ∧
        t.act.hist = s.act.hist ++ [.lock] ∧
        t.writes.length = s.writes.length + (3 - r.wrongAttempts.toNat))

/-- O47. A fresh device: BOOT gives the default, three wrong cards start the lockout, thirty seconds end it (R338,
R330, R334, W8). -/
def Obligations.FreshDevice : Prop :=
  ∀ (s : State) (a b c : List Byte), s.seq.booted = false → s.cfg.bootDrive = false →
    (Record.ofBytes s.recordBytes).valid s.cfg = false →
    s.cfg.auth a = false → s.cfg.auth b = false → s.cfg.auth c = false →
      let rec0 : Record := defaultRecord s.cfg.magic
      let rec1 : Record := { rec0 with lsr := 30#8, checksum := s.cfg.magic ^^^ 30#8 }
      ∃ t0 t1 t2, exec .boot s = .next t0 ∧ t0.held = some rec0 ∧ t0.recordBytes = rec0.bytes ∧
        t0.mode = some .active ∧
        evalAll [a, b, c] t0 = .next t1 ∧ t1.held = some rec1 ∧ t1.recordBytes = rec1.bytes ∧
        t1.mode = some .lockedOut ∧ t1.act.hist = s.act.hist ++ [.lock] ∧
        repeatExec .tick 30 t1 = .next t2 ∧ t2.held = some rec0 ∧ t2.recordBytes = rec0.bytes ∧
        t2.mode = some .active ∧ t2.act = t1.act ∧ t2.writes.length = s.writes.length + 34

/-- O48. The state after reset: nothing loaded, booted, buffered, latched or recorded, interrupts enabled, chip-select
released (R43, R400). -/
def Obligations.ResetState : Prop :=
  let s := State.reset
  s.loaded = false ∧ s.mode = none ∧ s.seq = { booted := false, phase := .powerOn, position := none } ∧
  s.tag.valid = false ∧ s.tag.len = 0 ∧ s.sim.len = 0 ∧ s.pfl.latch = false ∧
  s.irq.attached = false ∧ s.irq.enabled = true ∧ s.link.cs = .deasserted ∧ s.link.hist = [] ∧
  s.act.hist = [] ∧ s.inp.ticks = 0

/-- O49. An elapsed second adds one to in.ticks and an arriving character joins the end of in.chars (R42, R240;
notes/assumptions/5.md). -/
def Obligations.EnvironmentMoves : Prop :=
  ∀ (s : State) (c : Byte) (ms : List Move),
    (s.moves = .arrive .second :: ms →
      step s = .next { s with moves := ms, inp := { s.inp with ticks := s.inp.ticks + 1 } }) ∧
    (s.moves = .arrive (.char c) :: ms →
      step s = .next { s with moves := ms, inp := { s.inp with chars := s.inp.chars ++ [c] } })

/-- O50. The invariants hold right after reset (R45, R43). -/
def Obligations.ResetKeepsInvariants : Prop :=
  State.reset.Inv

/-- O51. Every step keeps the invariants (R45, R38, R74, R151, R300, R61; notes/assumptions/34.md). -/
def Obligations.StepKeepsInvariants : Prop :=
  ∀ s t : State, s.Inv → step s = .next t → t.Inv

/-- O52. Each element of state is written only by the operations the access matrix lists (R44). -/
def Obligations.AccessMatrix : Prop :=
  ∀ (i : Instr) (s t : State), exec i s = .next t →
    t.cfg = s.cfg ∧ t.port = s.port ∧ t.moves = s.moves ∧
    (i.mayWriteStorage = false → t.record = s.record ∧ t.loaded = s.loaded ∧ t.durable = s.durable ∧ t.writes = s.writes) ∧
    (i.mayWriteLockState = false → t.record.lockState = s.record.lockState) ∧
    (i.mayWriteCounts = false → t.record.wrongAttempts = s.record.wrongAttempts ∧ t.record.lsr = s.record.lsr) ∧
    (i.mayWriteTag = false → t.tag = s.tag) ∧
    ((i.mayWriteSim = false ∨ s.cfg.backend = .live) → t.sim = s.sim ∧ t.inp.chars = s.inp.chars) ∧
    (i.mayWriteTicks = false → t.inp.ticks = s.inp.ticks) ∧
    (i.mayWriteLatch = false → t.pfl = s.pfl) ∧
    (i ≠ .boot → t.irq.attached = s.irq.attached ∧ t.seq = s.seq) ∧ t.seq.position = s.seq.position ∧
    (i.mayWriteRst = false → t.link.rst = s.link.rst) ∧
    (i.leavesLink = true → t.link = s.link) ∧
    (i.makesNoTransfer = true → t.link.cs = s.link.cs) ∧
    (i.onlyExchanges = true → s.cfg.level = .a → t.link.cs = s.link.cs) ∧
    (s.cfg.backend = .sim → i = .boot → t.link = s.link) ∧
    (i.mayWriteEngine = false → t.eng = s.eng) ∧
    (s.cfg.backend = .sim → (i = .tagavail ∨ i = .loop) → t.eng = s.eng ∧ t.link = s.link) ∧
    (i.mayCommand = false → t.act = s.act)

/-- O53. A power loss at any moment, inside an operation too, keeps the completed writes whole and resets every
volatile register (R382, R66, R20, R400; notes/assumptions/5.md, 6.md). -/
def Obligations.PowerLoss : Prop :=
  ∀ (s u : State) (mvs ms : List Move) (chars : List Byte), (∀ c, Move.powerLoss c ∉ mvs) →
    s.moves = mvs ++ .powerLoss chars :: ms → Host.Core.run Sys2Proof.core mvs.length s = .next u →
      ∃ (t : State) (ws : List StorageWrite), step u = .next t ∧
        t = { State.reset with
          cfg := s.cfg
          link := { cs := .deasserted, rst := t.link.rst, hist := [] }
          inp := { chars := chars, ticks := 0 }
          durable := t.durable
          moves := ms
          draws := t.draws } ∧
        u.writes = s.writes ++ ws ∧ (∀ w ∈ ws, ∃ r : Record, w = (0, r.bytes)) ∧
        t.durable = Memory.replay s.durable ws ∧
        (ws = [] → t.recordBytes = s.recordBytes) ∧
        (∀ w, ws.getLast? = some w → t.recordBytes = w.2) ∧
        (∀ a, 5 ≤ a → Memory.read t.durable a = Memory.read s.durable a)

/-- O54. After a power loss the next BOOT resumes from the last completed save: no silent unlock, no lost countdown
(R406, R45, R66, R382). -/
def Obligations.Resumption : Prop :=
  ∀ (s u : State) (r : Record) (mvs ms : List Move) (chars : List Byte), s.Inv → s.seq.position = none →
    s.held = some r → (∀ c, Move.powerLoss c ∉ mvs) → s.moves = mvs ++ .powerLoss chars :: ms →
    Host.Core.run Sys2Proof.core mvs.length s = .next u →
      ∃ (ws : List StorageWrite) (t v : State) (q : Record), u.writes = s.writes ++ ws ∧ step u = .next t ∧
        exec .boot t = .next v ∧ v.held = some q ∧ q.valid s.cfg = true ∧ v.writes = [] ∧
        (ws = [] → q = r) ∧ (∀ w, ws.getLast? = some w → w = (0, q.bytes)) ∧
        (u.seq.position = none → u.held = some q)

/-- O55. Every operation adds whole framed items to the link history and leaves chip-select released (R151). -/
def Obligations.LinkFraming : Prop :=
  ∀ (i : Instr) (s t : State), s.link.cs = .deasserted → exec i s = .next t →
    ∃ h, t.link.hist = s.link.hist ++ h ∧ framed h = true ∧ t.link.cs = .deasserted ∧
      (i.mayWriteRst = false → (∀ l, LinkEvent.rst l ∉ h) ∧ t.link.rst = s.link.rst)

/-- O56. An operation taken one pseudocode step at a time comes to what the whole operation comes to (R38, R73, R373;
notes/assumptions/34.md). -/
def Obligations.StepsMakeTheWhole : Prop :=
  ∀ (s : State) (ms : List Move), ∃ n,
    Host.Core.run Sys2Proof.core n { s with moves := List.replicate n .advance ++ ms }
      = step { s with moves := .sequencer :: ms }

/-- O57. An edge commutes with every step of the sequencer but the one of LTAKE and the one that attaches the edge
(R74, R75, R372, R373; notes/assumptions/34.md). -/
def Obligations.EdgeBetweenSteps : Prop :=
  ∀ (s : State) (ms : List Move), (∀ p, s.seq.position = some p → p.takesLatch = false) →
    (∀ t, step { s with moves := .advance :: ms } = .next t → t.irq.attached = s.irq.attached) →
      Host.Core.run Sys2Proof.core 2 { s with moves := .arrive .edge :: .advance :: ms }
        = Host.Core.run Sys2Proof.core 2 { s with moves := .advance :: .arrive .edge :: ms }

/-- O58. Three steps from power-on the core is inside BOOT, in phase Booting, with nothing loaded yet (R38, R330;
notes/assumptions/34.md). -/
def Obligations.BootingPhase : Prop :=
  ∀ (s : State) (ms : List Move), s.seq.position = none → s.port.bytes = [] → s.seq.booted = false →
    Host.Core.run Sys2Proof.core 3 { s with moves := .advance :: .advance :: .advance :: ms } = .next { s with
      moves := ms
      seq := { s.seq with phase := .booting, position := some { instr := .boot, answers := [.bit false, .unit] } } }

/-- O59. Storage beyond the record is never read or written, and only a caller's own address reaches an unnamed reader
register (R63, R61, R112, R119). -/
def Obligations.AccessedPlaces : Prop :=
  ∀ (i : Instr) (s t : State), exec i s = .next t →
    (∃ h, t.link.hist = s.link.hist ++ h ∧ ∀ e ∈ h, ∀ a, e.address = some a →
      i.address = some a ∨ (i.address = none ∧ ∃ r, a = s.cfg.regs.addr r)) ∧
    (∀ off, Config.recordSize ≤ off → Memory.read t.durable off = Memory.read s.durable off) ∧
    ∀ m : Memory, (∀ off < Config.recordSize, Memory.read m off = Memory.read s.durable off) →
      ∃ n, exec i { s with durable := m } = .next { t with durable := n } ∧
        ∀ off < Config.recordSize, Memory.read n off = Memory.read t.durable off

end Statements
end

