-- ==== Sys2Proof/Laws/Prog.lean ====
section
/-! SUPPORT. The laws of programs, each said once: what running one after another does, what every step of a program does
(`Prog.Each`), what a program leads to whatever arrives on the way (`Prog.Ends`), and how resuming goes on. -/

namespace Sys2Proof.Machine

variable {α β γ : Type}

/-! ## Sequencing and running -/

@[simp] theorem Prog.ret_bind (a : α) (k : α → Prog β) : (Prog.ret a).bind k = k a := rfl
@[simp] theorem Prog.raise_bind (f : Fault) (k : α → Prog β) : (Prog.raise f : Prog α).bind k = .raise f := rfl

theorem Prog.bind_assoc (p : Prog α) (k : α → Prog β) (l : β → Prog γ) :
    (p.bind k).bind l = p.bind (fun a => (k a).bind l) := by
  induction p with
  | ret a => rfl
  | raise f => rfl
  | step act next ih => simp only [Prog.bind]; congr 1; funext a; exact ih a

@[simp] theorem Prog.run_ret (a : α) (s : State) : (Prog.ret a).run s = .ok (a, s) := rfl
@[simp] theorem Prog.run_raise (f : Fault) (s : State) : (Prog.raise f : Prog α).run s = .error f := rfl
@[simp] theorem Prog.run_tell (f : State → State) (s : State) : (Prog.tell f).run s = .ok ((), f s) := rfl
@[simp] theorem Prog.run_askBit (f : State → Bool × State) (s : State) : (Prog.askBit f).run s = .ok (f s) := rfl
@[simp] theorem Prog.run_askByte (f : State → Byte × State) (s : State) : (Prog.askByte f).run s = .ok (f s) := rfl
@[simp] theorem Prog.run_askBytes (f : State → List Byte × State) (s : State) : (Prog.askBytes f).run s = .ok (f s) := rfl
@[simp] theorem Prog.run_askCount (f : State → Nat × State) (s : State) : (Prog.askCount f).run s = .ok (f s) := rfl
@[simp] theorem Prog.run_askXcv (f : State → XcvResult × State) (s : State) : (Prog.askXcv f).run s = .ok (f s) := rfl
@[simp] theorem Prog.run_askCrc (f : State → CrcResult × State) (s : State) : (Prog.askCrc f).run s = .ok (f s) := rfl
@[simp] theorem Prog.run_askRecord (f : State → Option Record × State) (s : State) :
    (Prog.askRecord f).run s = .ok (f s) := rfl

/-- One program after another. -/
theorem Prog.run_bind (p : Prog α) (k : α → Prog β) (s : State) :
    (p.bind k).run s = match p.run s with
      | .ok q => (k q.1).run q.2
      | .error f => .error f := by
  induction p generalizing s with
  | ret a => rfl
  | raise f => rfl
  | step act next ih => exact ih _ _

theorem Prog.run_bind_ok {p : Prog α} {s t : State} {a : α} (h : p.run s = .ok (a, t)) (k : α → Prog β) :
    (p.bind k).run s = (k a).run t := by
  rw [Prog.run_bind, h]

theorem Prog.run_andThen_ok {p : Prog Unit} {s t : State} (h : p.run s = .ok ((), t)) (q : Prog β) :
    (p.andThen q).run s = q.run t := Prog.run_bind_ok h _

/-- A sequence that returns: its first part returned, and its second from there. -/
theorem Prog.run_bind_cases {p : Prog α} {k : α → Prog β} {s u : State} {b : β} (h : (p.bind k).run s = .ok (b, u)) :
    ∃ a t, p.run s = .ok (a, t) ∧ (k a).run t = .ok (b, u) := by
  rw [Prog.run_bind] at h
  split at h
  · next q hq => exact ⟨q.1, q.2, hq, h⟩
  · cases h

/-! ## Programs that cannot raise -/

/-- No path through the program raises a fault. -/
def Prog.Quiet : Prog α → Prop
  | .ret _ => True
  | .raise _ => False
  | .step _ next => ∀ a, (next a).Quiet

theorem Prog.Quiet.bind {p : Prog α} {k : α → Prog β} (hp : p.Quiet) (hk : ∀ a, (k a).Quiet) : (p.bind k).Quiet := by
  induction p with
  | ret a => exact hk a
  | raise f => exact hp
  | step act next ih => exact fun a => ih a (hp a)

/-- A program that cannot raise returns. -/
theorem Prog.Quiet.run {p : Prog α} (hp : p.Quiet) (s : State) : ∃ a t, p.run s = .ok (a, t) := by
  induction p generalizing s with
  | ret a => exact ⟨a, s, rfl⟩
  | raise f => exact hp.elim
  | step act next ih => exact ih _ (hp _) _

/-! ## Every step of a program -/

/-- Every atomic step of the program, on every path, is as `C` says. -/
def Prog.Each (C : (State → Answer × State) → Prop) : Prog α → Prop
  | .ret _ => True
  | .raise _ => True
  | .step act next => C act ∧ ∀ a, (next a).Each C

variable {C : (State → Answer × State) → Prop}

theorem Prog.Each.bind {p : Prog α} {k : α → Prog β} (hp : p.Each C) (hk : ∀ a, (k a).Each C) : (p.bind k).Each C := by
  induction p with
  | ret a => exact hk a
  | raise f => trivial
  | step act next ih => exact ⟨hp.1, fun a => ih a (hp.2 a)⟩

theorem Prog.Each.mono {C' : (State → Answer × State) → Prop} (h : ∀ f, C f → C' f) {p : Prog α} (hp : p.Each C) :
    p.Each C' := by
  induction p with
  | ret a => trivial
  | raise f => trivial
  | step act next ih => exact ⟨h _ hp.1, fun a => ih a (hp.2 a)⟩

theorem Prog.Each.resume {p : Prog α} (hp : p.Each C) (as : List Answer) : (Prog.resume as p).Each C := by
  induction as generalizing p with
  | nil => exact hp
  | cons a as ih =>
    cases p with
    | ret x => exact hp
    | raise f => exact hp
    | step act next => exact ih (hp.2 a)

/-- A relation that holds over every step, and composes, holds over the run. -/
theorem Prog.Each.run {R : State → State → Prop} (refl : ∀ s, R s s) (trans : ∀ s t u, R s t → R t u → R s u)
    {p : Prog α} (hp : p.Each (fun f => ∀ s, R s (f s).2)) {s t : State} {a : α} (h : p.run s = .ok (a, t)) : R s t := by
  induction p generalizing s with
  | ret b => cases h; exact refl _
  | raise f => cases h
  | step act next ih => exact trans _ _ _ (hp.1 s) (ih _ (hp.2 _) h)

/-! ## Resuming -/

theorem Prog.resume_append (as bs : List Answer) (p : Prog α) :
    Prog.resume (as ++ bs) p = Prog.resume bs (Prog.resume as p) := by
  induction as generalizing p with
  | nil => rfl
  | cons a as ih =>
    cases p with
    | step act next => exact ih _
    | ret x => cases bs <;> rfl
    | raise f => cases bs <;> rfl

/-- After one more step, what is left is what followed its answer. -/
theorem remaining_snoc {c : Config} {p : Position} {act : State → Answer × State} {next : Answer → Prog OpResult}
    (h : remaining c p = .step act next) (a : Answer) :
    remaining c { p with answers := p.answers ++ [a] } = next a := by
  unfold remaining at h ⊢
  rw [Prog.resume_append, h]; rfl

/-! ## Arrivals between steps -/

theorem Disturbed.refl (s : State) : Disturbed s s := ⟨rfl⟩

theorem Disturbed.trans {s t u : State} (h : Disturbed s t) (k : Disturbed t u) : Disturbed s u :=
  ⟨by rw [k.same, h.same]⟩

/-- What arrives only disturbs. -/
theorem Disturbed.arrive (a : Arrival) (s : State) : Disturbed s (arrive a s) := by
  cases a
  · simp only [Machine.arrive, takeEdge]
    split
    · split <;> exact ⟨rfl⟩
    · exact ⟨rfl⟩
  · exact ⟨rfl⟩
  · exact ⟨rfl⟩

theorem Disturbed.cfg {s u : State} (h : Disturbed s u) : u.cfg = s.cfg := by rw [h.same]
theorem Disturbed.record {s u : State} (h : Disturbed s u) : u.record = s.record := by rw [h.same]
theorem Disturbed.loaded {s u : State} (h : Disturbed s u) : u.loaded = s.loaded := by rw [h.same]
theorem Disturbed.held {s u : State} (h : Disturbed s u) : u.held = s.held := by rw [h.same]; rfl
theorem Disturbed.durable {s u : State} (h : Disturbed s u) : u.durable = s.durable := by rw [h.same]
theorem Disturbed.link {s u : State} (h : Disturbed s u) : u.link = s.link := by rw [h.same]
theorem Disturbed.tag {s u : State} (h : Disturbed s u) : u.tag = s.tag := by rw [h.same]
theorem Disturbed.sim {s u : State} (h : Disturbed s u) : u.sim = s.sim := by rw [h.same]
theorem Disturbed.attached {s u : State} (h : Disturbed s u) : u.irq.attached = s.irq.attached := by rw [h.same]
theorem Disturbed.booted {s u : State} (h : Disturbed s u) : u.seq.booted = s.seq.booted := by rw [h.same]
theorem Disturbed.phase {s u : State} (h : Disturbed s u) : u.seq.phase = s.seq.phase := by rw [h.same]

/-- R45 does not speak of what arrivals change. -/
theorem State.Settled.disturbed {s u : State} (hs : s.Settled) (h : Disturbed s u) : u.Settled := by
  obtain ⟨h1, h2, h3, h4, h5⟩ := hs
  rw [h.same]; exact ⟨h1, h2, h3, h4, h5⟩

variable {J : State → Prop} {Q Q' : α → State → Prop}

theorem Prog.Ends.mono {p : Prog α} {s : State} (hp : p.Ends J Q s) (h : ∀ a t, Q a t → Q' a t) : p.Ends J Q' s := by
  induction p generalizing s with
  | ret a => exact h _ _ hp
  | raise f => trivial
  | step act next ih => exact fun u hd hj => ⟨(hp u hd hj).1, ih _ (hp u hd hj).2⟩

theorem Prog.ends_bind (p : Prog α) (k : α → Prog β) (R : β → State → Prop) (s : State) :
    (p.bind k).Ends J R s ↔ p.Ends J (fun a t => (k a).Ends J R t) s := by
  induction p generalizing s with
  | ret a => exact Iff.rfl
  | raise f => exact Iff.rfl
  | step act next ih => simp only [Prog.bind, Prog.Ends, ih]

/-- A first part that ends in `P`, and a second that goes on from `P`. -/
theorem Prog.Ends.bind {p : Prog α} {k : α → Prog β} {R : β → State → Prop} {s : State} (hp : p.Ends J Q s)
    (hk : ∀ a t, Q a t → (k a).Ends J R t) : (p.bind k).Ends J R s :=
  (Prog.ends_bind p k R s).mpr (hp.mono hk)

theorem Prog.Ends.andThen {p : Prog Unit} {k : Prog β} {P : State → Prop} {R : β → State → Prop} {s : State}
    (hp : p.Ends J (fun _ => P) s) (hk : ∀ t, P t → k.Ends J R t) : (p.andThen k).Ends J R s :=
  hp.bind fun _ => hk

/-- Further arrivals change nothing, if they do not touch what the program ends in. -/
theorem Prog.Ends.disturbed {p : Prog α} {s u : State} (hp : p.Ends J Q s) (h : Disturbed s u)
    (hQ : ∀ a t v, Q a t → Disturbed t v → Q a v) : p.Ends J Q u := by
  cases p with
  | ret a => exact hQ _ _ _ hp h
  | raise f => trivial
  | step act next => exact fun v hv => hp v (h.trans hv)

/-- Running to the end without anything arriving is one of the ways. -/
theorem Prog.Ends.run {p : Prog α} {s t : State} {a : α} (hj : J s) (hp : p.Ends J Q s) (h : p.run s = .ok (a, t)) :
    J t ∧ Q a t := by
  induction p generalizing s with
  | ret b => cases h; exact ⟨hj, hp⟩
  | raise f => cases h
  | step act next ih => exact ih _ (hp s (.refl s) hj).1 (hp s (.refl s) hj).2 h

theorem Prog.ends_tell {f : State → State} {R : Unit → State → Prop} {s : State} :
    (Prog.tell f).Ends J R s ↔ ∀ u, Disturbed s u → J u → J (f u) ∧ R () (f u) := Iff.rfl

theorem Prog.ends_askBit {f : State → Bool × State} {R : Bool → State → Prop} {s : State} :
    (Prog.askBit f).Ends J R s ↔ ∀ u, Disturbed s u → J u → J (f u).2 ∧ R (f u).1 (f u).2 := Iff.rfl

theorem Prog.ends_askBytes {f : State → List Byte × State} {R : List Byte → State → Prop} {s : State} :
    (Prog.askBytes f).Ends J R s ↔ ∀ u, Disturbed s u → J u → J (f u).2 ∧ R (f u).1 (f u).2 := Iff.rfl

theorem Prog.ends_askCount {f : State → Nat × State} {R : Nat → State → Prop} {s : State} :
    (Prog.askCount f).Ends J R s ↔ ∀ u, Disturbed s u → J u → J (f u).2 ∧ R (f u).1 (f u).2 := Iff.rfl

theorem Prog.ends_askRecord {f : State → Option Record × State} {R : Option Record → State → Prop} {s : State} :
    (Prog.askRecord f).Ends J R s ↔ ∀ u, Disturbed s u → J u → J (f u).2 ∧ R (f u).1 (f u).2 := Iff.rfl

/-! ## Whole operations -/

theorem done_next {r : OpResult} {s t : State} (h : done r s = .next t) : t = State.returning r s := by
  simpa [done, eq_comm] using h

/-- An operation that completes returned a value in some state. -/
theorem perform_next {p : Prog OpResult} {s t : State} (h : perform p s = .next t) :
    ∃ r u, p.run s = .ok (r, u) ∧ t = State.returning r u := by
  unfold perform at h
  split at h
  · next q hq => exact ⟨q.1, q.2, hq, done_next h⟩
  · cases h

theorem perform_ok {p : Prog OpResult} {s t : State} {r : OpResult} (h : p.run s = .ok (r, t)) :
    perform p s = .next (State.returning r t) := by
  rw [perform, h]; rfl

theorem perform_error {p : Prog OpResult} {s : State} {f : Fault} (h : p.run s = .error f) : perform p s = .fault f := by
  rw [perform, h]

/-- The meaning of every instruction runs its pseudocode. -/
theorem exec_eq_perform (i : Instr) (s : State) : exec i s = perform (program s.cfg i) s := by
  cases i <;> rfl

end Sys2Proof.Machine
end

