-- ==== Sys2Proof/Laws/State.lean ====
section
/-! SUPPORT. What each small update does to each field of the state: one lemma per field per update, true by rfl, so that no
later proof unfolds a record update. -/

namespace Sys2Proof.Machine

/-! ## State.emit -/

@[simp] theorem State.emit_cfg (e : LinkEvent) (s : State) : (State.emit e s).cfg = s.cfg := rfl
@[simp] theorem State.emit_record (e : LinkEvent) (s : State) : (State.emit e s).record = s.record := rfl
@[simp] theorem State.emit_loaded (e : LinkEvent) (s : State) : (State.emit e s).loaded = s.loaded := rfl
@[simp] theorem State.emit_tag (e : LinkEvent) (s : State) : (State.emit e s).tag = s.tag := rfl
@[simp] theorem State.emit_sim (e : LinkEvent) (s : State) : (State.emit e s).sim = s.sim := rfl
@[simp] theorem State.emit_pfl (e : LinkEvent) (s : State) : (State.emit e s).pfl = s.pfl := rfl
@[simp] theorem State.emit_irq (e : LinkEvent) (s : State) : (State.emit e s).irq = s.irq := rfl
@[simp] theorem State.emit_link (e : LinkEvent) (s : State) : (State.emit e s).link = { s.link with hist := s.link.hist ++ [e] } := rfl
@[simp] theorem State.emit_eng (e : LinkEvent) (s : State) : (State.emit e s).eng = s.eng := rfl
@[simp] theorem State.emit_act (e : LinkEvent) (s : State) : (State.emit e s).act = s.act := rfl
@[simp] theorem State.emit_seq (e : LinkEvent) (s : State) : (State.emit e s).seq = s.seq := rfl
@[simp] theorem State.emit_inp (e : LinkEvent) (s : State) : (State.emit e s).inp = s.inp := rfl
@[simp] theorem State.emit_durable (e : LinkEvent) (s : State) : (State.emit e s).durable = s.durable := rfl
@[simp] theorem State.emit_writes (e : LinkEvent) (s : State) : (State.emit e s).writes = s.writes := rfl
@[simp] theorem State.emit_port (e : LinkEvent) (s : State) : (State.emit e s).port = s.port := rfl
@[simp] theorem State.emit_moves (e : LinkEvent) (s : State) : (State.emit e s).moves = s.moves := rfl
@[simp] theorem State.emit_draws (e : LinkEvent) (s : State) : (State.emit e s).draws = s.draws := rfl
@[simp] theorem State.emit_result (e : LinkEvent) (s : State) : (State.emit e s).result = s.result := rfl
@[simp] theorem State.emit_held (e : LinkEvent) (s : State) : (State.emit e s).held = s.held := rfl

/-! ## State.driveCs -/

@[simp] theorem State.driveCs_cfg (l : Line) (s : State) : (State.driveCs l s).cfg = s.cfg := rfl
@[simp] theorem State.driveCs_record (l : Line) (s : State) : (State.driveCs l s).record = s.record := rfl
@[simp] theorem State.driveCs_loaded (l : Line) (s : State) : (State.driveCs l s).loaded = s.loaded := rfl
@[simp] theorem State.driveCs_tag (l : Line) (s : State) : (State.driveCs l s).tag = s.tag := rfl
@[simp] theorem State.driveCs_sim (l : Line) (s : State) : (State.driveCs l s).sim = s.sim := rfl
@[simp] theorem State.driveCs_pfl (l : Line) (s : State) : (State.driveCs l s).pfl = s.pfl := rfl
@[simp] theorem State.driveCs_irq (l : Line) (s : State) : (State.driveCs l s).irq = s.irq := rfl
@[simp] theorem State.driveCs_link (l : Line) (s : State) : (State.driveCs l s).link = { s.link with cs := l, hist := s.link.hist ++ [.cs l] } := rfl
@[simp] theorem State.driveCs_eng (l : Line) (s : State) : (State.driveCs l s).eng = s.eng := rfl
@[simp] theorem State.driveCs_act (l : Line) (s : State) : (State.driveCs l s).act = s.act := rfl
@[simp] theorem State.driveCs_seq (l : Line) (s : State) : (State.driveCs l s).seq = s.seq := rfl
@[simp] theorem State.driveCs_inp (l : Line) (s : State) : (State.driveCs l s).inp = s.inp := rfl
@[simp] theorem State.driveCs_durable (l : Line) (s : State) : (State.driveCs l s).durable = s.durable := rfl
@[simp] theorem State.driveCs_writes (l : Line) (s : State) : (State.driveCs l s).writes = s.writes := rfl
@[simp] theorem State.driveCs_port (l : Line) (s : State) : (State.driveCs l s).port = s.port := rfl
@[simp] theorem State.driveCs_moves (l : Line) (s : State) : (State.driveCs l s).moves = s.moves := rfl
@[simp] theorem State.driveCs_draws (l : Line) (s : State) : (State.driveCs l s).draws = s.draws := rfl
@[simp] theorem State.driveCs_result (l : Line) (s : State) : (State.driveCs l s).result = s.result := rfl
@[simp] theorem State.driveCs_held (l : Line) (s : State) : (State.driveCs l s).held = s.held := rfl

/-! ## State.driveRst -/

@[simp] theorem State.driveRst_cfg (l : Line) (s : State) : (State.driveRst l s).cfg = s.cfg := rfl
@[simp] theorem State.driveRst_record (l : Line) (s : State) : (State.driveRst l s).record = s.record := rfl
@[simp] theorem State.driveRst_loaded (l : Line) (s : State) : (State.driveRst l s).loaded = s.loaded := rfl
@[simp] theorem State.driveRst_tag (l : Line) (s : State) : (State.driveRst l s).tag = s.tag := rfl
@[simp] theorem State.driveRst_sim (l : Line) (s : State) : (State.driveRst l s).sim = s.sim := rfl
@[simp] theorem State.driveRst_pfl (l : Line) (s : State) : (State.driveRst l s).pfl = s.pfl := rfl
@[simp] theorem State.driveRst_irq (l : Line) (s : State) : (State.driveRst l s).irq = s.irq := rfl
@[simp] theorem State.driveRst_link (l : Line) (s : State) : (State.driveRst l s).link = { s.link with rst := l, hist := s.link.hist ++ [.rst l] } := rfl
@[simp] theorem State.driveRst_eng (l : Line) (s : State) : (State.driveRst l s).eng = s.eng := rfl
@[simp] theorem State.driveRst_act (l : Line) (s : State) : (State.driveRst l s).act = s.act := rfl
@[simp] theorem State.driveRst_seq (l : Line) (s : State) : (State.driveRst l s).seq = s.seq := rfl
@[simp] theorem State.driveRst_inp (l : Line) (s : State) : (State.driveRst l s).inp = s.inp := rfl
@[simp] theorem State.driveRst_durable (l : Line) (s : State) : (State.driveRst l s).durable = s.durable := rfl
@[simp] theorem State.driveRst_writes (l : Line) (s : State) : (State.driveRst l s).writes = s.writes := rfl
@[simp] theorem State.driveRst_port (l : Line) (s : State) : (State.driveRst l s).port = s.port := rfl
@[simp] theorem State.driveRst_moves (l : Line) (s : State) : (State.driveRst l s).moves = s.moves := rfl
@[simp] theorem State.driveRst_draws (l : Line) (s : State) : (State.driveRst l s).draws = s.draws := rfl
@[simp] theorem State.driveRst_result (l : Line) (s : State) : (State.driveRst l s).result = s.result := rfl
@[simp] theorem State.driveRst_held (l : Line) (s : State) : (State.driveRst l s).held = s.held := rfl

/-! ## State.setLast -/

@[simp] theorem State.setLast_cfg (c : ResultCode) (s : State) : (State.setLast c s).cfg = s.cfg := rfl
@[simp] theorem State.setLast_record (c : ResultCode) (s : State) : (State.setLast c s).record = s.record := rfl
@[simp] theorem State.setLast_loaded (c : ResultCode) (s : State) : (State.setLast c s).loaded = s.loaded := rfl
@[simp] theorem State.setLast_tag (c : ResultCode) (s : State) : (State.setLast c s).tag = s.tag := rfl
@[simp] theorem State.setLast_sim (c : ResultCode) (s : State) : (State.setLast c s).sim = s.sim := rfl
@[simp] theorem State.setLast_pfl (c : ResultCode) (s : State) : (State.setLast c s).pfl = s.pfl := rfl
@[simp] theorem State.setLast_irq (c : ResultCode) (s : State) : (State.setLast c s).irq = s.irq := rfl
@[simp] theorem State.setLast_link (c : ResultCode) (s : State) : (State.setLast c s).link = s.link := rfl
@[simp] theorem State.setLast_eng (c : ResultCode) (s : State) : (State.setLast c s).eng = { lastResult := c } := rfl
@[simp] theorem State.setLast_act (c : ResultCode) (s : State) : (State.setLast c s).act = s.act := rfl
@[simp] theorem State.setLast_seq (c : ResultCode) (s : State) : (State.setLast c s).seq = s.seq := rfl
@[simp] theorem State.setLast_inp (c : ResultCode) (s : State) : (State.setLast c s).inp = s.inp := rfl
@[simp] theorem State.setLast_durable (c : ResultCode) (s : State) : (State.setLast c s).durable = s.durable := rfl
@[simp] theorem State.setLast_writes (c : ResultCode) (s : State) : (State.setLast c s).writes = s.writes := rfl
@[simp] theorem State.setLast_port (c : ResultCode) (s : State) : (State.setLast c s).port = s.port := rfl
@[simp] theorem State.setLast_moves (c : ResultCode) (s : State) : (State.setLast c s).moves = s.moves := rfl
@[simp] theorem State.setLast_draws (c : ResultCode) (s : State) : (State.setLast c s).draws = s.draws := rfl
@[simp] theorem State.setLast_result (c : ResultCode) (s : State) : (State.setLast c s).result = s.result := rfl
@[simp] theorem State.setLast_held (c : ResultCode) (s : State) : (State.setLast c s).held = s.held := rfl

/-! ## State.command -/

@[simp] theorem State.command_cfg (c : ActCommand) (s : State) : (State.command c s).cfg = s.cfg := rfl
@[simp] theorem State.command_record (c : ActCommand) (s : State) : (State.command c s).record = s.record := rfl
@[simp] theorem State.command_loaded (c : ActCommand) (s : State) : (State.command c s).loaded = s.loaded := rfl
@[simp] theorem State.command_tag (c : ActCommand) (s : State) : (State.command c s).tag = s.tag := rfl
@[simp] theorem State.command_sim (c : ActCommand) (s : State) : (State.command c s).sim = s.sim := rfl
@[simp] theorem State.command_pfl (c : ActCommand) (s : State) : (State.command c s).pfl = s.pfl := rfl
@[simp] theorem State.command_irq (c : ActCommand) (s : State) : (State.command c s).irq = s.irq := rfl
@[simp] theorem State.command_link (c : ActCommand) (s : State) : (State.command c s).link = s.link := rfl
@[simp] theorem State.command_eng (c : ActCommand) (s : State) : (State.command c s).eng = s.eng := rfl
@[simp] theorem State.command_act (c : ActCommand) (s : State) : (State.command c s).act = { hist := s.act.hist ++ [c] } := rfl
@[simp] theorem State.command_seq (c : ActCommand) (s : State) : (State.command c s).seq = s.seq := rfl
@[simp] theorem State.command_inp (c : ActCommand) (s : State) : (State.command c s).inp = s.inp := rfl
@[simp] theorem State.command_durable (c : ActCommand) (s : State) : (State.command c s).durable = s.durable := rfl
@[simp] theorem State.command_writes (c : ActCommand) (s : State) : (State.command c s).writes = s.writes := rfl
@[simp] theorem State.command_port (c : ActCommand) (s : State) : (State.command c s).port = s.port := rfl
@[simp] theorem State.command_moves (c : ActCommand) (s : State) : (State.command c s).moves = s.moves := rfl
@[simp] theorem State.command_draws (c : ActCommand) (s : State) : (State.command c s).draws = s.draws := rfl
@[simp] theorem State.command_result (c : ActCommand) (s : State) : (State.command c s).result = s.result := rfl
@[simp] theorem State.command_held (c : ActCommand) (s : State) : (State.command c s).held = s.held := rfl

/-! ## State.returning -/

@[simp] theorem State.returning_cfg (r : OpResult) (s : State) : (State.returning r s).cfg = s.cfg := rfl
@[simp] theorem State.returning_record (r : OpResult) (s : State) : (State.returning r s).record = s.record := rfl
@[simp] theorem State.returning_loaded (r : OpResult) (s : State) : (State.returning r s).loaded = s.loaded := rfl
@[simp] theorem State.returning_tag (r : OpResult) (s : State) : (State.returning r s).tag = s.tag := rfl
@[simp] theorem State.returning_sim (r : OpResult) (s : State) : (State.returning r s).sim = s.sim := rfl
@[simp] theorem State.returning_pfl (r : OpResult) (s : State) : (State.returning r s).pfl = s.pfl := rfl
@[simp] theorem State.returning_irq (r : OpResult) (s : State) : (State.returning r s).irq = s.irq := rfl
@[simp] theorem State.returning_link (r : OpResult) (s : State) : (State.returning r s).link = s.link := rfl
@[simp] theorem State.returning_eng (r : OpResult) (s : State) : (State.returning r s).eng = s.eng := rfl
@[simp] theorem State.returning_act (r : OpResult) (s : State) : (State.returning r s).act = s.act := rfl
@[simp] theorem State.returning_seq (r : OpResult) (s : State) : (State.returning r s).seq = s.seq := rfl
@[simp] theorem State.returning_inp (r : OpResult) (s : State) : (State.returning r s).inp = s.inp := rfl
@[simp] theorem State.returning_durable (r : OpResult) (s : State) : (State.returning r s).durable = s.durable := rfl
@[simp] theorem State.returning_writes (r : OpResult) (s : State) : (State.returning r s).writes = s.writes := rfl
@[simp] theorem State.returning_port (r : OpResult) (s : State) : (State.returning r s).port = s.port := rfl
@[simp] theorem State.returning_moves (r : OpResult) (s : State) : (State.returning r s).moves = s.moves := rfl
@[simp] theorem State.returning_draws (r : OpResult) (s : State) : (State.returning r s).draws = s.draws := rfl
@[simp] theorem State.returning_result (r : OpResult) (s : State) : (State.returning r s).result = some r := rfl
@[simp] theorem State.returning_held (r : OpResult) (s : State) : (State.returning r s).held = s.held := rfl

/-! ## State.memWrite -/

@[simp] theorem State.memWrite_cfg (off : Nat) (bs : List Byte) (s : State) : (State.memWrite off bs s).cfg = s.cfg := rfl
@[simp] theorem State.memWrite_record (off : Nat) (bs : List Byte) (s : State) : (State.memWrite off bs s).record = s.record := rfl
@[simp] theorem State.memWrite_loaded (off : Nat) (bs : List Byte) (s : State) : (State.memWrite off bs s).loaded = s.loaded := rfl
@[simp] theorem State.memWrite_tag (off : Nat) (bs : List Byte) (s : State) : (State.memWrite off bs s).tag = s.tag := rfl
@[simp] theorem State.memWrite_sim (off : Nat) (bs : List Byte) (s : State) : (State.memWrite off bs s).sim = s.sim := rfl
@[simp] theorem State.memWrite_pfl (off : Nat) (bs : List Byte) (s : State) : (State.memWrite off bs s).pfl = s.pfl := rfl
@[simp] theorem State.memWrite_irq (off : Nat) (bs : List Byte) (s : State) : (State.memWrite off bs s).irq = s.irq := rfl
@[simp] theorem State.memWrite_link (off : Nat) (bs : List Byte) (s : State) : (State.memWrite off bs s).link = s.link := rfl
@[simp] theorem State.memWrite_eng (off : Nat) (bs : List Byte) (s : State) : (State.memWrite off bs s).eng = s.eng := rfl
@[simp] theorem State.memWrite_act (off : Nat) (bs : List Byte) (s : State) : (State.memWrite off bs s).act = s.act := rfl
@[simp] theorem State.memWrite_seq (off : Nat) (bs : List Byte) (s : State) : (State.memWrite off bs s).seq = s.seq := rfl
@[simp] theorem State.memWrite_inp (off : Nat) (bs : List Byte) (s : State) : (State.memWrite off bs s).inp = s.inp := rfl
@[simp] theorem State.memWrite_durable (off : Nat) (bs : List Byte) (s : State) : (State.memWrite off bs s).durable = Memory.writeBytes off bs s.durable := rfl
@[simp] theorem State.memWrite_writes (off : Nat) (bs : List Byte) (s : State) : (State.memWrite off bs s).writes = s.writes ++ [(off, bs)] := rfl
@[simp] theorem State.memWrite_port (off : Nat) (bs : List Byte) (s : State) : (State.memWrite off bs s).port = s.port := rfl
@[simp] theorem State.memWrite_moves (off : Nat) (bs : List Byte) (s : State) : (State.memWrite off bs s).moves = s.moves := rfl
@[simp] theorem State.memWrite_draws (off : Nat) (bs : List Byte) (s : State) : (State.memWrite off bs s).draws = s.draws := rfl
@[simp] theorem State.memWrite_result (off : Nat) (bs : List Byte) (s : State) : (State.memWrite off bs s).result = s.result := rfl
@[simp] theorem State.memWrite_held (off : Nat) (bs : List Byte) (s : State) : (State.memWrite off bs s).held = s.held := rfl

/-! ## State.loadCopy -/

@[simp] theorem State.loadCopy_cfg (r : Record) (s : State) : (State.loadCopy r s).cfg = s.cfg := rfl
@[simp] theorem State.loadCopy_record (r : Record) (s : State) : (State.loadCopy r s).record = r := rfl
@[simp] theorem State.loadCopy_loaded (r : Record) (s : State) : (State.loadCopy r s).loaded = true := rfl
@[simp] theorem State.loadCopy_tag (r : Record) (s : State) : (State.loadCopy r s).tag = s.tag := rfl
@[simp] theorem State.loadCopy_sim (r : Record) (s : State) : (State.loadCopy r s).sim = s.sim := rfl
@[simp] theorem State.loadCopy_pfl (r : Record) (s : State) : (State.loadCopy r s).pfl = s.pfl := rfl
@[simp] theorem State.loadCopy_irq (r : Record) (s : State) : (State.loadCopy r s).irq = s.irq := rfl
@[simp] theorem State.loadCopy_link (r : Record) (s : State) : (State.loadCopy r s).link = s.link := rfl
@[simp] theorem State.loadCopy_eng (r : Record) (s : State) : (State.loadCopy r s).eng = s.eng := rfl
@[simp] theorem State.loadCopy_act (r : Record) (s : State) : (State.loadCopy r s).act = s.act := rfl
@[simp] theorem State.loadCopy_seq (r : Record) (s : State) : (State.loadCopy r s).seq = s.seq := rfl
@[simp] theorem State.loadCopy_inp (r : Record) (s : State) : (State.loadCopy r s).inp = s.inp := rfl
@[simp] theorem State.loadCopy_durable (r : Record) (s : State) : (State.loadCopy r s).durable = s.durable := rfl
@[simp] theorem State.loadCopy_writes (r : Record) (s : State) : (State.loadCopy r s).writes = s.writes := rfl
@[simp] theorem State.loadCopy_port (r : Record) (s : State) : (State.loadCopy r s).port = s.port := rfl
@[simp] theorem State.loadCopy_moves (r : Record) (s : State) : (State.loadCopy r s).moves = s.moves := rfl
@[simp] theorem State.loadCopy_draws (r : Record) (s : State) : (State.loadCopy r s).draws = s.draws := rfl
@[simp] theorem State.loadCopy_result (r : Record) (s : State) : (State.loadCopy r s).result = s.result := rfl
@[simp] theorem State.loadCopy_held (r : Record) (s : State) : (State.loadCopy r s).held = some r := rfl

/-! ## State.editRecord -/

@[simp] theorem State.editRecord_cfg (f : Record → Record) (s : State) : (State.editRecord f s).cfg = s.cfg := rfl
@[simp] theorem State.editRecord_record (f : Record → Record) (s : State) : (State.editRecord f s).record = f s.record := rfl
@[simp] theorem State.editRecord_loaded (f : Record → Record) (s : State) : (State.editRecord f s).loaded = s.loaded := rfl
@[simp] theorem State.editRecord_tag (f : Record → Record) (s : State) : (State.editRecord f s).tag = s.tag := rfl
@[simp] theorem State.editRecord_sim (f : Record → Record) (s : State) : (State.editRecord f s).sim = s.sim := rfl
@[simp] theorem State.editRecord_pfl (f : Record → Record) (s : State) : (State.editRecord f s).pfl = s.pfl := rfl
@[simp] theorem State.editRecord_irq (f : Record → Record) (s : State) : (State.editRecord f s).irq = s.irq := rfl
@[simp] theorem State.editRecord_link (f : Record → Record) (s : State) : (State.editRecord f s).link = s.link := rfl
@[simp] theorem State.editRecord_eng (f : Record → Record) (s : State) : (State.editRecord f s).eng = s.eng := rfl
@[simp] theorem State.editRecord_act (f : Record → Record) (s : State) : (State.editRecord f s).act = s.act := rfl
@[simp] theorem State.editRecord_seq (f : Record → Record) (s : State) : (State.editRecord f s).seq = s.seq := rfl
@[simp] theorem State.editRecord_inp (f : Record → Record) (s : State) : (State.editRecord f s).inp = s.inp := rfl
@[simp] theorem State.editRecord_durable (f : Record → Record) (s : State) : (State.editRecord f s).durable = s.durable := rfl
@[simp] theorem State.editRecord_writes (f : Record → Record) (s : State) : (State.editRecord f s).writes = s.writes := rfl
@[simp] theorem State.editRecord_port (f : Record → Record) (s : State) : (State.editRecord f s).port = s.port := rfl
@[simp] theorem State.editRecord_moves (f : Record → Record) (s : State) : (State.editRecord f s).moves = s.moves := rfl
@[simp] theorem State.editRecord_draws (f : Record → Record) (s : State) : (State.editRecord f s).draws = s.draws := rfl
@[simp] theorem State.editRecord_result (f : Record → Record) (s : State) : (State.editRecord f s).result = s.result := rfl
@[simp] theorem State.editRecord_held (f : Record → Record) (s : State) : (State.editRecord f s).held = s.held.map f := by
  unfold State.held State.editRecord; split <;> rfl

/-! ## State.storeCopy -/

@[simp] theorem State.storeCopy_cfg (s : State) : (State.storeCopy s).cfg = s.cfg := rfl
@[simp] theorem State.storeCopy_record (s : State) : (State.storeCopy s).record = s.record := rfl
@[simp] theorem State.storeCopy_loaded (s : State) : (State.storeCopy s).loaded = s.loaded := rfl
@[simp] theorem State.storeCopy_tag (s : State) : (State.storeCopy s).tag = s.tag := rfl
@[simp] theorem State.storeCopy_sim (s : State) : (State.storeCopy s).sim = s.sim := rfl
@[simp] theorem State.storeCopy_pfl (s : State) : (State.storeCopy s).pfl = s.pfl := rfl
@[simp] theorem State.storeCopy_irq (s : State) : (State.storeCopy s).irq = s.irq := rfl
@[simp] theorem State.storeCopy_link (s : State) : (State.storeCopy s).link = s.link := rfl
@[simp] theorem State.storeCopy_eng (s : State) : (State.storeCopy s).eng = s.eng := rfl
@[simp] theorem State.storeCopy_act (s : State) : (State.storeCopy s).act = s.act := rfl
@[simp] theorem State.storeCopy_seq (s : State) : (State.storeCopy s).seq = s.seq := rfl
@[simp] theorem State.storeCopy_inp (s : State) : (State.storeCopy s).inp = s.inp := rfl
@[simp] theorem State.storeCopy_durable (s : State) : (State.storeCopy s).durable = Memory.writeBytes Config.recordOffset s.record.bytes s.durable := rfl
@[simp] theorem State.storeCopy_writes (s : State) : (State.storeCopy s).writes = s.writes ++ [(Config.recordOffset, s.record.bytes)] := rfl
@[simp] theorem State.storeCopy_port (s : State) : (State.storeCopy s).port = s.port := rfl
@[simp] theorem State.storeCopy_moves (s : State) : (State.storeCopy s).moves = s.moves := rfl
@[simp] theorem State.storeCopy_draws (s : State) : (State.storeCopy s).draws = s.draws := rfl
@[simp] theorem State.storeCopy_result (s : State) : (State.storeCopy s).result = s.result := rfl
@[simp] theorem State.storeCopy_held (s : State) : (State.storeCopy s).held = s.held := rfl

/-! ## State.setPhase -/

@[simp] theorem State.setPhase_cfg (p : Phase) (s : State) : (State.setPhase p s).cfg = s.cfg := rfl
@[simp] theorem State.setPhase_record (p : Phase) (s : State) : (State.setPhase p s).record = s.record := rfl
@[simp] theorem State.setPhase_loaded (p : Phase) (s : State) : (State.setPhase p s).loaded = s.loaded := rfl
@[simp] theorem State.setPhase_tag (p : Phase) (s : State) : (State.setPhase p s).tag = s.tag := rfl
@[simp] theorem State.setPhase_sim (p : Phase) (s : State) : (State.setPhase p s).sim = s.sim := rfl
@[simp] theorem State.setPhase_pfl (p : Phase) (s : State) : (State.setPhase p s).pfl = s.pfl := rfl
@[simp] theorem State.setPhase_irq (p : Phase) (s : State) : (State.setPhase p s).irq = s.irq := rfl
@[simp] theorem State.setPhase_link (p : Phase) (s : State) : (State.setPhase p s).link = s.link := rfl
@[simp] theorem State.setPhase_eng (p : Phase) (s : State) : (State.setPhase p s).eng = s.eng := rfl
@[simp] theorem State.setPhase_act (p : Phase) (s : State) : (State.setPhase p s).act = s.act := rfl
@[simp] theorem State.setPhase_seq (p : Phase) (s : State) : (State.setPhase p s).seq = { s.seq with phase := p } := rfl
@[simp] theorem State.setPhase_inp (p : Phase) (s : State) : (State.setPhase p s).inp = s.inp := rfl
@[simp] theorem State.setPhase_durable (p : Phase) (s : State) : (State.setPhase p s).durable = s.durable := rfl
@[simp] theorem State.setPhase_writes (p : Phase) (s : State) : (State.setPhase p s).writes = s.writes := rfl
@[simp] theorem State.setPhase_port (p : Phase) (s : State) : (State.setPhase p s).port = s.port := rfl
@[simp] theorem State.setPhase_moves (p : Phase) (s : State) : (State.setPhase p s).moves = s.moves := rfl
@[simp] theorem State.setPhase_draws (p : Phase) (s : State) : (State.setPhase p s).draws = s.draws := rfl
@[simp] theorem State.setPhase_result (p : Phase) (s : State) : (State.setPhase p s).result = s.result := rfl
@[simp] theorem State.setPhase_held (p : Phase) (s : State) : (State.setPhase p s).held = s.held := rfl

/-! ## State.setBooted -/

@[simp] theorem State.setBooted_cfg (s : State) : (State.setBooted s).cfg = s.cfg := rfl
@[simp] theorem State.setBooted_record (s : State) : (State.setBooted s).record = s.record := rfl
@[simp] theorem State.setBooted_loaded (s : State) : (State.setBooted s).loaded = s.loaded := rfl
@[simp] theorem State.setBooted_tag (s : State) : (State.setBooted s).tag = s.tag := rfl
@[simp] theorem State.setBooted_sim (s : State) : (State.setBooted s).sim = s.sim := rfl
@[simp] theorem State.setBooted_pfl (s : State) : (State.setBooted s).pfl = s.pfl := rfl
@[simp] theorem State.setBooted_irq (s : State) : (State.setBooted s).irq = s.irq := rfl
@[simp] theorem State.setBooted_link (s : State) : (State.setBooted s).link = s.link := rfl
@[simp] theorem State.setBooted_eng (s : State) : (State.setBooted s).eng = s.eng := rfl
@[simp] theorem State.setBooted_act (s : State) : (State.setBooted s).act = s.act := rfl
@[simp] theorem State.setBooted_seq (s : State) : (State.setBooted s).seq = { s.seq with booted := true } := rfl
@[simp] theorem State.setBooted_inp (s : State) : (State.setBooted s).inp = s.inp := rfl
@[simp] theorem State.setBooted_durable (s : State) : (State.setBooted s).durable = s.durable := rfl
@[simp] theorem State.setBooted_writes (s : State) : (State.setBooted s).writes = s.writes := rfl
@[simp] theorem State.setBooted_port (s : State) : (State.setBooted s).port = s.port := rfl
@[simp] theorem State.setBooted_moves (s : State) : (State.setBooted s).moves = s.moves := rfl
@[simp] theorem State.setBooted_draws (s : State) : (State.setBooted s).draws = s.draws := rfl
@[simp] theorem State.setBooted_result (s : State) : (State.setBooted s).result = s.result := rfl
@[simp] theorem State.setBooted_held (s : State) : (State.setBooted s).held = s.held := rfl

/-! ## State.attach -/

@[simp] theorem State.attach_cfg (s : State) : (State.attach s).cfg = s.cfg := rfl
@[simp] theorem State.attach_record (s : State) : (State.attach s).record = s.record := rfl
@[simp] theorem State.attach_loaded (s : State) : (State.attach s).loaded = s.loaded := rfl
@[simp] theorem State.attach_tag (s : State) : (State.attach s).tag = s.tag := rfl
@[simp] theorem State.attach_sim (s : State) : (State.attach s).sim = s.sim := rfl
@[simp] theorem State.attach_pfl (s : State) : (State.attach s).pfl = s.pfl := rfl
@[simp] theorem State.attach_irq (s : State) : (State.attach s).irq = { s.irq with attached := true } := rfl
@[simp] theorem State.attach_link (s : State) : (State.attach s).link = s.link := rfl
@[simp] theorem State.attach_eng (s : State) : (State.attach s).eng = s.eng := rfl
@[simp] theorem State.attach_act (s : State) : (State.attach s).act = s.act := rfl
@[simp] theorem State.attach_seq (s : State) : (State.attach s).seq = s.seq := rfl
@[simp] theorem State.attach_inp (s : State) : (State.attach s).inp = s.inp := rfl
@[simp] theorem State.attach_durable (s : State) : (State.attach s).durable = s.durable := rfl
@[simp] theorem State.attach_writes (s : State) : (State.attach s).writes = s.writes := rfl
@[simp] theorem State.attach_port (s : State) : (State.attach s).port = s.port := rfl
@[simp] theorem State.attach_moves (s : State) : (State.attach s).moves = s.moves := rfl
@[simp] theorem State.attach_draws (s : State) : (State.attach s).draws = s.draws := rfl
@[simp] theorem State.attach_result (s : State) : (State.attach s).result = s.result := rfl
@[simp] theorem State.attach_held (s : State) : (State.attach s).held = s.held := rfl

/-! ## State.fillTag -/

@[simp] theorem State.fillTag_cfg (bs : List Byte) (s : State) : (State.fillTag bs s).cfg = s.cfg := rfl
@[simp] theorem State.fillTag_record (bs : List Byte) (s : State) : (State.fillTag bs s).record = s.record := rfl
@[simp] theorem State.fillTag_loaded (bs : List Byte) (s : State) : (State.fillTag bs s).loaded = s.loaded := rfl
@[simp] theorem State.fillTag_tag (bs : List Byte) (s : State) : (State.fillTag bs s).tag = { s.tag with bytes := bs } := rfl
@[simp] theorem State.fillTag_sim (bs : List Byte) (s : State) : (State.fillTag bs s).sim = s.sim := rfl
@[simp] theorem State.fillTag_pfl (bs : List Byte) (s : State) : (State.fillTag bs s).pfl = s.pfl := rfl
@[simp] theorem State.fillTag_irq (bs : List Byte) (s : State) : (State.fillTag bs s).irq = s.irq := rfl
@[simp] theorem State.fillTag_link (bs : List Byte) (s : State) : (State.fillTag bs s).link = s.link := rfl
@[simp] theorem State.fillTag_eng (bs : List Byte) (s : State) : (State.fillTag bs s).eng = s.eng := rfl
@[simp] theorem State.fillTag_act (bs : List Byte) (s : State) : (State.fillTag bs s).act = s.act := rfl
@[simp] theorem State.fillTag_seq (bs : List Byte) (s : State) : (State.fillTag bs s).seq = s.seq := rfl
@[simp] theorem State.fillTag_inp (bs : List Byte) (s : State) : (State.fillTag bs s).inp = s.inp := rfl
@[simp] theorem State.fillTag_durable (bs : List Byte) (s : State) : (State.fillTag bs s).durable = s.durable := rfl
@[simp] theorem State.fillTag_writes (bs : List Byte) (s : State) : (State.fillTag bs s).writes = s.writes := rfl
@[simp] theorem State.fillTag_port (bs : List Byte) (s : State) : (State.fillTag bs s).port = s.port := rfl
@[simp] theorem State.fillTag_moves (bs : List Byte) (s : State) : (State.fillTag bs s).moves = s.moves := rfl
@[simp] theorem State.fillTag_draws (bs : List Byte) (s : State) : (State.fillTag bs s).draws = s.draws := rfl
@[simp] theorem State.fillTag_result (bs : List Byte) (s : State) : (State.fillTag bs s).result = s.result := rfl
@[simp] theorem State.fillTag_held (bs : List Byte) (s : State) : (State.fillTag bs s).held = s.held := rfl

/-! ## State.setTagValid -/

@[simp] theorem State.setTagValid_cfg (b : Bool) (s : State) : (State.setTagValid b s).cfg = s.cfg := rfl
@[simp] theorem State.setTagValid_record (b : Bool) (s : State) : (State.setTagValid b s).record = s.record := rfl
@[simp] theorem State.setTagValid_loaded (b : Bool) (s : State) : (State.setTagValid b s).loaded = s.loaded := rfl
@[simp] theorem State.setTagValid_tag (b : Bool) (s : State) : (State.setTagValid b s).tag = { s.tag with valid := b } := rfl
@[simp] theorem State.setTagValid_sim (b : Bool) (s : State) : (State.setTagValid b s).sim = s.sim := rfl
@[simp] theorem State.setTagValid_pfl (b : Bool) (s : State) : (State.setTagValid b s).pfl = s.pfl := rfl
@[simp] theorem State.setTagValid_irq (b : Bool) (s : State) : (State.setTagValid b s).irq = s.irq := rfl
@[simp] theorem State.setTagValid_link (b : Bool) (s : State) : (State.setTagValid b s).link = s.link := rfl
@[simp] theorem State.setTagValid_eng (b : Bool) (s : State) : (State.setTagValid b s).eng = s.eng := rfl
@[simp] theorem State.setTagValid_act (b : Bool) (s : State) : (State.setTagValid b s).act = s.act := rfl
@[simp] theorem State.setTagValid_seq (b : Bool) (s : State) : (State.setTagValid b s).seq = s.seq := rfl
@[simp] theorem State.setTagValid_inp (b : Bool) (s : State) : (State.setTagValid b s).inp = s.inp := rfl
@[simp] theorem State.setTagValid_durable (b : Bool) (s : State) : (State.setTagValid b s).durable = s.durable := rfl
@[simp] theorem State.setTagValid_writes (b : Bool) (s : State) : (State.setTagValid b s).writes = s.writes := rfl
@[simp] theorem State.setTagValid_port (b : Bool) (s : State) : (State.setTagValid b s).port = s.port := rfl
@[simp] theorem State.setTagValid_moves (b : Bool) (s : State) : (State.setTagValid b s).moves = s.moves := rfl
@[simp] theorem State.setTagValid_draws (b : Bool) (s : State) : (State.setTagValid b s).draws = s.draws := rfl
@[simp] theorem State.setTagValid_result (b : Bool) (s : State) : (State.setTagValid b s).result = s.result := rfl
@[simp] theorem State.setTagValid_held (b : Bool) (s : State) : (State.setTagValid b s).held = s.held := rfl

/-! ## State.setLine -/

@[simp] theorem State.setLine_cfg (l : List Byte) (s : State) : (State.setLine l s).cfg = s.cfg := rfl
@[simp] theorem State.setLine_record (l : List Byte) (s : State) : (State.setLine l s).record = s.record := rfl
@[simp] theorem State.setLine_loaded (l : List Byte) (s : State) : (State.setLine l s).loaded = s.loaded := rfl
@[simp] theorem State.setLine_tag (l : List Byte) (s : State) : (State.setLine l s).tag = s.tag := rfl
@[simp] theorem State.setLine_sim (l : List Byte) (s : State) : (State.setLine l s).sim = { line := l } := rfl
@[simp] theorem State.setLine_pfl (l : List Byte) (s : State) : (State.setLine l s).pfl = s.pfl := rfl
@[simp] theorem State.setLine_irq (l : List Byte) (s : State) : (State.setLine l s).irq = s.irq := rfl
@[simp] theorem State.setLine_link (l : List Byte) (s : State) : (State.setLine l s).link = s.link := rfl
@[simp] theorem State.setLine_eng (l : List Byte) (s : State) : (State.setLine l s).eng = s.eng := rfl
@[simp] theorem State.setLine_act (l : List Byte) (s : State) : (State.setLine l s).act = s.act := rfl
@[simp] theorem State.setLine_seq (l : List Byte) (s : State) : (State.setLine l s).seq = s.seq := rfl
@[simp] theorem State.setLine_inp (l : List Byte) (s : State) : (State.setLine l s).inp = s.inp := rfl
@[simp] theorem State.setLine_durable (l : List Byte) (s : State) : (State.setLine l s).durable = s.durable := rfl
@[simp] theorem State.setLine_writes (l : List Byte) (s : State) : (State.setLine l s).writes = s.writes := rfl
@[simp] theorem State.setLine_port (l : List Byte) (s : State) : (State.setLine l s).port = s.port := rfl
@[simp] theorem State.setLine_moves (l : List Byte) (s : State) : (State.setLine l s).moves = s.moves := rfl
@[simp] theorem State.setLine_draws (l : List Byte) (s : State) : (State.setLine l s).draws = s.draws := rfl
@[simp] theorem State.setLine_result (l : List Byte) (s : State) : (State.setLine l s).result = s.result := rfl
@[simp] theorem State.setLine_held (l : List Byte) (s : State) : (State.setLine l s).held = s.held := rfl

/-! ## State.takeSecond -/

@[simp] theorem State.takeSecond_cfg (s : State) : (State.takeSecond s).cfg = s.cfg := rfl
@[simp] theorem State.takeSecond_record (s : State) : (State.takeSecond s).record = s.record := rfl
@[simp] theorem State.takeSecond_loaded (s : State) : (State.takeSecond s).loaded = s.loaded := rfl
@[simp] theorem State.takeSecond_tag (s : State) : (State.takeSecond s).tag = s.tag := rfl
@[simp] theorem State.takeSecond_sim (s : State) : (State.takeSecond s).sim = s.sim := rfl
@[simp] theorem State.takeSecond_pfl (s : State) : (State.takeSecond s).pfl = s.pfl := rfl
@[simp] theorem State.takeSecond_irq (s : State) : (State.takeSecond s).irq = s.irq := rfl
@[simp] theorem State.takeSecond_link (s : State) : (State.takeSecond s).link = s.link := rfl
@[simp] theorem State.takeSecond_eng (s : State) : (State.takeSecond s).eng = s.eng := rfl
@[simp] theorem State.takeSecond_act (s : State) : (State.takeSecond s).act = s.act := rfl
@[simp] theorem State.takeSecond_seq (s : State) : (State.takeSecond s).seq = s.seq := rfl
@[simp] theorem State.takeSecond_inp (s : State) : (State.takeSecond s).inp = { s.inp with ticks := s.inp.ticks - 1 } := rfl
@[simp] theorem State.takeSecond_durable (s : State) : (State.takeSecond s).durable = s.durable := rfl
@[simp] theorem State.takeSecond_writes (s : State) : (State.takeSecond s).writes = s.writes := rfl
@[simp] theorem State.takeSecond_port (s : State) : (State.takeSecond s).port = s.port := rfl
@[simp] theorem State.takeSecond_moves (s : State) : (State.takeSecond s).moves = s.moves := rfl
@[simp] theorem State.takeSecond_draws (s : State) : (State.takeSecond s).draws = s.draws := rfl
@[simp] theorem State.takeSecond_result (s : State) : (State.takeSecond s).result = s.result := rfl
@[simp] theorem State.takeSecond_held (s : State) : (State.takeSecond s).held = s.held := rfl

/-! ## State.idle -/

@[simp] theorem State.idle_cfg (s : State) : (State.idle s).cfg = s.cfg := rfl
@[simp] theorem State.idle_record (s : State) : (State.idle s).record = s.record := rfl
@[simp] theorem State.idle_loaded (s : State) : (State.idle s).loaded = s.loaded := rfl
@[simp] theorem State.idle_tag (s : State) : (State.idle s).tag = s.tag := rfl
@[simp] theorem State.idle_sim (s : State) : (State.idle s).sim = s.sim := rfl
@[simp] theorem State.idle_pfl (s : State) : (State.idle s).pfl = s.pfl := rfl
@[simp] theorem State.idle_irq (s : State) : (State.idle s).irq = s.irq := rfl
@[simp] theorem State.idle_link (s : State) : (State.idle s).link = s.link := rfl
@[simp] theorem State.idle_eng (s : State) : (State.idle s).eng = s.eng := rfl
@[simp] theorem State.idle_act (s : State) : (State.idle s).act = s.act := rfl
@[simp] theorem State.idle_seq (s : State) : (State.idle s).seq = { s.seq with position := none } := rfl
@[simp] theorem State.idle_inp (s : State) : (State.idle s).inp = s.inp := rfl
@[simp] theorem State.idle_durable (s : State) : (State.idle s).durable = s.durable := rfl
@[simp] theorem State.idle_writes (s : State) : (State.idle s).writes = s.writes := rfl
@[simp] theorem State.idle_port (s : State) : (State.idle s).port = s.port := rfl
@[simp] theorem State.idle_moves (s : State) : (State.idle s).moves = s.moves := rfl
@[simp] theorem State.idle_draws (s : State) : (State.idle s).draws = s.draws := rfl
@[simp] theorem State.idle_result (s : State) : (State.idle s).result = s.result := rfl
@[simp] theorem State.idle_held (s : State) : (State.idle s).held = s.held := rfl

/-! ## State.atPosition -/

@[simp] theorem State.atPosition_cfg (p : Position) (s : State) : (State.atPosition p s).cfg = s.cfg := rfl
@[simp] theorem State.atPosition_record (p : Position) (s : State) : (State.atPosition p s).record = s.record := rfl
@[simp] theorem State.atPosition_loaded (p : Position) (s : State) : (State.atPosition p s).loaded = s.loaded := rfl
@[simp] theorem State.atPosition_tag (p : Position) (s : State) : (State.atPosition p s).tag = s.tag := rfl
@[simp] theorem State.atPosition_sim (p : Position) (s : State) : (State.atPosition p s).sim = s.sim := rfl
@[simp] theorem State.atPosition_pfl (p : Position) (s : State) : (State.atPosition p s).pfl = s.pfl := rfl
@[simp] theorem State.atPosition_irq (p : Position) (s : State) : (State.atPosition p s).irq = s.irq := rfl
@[simp] theorem State.atPosition_link (p : Position) (s : State) : (State.atPosition p s).link = s.link := rfl
@[simp] theorem State.atPosition_eng (p : Position) (s : State) : (State.atPosition p s).eng = s.eng := rfl
@[simp] theorem State.atPosition_act (p : Position) (s : State) : (State.atPosition p s).act = s.act := rfl
@[simp] theorem State.atPosition_seq (p : Position) (s : State) : (State.atPosition p s).seq = { s.seq with position := some p } := rfl
@[simp] theorem State.atPosition_inp (p : Position) (s : State) : (State.atPosition p s).inp = s.inp := rfl
@[simp] theorem State.atPosition_durable (p : Position) (s : State) : (State.atPosition p s).durable = s.durable := rfl
@[simp] theorem State.atPosition_writes (p : Position) (s : State) : (State.atPosition p s).writes = s.writes := rfl
@[simp] theorem State.atPosition_port (p : Position) (s : State) : (State.atPosition p s).port = s.port := rfl
@[simp] theorem State.atPosition_moves (p : Position) (s : State) : (State.atPosition p s).moves = s.moves := rfl
@[simp] theorem State.atPosition_draws (p : Position) (s : State) : (State.atPosition p s).draws = s.draws := rfl
@[simp] theorem State.atPosition_result (p : Position) (s : State) : (State.atPosition p s).result = s.result := rfl
@[simp] theorem State.atPosition_held (p : Position) (s : State) : (State.atPosition p s).held = s.held := rfl

/-! ## State.powerUp -/

@[simp] theorem State.powerUp_cfg (cs : List Byte) (s : State) : (State.powerUp cs s).cfg = s.cfg := rfl
@[simp] theorem State.powerUp_record (cs : List Byte) (s : State) : (State.powerUp cs s).record = State.reset.record := rfl
@[simp] theorem State.powerUp_loaded (cs : List Byte) (s : State) : (State.powerUp cs s).loaded = false := rfl
@[simp] theorem State.powerUp_tag (cs : List Byte) (s : State) : (State.powerUp cs s).tag = { valid := false, bytes := [] } := rfl
@[simp] theorem State.powerUp_sim (cs : List Byte) (s : State) : (State.powerUp cs s).sim = { line := [] } := rfl
@[simp] theorem State.powerUp_pfl (cs : List Byte) (s : State) : (State.powerUp cs s).pfl = { latch := false } := rfl
@[simp] theorem State.powerUp_irq (cs : List Byte) (s : State) : (State.powerUp cs s).irq = { attached := false, enabled := true, pending := false } := rfl
@[simp] theorem State.powerUp_link (cs : List Byte) (s : State) : (State.powerUp cs s).link = { cs := .deasserted, rst := Config.freeRstLine (s.draws.count + 1), hist := [] } := rfl
@[simp] theorem State.powerUp_eng (cs : List Byte) (s : State) : (State.powerUp cs s).eng = { lastResult := .ok } := rfl
@[simp] theorem State.powerUp_act (cs : List Byte) (s : State) : (State.powerUp cs s).act = { hist := [] } := rfl
@[simp] theorem State.powerUp_seq (cs : List Byte) (s : State) : (State.powerUp cs s).seq = { booted := false, phase := .powerOn, position := none } := rfl
@[simp] theorem State.powerUp_inp (cs : List Byte) (s : State) : (State.powerUp cs s).inp = { chars := cs, ticks := 0 } := rfl
@[simp] theorem State.powerUp_durable (cs : List Byte) (s : State) : (State.powerUp cs s).durable = s.durable := rfl
@[simp] theorem State.powerUp_writes (cs : List Byte) (s : State) : (State.powerUp cs s).writes = [] := rfl
@[simp] theorem State.powerUp_port (cs : List Byte) (s : State) : (State.powerUp cs s).port = { space := .operation, bytes := [] } := rfl
@[simp] theorem State.powerUp_moves (cs : List Byte) (s : State) : (State.powerUp cs s).moves = s.moves := rfl
@[simp] theorem State.powerUp_draws (cs : List Byte) (s : State) : (State.powerUp cs s).draws = { s.draws with count := s.draws.count + 1 } := rfl
@[simp] theorem State.powerUp_result (cs : List Byte) (s : State) : (State.powerUp cs s).result = none := rfl
@[simp] theorem State.powerUp_held (cs : List Byte) (s : State) : (State.powerUp cs s).held = none := rfl

/-! ## State.place -/

@[simp] theorem State.place_cfg (sp : Space) (bs : List Byte) (s : State) : (State.place sp bs s).cfg = s.cfg := rfl
@[simp] theorem State.place_record (sp : Space) (bs : List Byte) (s : State) : (State.place sp bs s).record = s.record := rfl
@[simp] theorem State.place_loaded (sp : Space) (bs : List Byte) (s : State) : (State.place sp bs s).loaded = s.loaded := rfl
@[simp] theorem State.place_tag (sp : Space) (bs : List Byte) (s : State) : (State.place sp bs s).tag = s.tag := rfl
@[simp] theorem State.place_sim (sp : Space) (bs : List Byte) (s : State) : (State.place sp bs s).sim = s.sim := rfl
@[simp] theorem State.place_pfl (sp : Space) (bs : List Byte) (s : State) : (State.place sp bs s).pfl = s.pfl := rfl
@[simp] theorem State.place_irq (sp : Space) (bs : List Byte) (s : State) : (State.place sp bs s).irq = s.irq := rfl
@[simp] theorem State.place_link (sp : Space) (bs : List Byte) (s : State) : (State.place sp bs s).link = s.link := rfl
@[simp] theorem State.place_eng (sp : Space) (bs : List Byte) (s : State) : (State.place sp bs s).eng = s.eng := rfl
@[simp] theorem State.place_act (sp : Space) (bs : List Byte) (s : State) : (State.place sp bs s).act = s.act := rfl
@[simp] theorem State.place_seq (sp : Space) (bs : List Byte) (s : State) : (State.place sp bs s).seq = { s.seq with position := none } := rfl
@[simp] theorem State.place_inp (sp : Space) (bs : List Byte) (s : State) : (State.place sp bs s).inp = s.inp := rfl
@[simp] theorem State.place_durable (sp : Space) (bs : List Byte) (s : State) : (State.place sp bs s).durable = s.durable := rfl
@[simp] theorem State.place_writes (sp : Space) (bs : List Byte) (s : State) : (State.place sp bs s).writes = s.writes := rfl
@[simp] theorem State.place_port (sp : Space) (bs : List Byte) (s : State) : (State.place sp bs s).port = { space := sp, bytes := bs } := rfl
@[simp] theorem State.place_moves (sp : Space) (bs : List Byte) (s : State) : (State.place sp bs s).moves = [] := rfl
@[simp] theorem State.place_draws (sp : Space) (bs : List Byte) (s : State) : (State.place sp bs s).draws = s.draws := rfl
@[simp] theorem State.place_result (sp : Space) (bs : List Byte) (s : State) : (State.place sp bs s).result = s.result := rfl
@[simp] theorem State.place_held (sp : Space) (bs : List Byte) (s : State) : (State.place sp bs s).held = s.held := rfl

/-! ## State.receive -/

@[simp] theorem State.receive_cfg (a : Addr) (s : State) : (State.receive a s).2.cfg = s.cfg := rfl
@[simp] theorem State.receive_record (a : Addr) (s : State) : (State.receive a s).2.record = s.record := rfl
@[simp] theorem State.receive_loaded (a : Addr) (s : State) : (State.receive a s).2.loaded = s.loaded := rfl
@[simp] theorem State.receive_tag (a : Addr) (s : State) : (State.receive a s).2.tag = s.tag := rfl
@[simp] theorem State.receive_sim (a : Addr) (s : State) : (State.receive a s).2.sim = s.sim := rfl
@[simp] theorem State.receive_pfl (a : Addr) (s : State) : (State.receive a s).2.pfl = s.pfl := rfl
@[simp] theorem State.receive_irq (a : Addr) (s : State) : (State.receive a s).2.irq = s.irq := rfl
@[simp] theorem State.receive_link (a : Addr) (s : State) : (State.receive a s).2.link = { s.link with hist := s.link.hist ++ [.r a s.draws.byte.1] } := rfl
@[simp] theorem State.receive_eng (a : Addr) (s : State) : (State.receive a s).2.eng = s.eng := rfl
@[simp] theorem State.receive_act (a : Addr) (s : State) : (State.receive a s).2.act = s.act := rfl
@[simp] theorem State.receive_seq (a : Addr) (s : State) : (State.receive a s).2.seq = s.seq := rfl
@[simp] theorem State.receive_inp (a : Addr) (s : State) : (State.receive a s).2.inp = s.inp := rfl
@[simp] theorem State.receive_durable (a : Addr) (s : State) : (State.receive a s).2.durable = s.durable := rfl
@[simp] theorem State.receive_writes (a : Addr) (s : State) : (State.receive a s).2.writes = s.writes := rfl
@[simp] theorem State.receive_port (a : Addr) (s : State) : (State.receive a s).2.port = s.port := rfl
@[simp] theorem State.receive_moves (a : Addr) (s : State) : (State.receive a s).2.moves = s.moves := rfl
@[simp] theorem State.receive_draws (a : Addr) (s : State) : (State.receive a s).2.draws = s.draws.byte.2 := rfl
@[simp] theorem State.receive_result (a : Addr) (s : State) : (State.receive a s).2.result = s.result := rfl

/-! ## State.drawPolls -/

@[simp] theorem State.drawPolls_cfg (s : State) : (State.drawPolls s).2.cfg = s.cfg := rfl
@[simp] theorem State.drawPolls_record (s : State) : (State.drawPolls s).2.record = s.record := rfl
@[simp] theorem State.drawPolls_loaded (s : State) : (State.drawPolls s).2.loaded = s.loaded := rfl
@[simp] theorem State.drawPolls_tag (s : State) : (State.drawPolls s).2.tag = s.tag := rfl
@[simp] theorem State.drawPolls_sim (s : State) : (State.drawPolls s).2.sim = s.sim := rfl
@[simp] theorem State.drawPolls_pfl (s : State) : (State.drawPolls s).2.pfl = s.pfl := rfl
@[simp] theorem State.drawPolls_irq (s : State) : (State.drawPolls s).2.irq = s.irq := rfl
@[simp] theorem State.drawPolls_link (s : State) : (State.drawPolls s).2.link = s.link := rfl
@[simp] theorem State.drawPolls_eng (s : State) : (State.drawPolls s).2.eng = s.eng := rfl
@[simp] theorem State.drawPolls_act (s : State) : (State.drawPolls s).2.act = s.act := rfl
@[simp] theorem State.drawPolls_seq (s : State) : (State.drawPolls s).2.seq = s.seq := rfl
@[simp] theorem State.drawPolls_inp (s : State) : (State.drawPolls s).2.inp = s.inp := rfl
@[simp] theorem State.drawPolls_durable (s : State) : (State.drawPolls s).2.durable = s.durable := rfl
@[simp] theorem State.drawPolls_writes (s : State) : (State.drawPolls s).2.writes = s.writes := rfl
@[simp] theorem State.drawPolls_port (s : State) : (State.drawPolls s).2.port = s.port := rfl
@[simp] theorem State.drawPolls_moves (s : State) : (State.drawPolls s).2.moves = s.moves := rfl
@[simp] theorem State.drawPolls_draws (s : State) : (State.drawPolls s).2.draws = s.draws.polls.2 := rfl
@[simp] theorem State.drawPolls_result (s : State) : (State.drawPolls s).2.result = s.result := rfl

/-! ## State.held -/

/-- What `held` says of the two fields it is made of. -/
theorem State.held_eq_some {s : State} {r : Record} : s.held = some r ↔ s.loaded = true ∧ s.record = r := by
  unfold State.held; split <;> simp_all

theorem State.held_eq_none {s : State} : s.held = none ↔ s.loaded = false := by
  unfold State.held; split <;> simp_all

/-- `held` sees nothing but the two fields. -/
theorem State.held_congr {s t : State} (hr : t.record = s.record) (hl : t.loaded = s.loaded) : t.held = s.held := by
  unfold State.held; rw [hr, hl]

/-- A record that is written where one is held is held. -/
theorem State.held_of {s t : State} {r : Record} (hs : s.held = some r) (hl : t.loaded = s.loaded) :
    t.held = some t.record :=
  State.held_eq_some.mpr ⟨hl.trans (State.held_eq_some.mp hs).1, rfl⟩

end Sys2Proof.Machine
end

