-- ==== Sys2Proof/Laws/Atoms.lean ====
section
/-! SUPPORT. The atomic steps of the machine, listed once (`Atom`), with what each of them may write (`Writes`, `Kept`). What
every step keeps is proved by cases on that list, and then holds of every program whose steps are in it. -/

namespace Sys2Proof.Machine

/-! ## What may be written -/

/-- Groups of state elements, as the access matrix has them (10_state.md R44): what a step may write. -/
structure Writes where
  /-- The record copy, durable storage and the write history. -/
  store : Bool := false
  /-- `rec.lockState`. -/
  lock : Bool := false
  /-- `rec.wrongAttempts` and `rec.lsr`. -/
  counts : Bool := false
  /-- `act`. -/
  act : Bool := false
  /-- `tag`. -/
  tag : Bool := false
  /-- `sim` and the input characters. -/
  sim : Bool := false
  /-- `pfl` and `irq` but for `irq.attached`. -/
  latch : Bool := false
  /-- `irq.attached`. -/
  attach : Bool := false
  /-- `link.cs`. -/
  cs : Bool := false
  /-- `link.rst`. -/
  rst : Bool := false
  /-- `link.hist` and the draws. -/
  hist : Bool := false
  /-- `eng`. -/
  eng : Bool := false
  /-- `seq.booted` and `seq.phase`. -/
  seq : Bool := false
  /-- `in.ticks`. -/
  ticks : Bool := false

/-- No event drives the reset line. -/
def noReset (h : List LinkEvent) : Bool :=
  h.all (fun e => match e with
    | .rst _ => false
    | _ => true)

@[simp] theorem noReset_append (h k : List LinkEvent) : noReset (h ++ k) = (noReset h && noReset k) := List.all_append

/-- A history without reset events holds none. -/
theorem noReset_mem {h : List LinkEvent} (hn : noReset h = true) (l : Line) : LinkEvent.rst l ∉ h := by
  intro hm
  simpa using (List.all_eq_true.mp hn) _ hm

/-- `t` differs from `s` only in what `w` allows. -/
structure Kept (w : Writes) (s t : State) : Prop where
  cfg : t.cfg = s.cfg
  port : t.port = s.port
  moves : t.moves = s.moves
  position : t.seq.position = s.seq.position
  result : t.result = s.result
  store : w.store = false → t.record = s.record ∧ t.durable = s.durable ∧ t.writes = s.writes
  lock : w.lock = false → t.record.lockState = s.record.lockState
  counts : w.counts = false → t.record.wrongAttempts = s.record.wrongAttempts ∧ t.record.lsr = s.record.lsr
  act : w.act = false → t.act = s.act
  tag : w.tag = false → t.tag = s.tag
  sim : w.sim = false → t.sim = s.sim ∧ t.inp.chars = s.inp.chars
  latch : w.latch = false → t.pfl = s.pfl ∧ t.irq.enabled = s.irq.enabled ∧ t.irq.pending = s.irq.pending
  attach : w.attach = false → t.irq.attached = s.irq.attached
  cs : w.cs = false → t.link.cs = s.link.cs
  rst : w.rst = false → t.link.rst = s.link.rst
  grown : ∃ h, t.link.hist = s.link.hist ++ h ∧ (w.rst = false → noReset h = true)
  hist : w.hist = false → t.link.hist = s.link.hist ∧ t.draws = s.draws
  eng : w.eng = false → t.eng = s.eng
  seq : w.seq = false → t.seq.booted = s.seq.booted ∧ t.seq.phase = s.seq.phase
  ticks : w.ticks = false → t.inp.ticks = s.inp.ticks
  loaded : w.store = false → t.loaded = s.loaded
  held : s.loaded = true → t.loaded = true

variable {w : Writes}

theorem Kept.refl (s : State) : Kept w s s := by
  constructor <;> first | exact ⟨[], by simp, fun _ => rfl⟩ | simp

theorem Kept.trans {s t u : State} (h : Kept w s t) (k : Kept w t u) : Kept w s u where
  cfg := k.cfg.trans h.cfg
  port := k.port.trans h.port
  moves := k.moves.trans h.moves
  position := k.position.trans h.position
  result := k.result.trans h.result
  store e := ⟨(k.store e).1.trans (h.store e).1, (k.store e).2.1.trans (h.store e).2.1, (k.store e).2.2.trans (h.store e).2.2⟩
  lock e := (k.lock e).trans (h.lock e)
  counts e := ⟨(k.counts e).1.trans (h.counts e).1, (k.counts e).2.trans (h.counts e).2⟩
  act e := (k.act e).trans (h.act e)
  tag e := (k.tag e).trans (h.tag e)
  sim e := ⟨(k.sim e).1.trans (h.sim e).1, (k.sim e).2.trans (h.sim e).2⟩
  latch e := ⟨(k.latch e).1.trans (h.latch e).1, (k.latch e).2.1.trans (h.latch e).2.1, (k.latch e).2.2.trans (h.latch e).2.2⟩
  attach e := (k.attach e).trans (h.attach e)
  cs e := (k.cs e).trans (h.cs e)
  rst e := (k.rst e).trans (h.rst e)
  grown := by
    obtain ⟨x, hx, nx⟩ := h.grown
    obtain ⟨y, ky, ny⟩ := k.grown
    exact ⟨x ++ y, by rw [ky, hx, List.append_assoc], fun e => by simp [nx e, ny e]⟩
  hist e := ⟨(k.hist e).1.trans (h.hist e).1, (k.hist e).2.trans (h.hist e).2⟩
  eng e := (k.eng e).trans (h.eng e)
  seq e := ⟨(k.seq e).1.trans (h.seq e).1, (k.seq e).2.trans (h.seq e).2⟩
  ticks e := (k.ticks e).trans (h.ticks e)
  loaded e := (k.loaded e).trans (h.loaded e)
  held := k.held ∘ h.held

/-- Without leave to store, what `rec` holds stays. -/
theorem Kept.held_eq (hs : w.store = false) {s t : State} (h : Kept w s t) : t.held = s.held :=
  State.held_congr (h.store hs).1 (h.loaded hs)

/-- A step that leaves the link, the draws and the engine free to change, and nothing else. -/
theorem Kept.reader_eq {s t : State} (h : Kept { cs := true, rst := true, hist := true, eng := true } s t) :
    t = { s with link := t.link, draws := t.draws, eng := t.eng } := by
  obtain ⟨h1, h2, h3, h4, h5, h6, -, -, h9, h10, h11, h12, h13, -, -, -, -, -, h19, h20, h21, -⟩ := h
  obtain ⟨cfg, rc, ld, tag, sim, pfl, ⟨att, en, pend⟩, lk, eng, act, ⟨bo, ph, po⟩, ⟨ch, ti⟩, dur, wr, port, mv, dr, res⟩ := s
  obtain ⟨cfg', rc', ld', tag', sim', pfl', ⟨att', en', pend'⟩, lk', eng', act', ⟨bo', ph', po'⟩, ⟨ch', ti'⟩, dur', wr', port', mv', dr', res'⟩ := t
  simp_all

/-! ## The atomic steps -/

/-- The atomic steps, each allowed where `w` allows what it writes. -/
inductive Atom (w : Writes) : (State → Answer × State) → Prop
  /-- A step that only looks at the state, and not at the latch, the schedule, the position or the last
  result. -/
  | look (g : State → Answer) (latch : ∀ (s : State) (l : Latch) (p : Bool), g { s with pfl := l, irq := { s.irq with pending := p } } = g s)
      (schedule : ∀ (s : State) (ms : List Move) (p : Option Position) (r : Option OpResult),
        Move.seconds ms = Move.seconds s.moves →
        g { s with moves := ms, seq := { s.seq with position := p }, result := r } = g s) : Atom w (fun s => (g s, s))
  | driveCs (l : Line) (hc : w.cs = true) (hh : w.hist = true) : Atom w (fun s => (.unit, State.driveCs l s))
  | driveRst (l : Line) (hr : w.rst = true) (hh : w.hist = true) : Atom w (fun s => (.unit, State.driveRst l s))
  | emit (e : LinkEvent) (hn : noReset [e] = true) (hh : w.hist = true) : Atom w (fun s => (.unit, State.emit e s))
  | receive (a : Addr) (hh : w.hist = true) : Atom w (fun s => (.byte (State.receive a s).1, (State.receive a s).2))
  | drawPolls (hh : w.hist = true) : Atom w (fun s => (.count (State.drawPolls s).1, (State.drawPolls s).2))
  | drawXcv (tx : List Byte) (lb : BitVec 3) (cap t : Byte) (hh : w.hist = true) :
      Atom w (fun s => (.xcv (State.drawXcv tx lb cap t s).1, (State.drawXcv tx lb cap t s).2))
  | drawCrc (data : List Byte) (hh : w.hist = true) :
      Atom w (fun s => (.crc (State.drawCrc data s).1, (State.drawCrc data s).2))
  | setLast (c : ResultCode) (he : w.eng = true) : Atom w (fun s => (.unit, State.setLast c s))
  | fillTag (bs : List Byte) (ht : w.tag = true) : Atom w (fun s => (.unit, State.fillTag bs s))
  | setTagValid (b : Bool) (ht : w.tag = true) : Atom w (fun s => (.unit, State.setTagValid b s))
  | setLine (l : List Byte) (hs : w.sim = true) : Atom w (fun s => (.unit, State.setLine l s))
  | accumulate (c : Byte) (hs : w.sim = true) : Atom w (fun s => (.unit, State.accumulate c s))
  | popChar (hs : w.sim = true) : Atom w (fun s => (.bytes (State.takeChar s).1.toList, (State.takeChar s).2))
  | loadCopy (r : Record) (hs : w.store = true) (hl : w.lock = true) (hc : w.counts = true) :
      Atom w (fun s => (.unit, State.loadCopy r s))
  | editRecord (f : Record → Record) (hs : w.store = true) (hl : w.lock = true ∨ ∀ r, (f r).lockState = r.lockState)
      (hc : w.counts = true ∨ ∀ r, (f r).wrongAttempts = r.wrongAttempts ∧ (f r).lsr = r.lsr) :
      Atom w (fun s => (.unit, State.editRecord f s))
  | memWrite (r : Record) (hs : w.store = true) : Atom w (fun s => (.unit, State.memWrite Config.recordOffset r.bytes s))
  | storeCopy (hs : w.store = true) : Atom w (fun s => (.unit, State.storeCopy s))
  | command (c : ActCommand) (ha : w.act = true) : Atom w (fun s => (.unit, State.command c s))
  | takeLatch (hl : w.latch = true) : Atom w (fun s => (.bit (Machine.takeLatch s).1, (Machine.takeLatch s).2))
  | attach (ha : w.attach = true) : Atom w (fun s => (.unit, State.attach s))
  | setPhase (p : Phase) (hs : w.seq = true) : Atom w (fun s => (.unit, State.setPhase p s))
  | setBooted (hs : w.seq = true) : Atom w (fun s => (.unit, State.setBooted s))
  | takeSecond (ht : w.ticks = true) : Atom w (fun s => (.unit, State.takeSecond s))

/-- Taking the latch re-enables interrupts and delivers a held edge (R301, R371). -/
theorem takeLatch_snd (s : State) : (takeLatch s).2 =
    { s with irq := { s.irq with enabled := true, pending := false }, pfl := { latch := s.irq.pending } } := by
  obtain ⟨cfg, rc, ld, tag, sim, pfl, ⟨att, en, pend⟩, lk, eng, act, seq, inp, dur, wr, port, mv, dr, res⟩ := s
  cases pend <;> rfl

@[simp] theorem takeLatch_fst (s : State) : (takeLatch s).1 = s.pfl.latch := rfl

/-- Storing the copy writes the record that is held. -/
theorem storeCopy_eq {s : State} {r : Record} (h : s.held = some r) :
    State.storeCopy s = State.memWrite Config.recordOffset r.bytes s := by
  rw [State.storeCopy, (State.held_eq_some.mp h).2]

/-- Every atomic step writes only what it is allowed. -/
theorem Atom.kept {f : State → Answer × State} (h : Atom w f) (s : State) : Kept w s (f s).2 := by
  cases h with
  | look g _ _ => exact .refl s
  | takeLatch hl => simp only [takeLatch_snd]; constructor <;> first | exact ⟨[], by simp, fun _ => rfl⟩ | simp_all
  | popChar hs =>
    simp only [State.takeChar]
    split <;> constructor <;> first | exact ⟨[], by simp, fun _ => rfl⟩ | simp_all
  | accumulate c hs =>
    simp only [State.accumulate]
    split <;> constructor <;> first | exact ⟨[], by simp, fun _ => rfl⟩ | simp_all
  | editRecord f hs hl hc =>
    constructor <;> first
      | exact ⟨[], by simp, fun _ => rfl⟩
      | (intro e; simp_all)
      | simp_all
  | emit e hn hh => constructor <;> first | exact ⟨[e], rfl, fun _ => hn⟩ | simp_all
  | driveCs l hc hh => constructor <;> first | exact ⟨[.cs l], rfl, fun _ => rfl⟩ | simp_all
  | driveRst l hr hh => constructor <;> first | exact ⟨[.rst l], rfl, fun e => by simp_all⟩ | simp_all
  | receive a hh => constructor <;> first | exact ⟨[.r a s.draws.byte.1], rfl, fun _ => rfl⟩ | simp_all
  | drawXcv tx lb cap t hh => constructor <;> first | exact ⟨_, rfl, fun _ => rfl⟩ | simp_all [State.drawXcv]
  | drawCrc data hh => constructor <;> first | exact ⟨_, rfl, fun _ => rfl⟩ | simp_all [State.drawCrc]
  | _ => constructor <;> first | exact ⟨[], by simp, fun _ => rfl⟩ | simp_all

/-- A step writes one whole record to storage, or nothing (20_memory.md R66, R68). -/
theorem Atom.written {f : State → Answer × State} (h : Atom w f) (s : State) :
    ((f s).2.durable = s.durable ∧ (f s).2.writes = s.writes) ∨
      ∃ r : Record, (f s).2.durable = Memory.writeBytes Config.recordOffset r.bytes s.durable ∧
        (f s).2.writes = s.writes ++ [(Config.recordOffset, r.bytes)] := by
  cases h with
  | memWrite r hs => exact .inr ⟨r, rfl, rfl⟩
  | storeCopy hs => exact .inr ⟨s.record, rfl, rfl⟩
  | takeLatch hl => exact .inl (by simp [takeLatch_snd])
  | popChar hs => exact .inl (by simp only [State.takeChar]; split <;> simp)
  | accumulate c hs => exact .inl (by simp only [State.accumulate]; split <;> simp)
  | _ => exact .inl ⟨rfl, rfl⟩

/-- A program made of allowed steps writes only what is allowed. -/
theorem Prog.Each.kept {α : Type} {p : Prog α} (hp : p.Each (Atom w)) {s t : State} {a : α} (h : p.run s = .ok (a, t)) :
    Kept w s t :=
  (hp.mono fun _ hf => hf.kept).run Kept.refl (fun _ _ _ => Kept.trans) h

/-- No step of a program that writes neither the latch nor the attachment sees the latch. -/
theorem Atom.blind (hl : w.latch = false) (ha : w.attach = false) {f : State → Answer × State} (h : Atom w f) (s : State)
    (l : Latch) (p : Bool) : f { s with pfl := l, irq := { s.irq with pending := p } } =
      ((f s).1, { (f s).2 with pfl := l, irq := { (f s).2.irq with pending := p } }) := by
  cases h with
  | look g hg _ => simp only [hg]
  | takeLatch h => simp [hl] at h
  | attach h => simp [ha] at h
  | popChar h => cases hc : s.inp.chars <;> simp [State.takeChar, hc]
  | accumulate c h => simp only [State.accumulate]; split <;> rfl
  | _ => rfl

/-- Such a step commutes with the edge (20_memory.md R74). -/
theorem Atom.commutes (hl : w.latch = false) (ha : w.attach = false) {f : State → Answer × State} (h : Atom w f) (s : State) :
    f (takeEdge s) = ((f s).1, takeEdge (f s).2) := by
  have hk := h.kept s
  have hk1 := hk.attach ha
  obtain ⟨hk2, hk3, hk4⟩ := hk.latch hl
  simp only [takeEdge, hk1, hk3]
  split
  · split
    · exact (h.blind hl ha s { latch := true } s.irq.pending).trans (by rw [← hk4])
    · exact (h.blind hl ha s s.pfl true).trans (by simp only [hk1, hk2, hk3])
  · rfl

/-- No step depends on the schedule, but for the seconds it still holds, on the position, or on the last result. -/
theorem Atom.schedule {f : State → Answer × State} (h : Atom w f) (s : State) (ms : List Move) (p : Option Position)
    (r : Option OpResult) (hm : Move.seconds ms = Move.seconds s.moves) :
    f { s with moves := ms, seq := { s.seq with position := p }, result := r } =
      ((f s).1, { (f s).2 with moves := ms, seq := { (f s).2.seq with position := p }, result := r }) := by
  cases h with
  | look g _ hg => simp only [hg s ms p r hm]
  | takeLatch h => simp only [takeLatch_snd]; rfl
  | popChar h => cases hc : s.inp.chars <;> simp [State.takeChar, hc]
  | accumulate c h => simp only [State.accumulate]; split <;> rfl
  | _ => rfl

/-- A program takes its course whatever the schedule, the position and the last result are, as long as the schedule still
holds as many seconds. -/
theorem Prog.Each.schedule {α : Type} {p : Prog α} (hp : p.Each (Atom w)) (s : State) (ms : List Move) (q : Option Position)
    (r : Option OpResult) (hm : Move.seconds ms = Move.seconds s.moves) :
    p.run { s with moves := ms, seq := { s.seq with position := q }, result := r } =
      (p.run s).map fun x => (x.1, { x.2 with moves := ms, seq := { x.2.seq with position := q }, result := r }) := by
  induction p generalizing s with
  | ret a => rfl
  | raise f => rfl
  | step act next ih =>
    simp only [Prog.run, Atom.schedule hp.1 s ms q r hm]
    exact ih _ (hp.2 _) _ (by rw [hm, (Atom.kept hp.1 s).moves])

/-- A program of one changing step. -/
theorem Atom.tell {f : State → State} (h : Atom w (fun s => (.unit, f s))) : (Prog.tell f).Each (Atom w) :=
  ⟨h, fun _ => trivial⟩

end Sys2Proof.Machine
end

