-- ==== Sys2Proof/Laws/Link.lean ====
section
/-! SUPPORT. What the link and engine programs do, said once: the closed form of every transfer and wait, and `Lawful`, kept by
every program: its steps are allowed ones, and from a released link it leads to a released link with whole framed items
added to the history, whatever arrives on the way. -/

namespace Sys2Proof.Machine

/-! ## Framed histories -/

@[simp] theorem framed_nil : framed [] = true := rfl
@[simp] theorem framed_readEvents (a : Addr) (v : Byte) : framed (readEvents a v) = true := rfl
@[simp] theorem framed_writeEvents (a : Addr) (d : Byte) : framed (writeEvents a d) = true := rfl
@[simp] theorem framed_pulseEvents (t : Millis) : framed (pulseEvents t) = true := rfl

/-- Two framed histories one after the other are framed. -/
theorem framed_append (h k : List LinkEvent) (hh : framed h = true) (hk : framed k = true) : framed (h ++ k) = true := by
  fun_induction framed h <;> simp_all [framed]

/-- From `s` to `t` the link history grew by whole framed items, and chip-select is released. -/
structure Grown (s t : State) : Prop where
  cs : t.link.cs = .deasserted
  hist : ∃ h, t.link.hist = s.link.hist ++ h ∧ framed h = true

theorem Grown.trans {s t u : State} (h : Grown s t) (k : Grown t u) : Grown s u := by
  obtain ⟨x, hx, fx⟩ := h.hist
  obtain ⟨y, ky, fy⟩ := k.hist
  exact ⟨k.cs, x ++ y, by rw [ky, hx, List.append_assoc], framed_append x y fx fy⟩

/-- A link that did not change. -/
theorem Grown.still {s t : State} (hc : s.link.cs = .deasserted) (h : t.link = s.link) : Grown s t :=
  ⟨by rw [h, hc], [], by rw [h, List.append_nil], rfl⟩

/-! ## Lawful programs -/

variable {w : Writes} {α β : Type}

/-- The program's steps are allowed by `w`, and it leaves the link released and framed, whatever arrives on the way. -/
structure Lawful (w : Writes) (p : Prog α) : Prop where
  each : p.Each (Atom w)
  framing : ∀ s, s.link.cs = .deasserted → p.Ends (fun _ => True) (fun _ => Grown s) s

theorem Lawful.ret (a : α) : Lawful w (.ret a) := ⟨trivial, fun _ hc => .still hc rfl⟩
theorem Lawful.raise (f : Fault) : Lawful w (.raise f : Prog α) := ⟨trivial, fun _ _ => trivial⟩

theorem Lawful.bind {p : Prog α} {k : α → Prog β} (hp : Lawful w p) (hk : ∀ a, Lawful w (k a)) : Lawful w (p.bind k) where
  each := hp.each.bind fun a => (hk a).each
  framing s hc := (hp.framing s hc).bind fun a t ht => ((hk a).framing t ht.cs).mono fun _ _ => ht.trans

theorem Lawful.andThen {p : Prog Unit} {q : Prog β} (hp : Lawful w p) (hq : Lawful w q) : Lawful w (p.andThen q) :=
  hp.bind fun _ => hq

/-- One step that does not touch the link. -/
theorem Lawful.tell {f : State → State} (h : Atom w (fun s => (.unit, f s))) (hl : ∀ s, (f s).link = s.link) :
    Lawful w (.tell f) :=
  ⟨⟨h, fun _ => trivial⟩, fun _ hc u hd _ => ⟨trivial, .still hc ((hl u).trans hd.link)⟩⟩

/-- One step that finds something out and does not touch the link. -/
theorem Lawful.ask {put : α → Answer} {get : Answer → α} {f : State → α × State} (h : Atom w (fun s => (put (f s).1, (f s).2)))
    (hl : ∀ s, (f s).2.link = s.link) : Lawful w (.ask put get f) :=
  ⟨⟨h, fun _ => trivial⟩, fun _ hc u hd _ => ⟨trivial, .still hc ((hl u).trans hd.link)⟩⟩

theorem Lawful.ite {c : Prop} [Decidable c] {p q : Prog α} (hp : Lawful w p) (hq : Lawful w q) :
    Lawful w (if c then p else q) := by
  split
  · exact hp
  · exact hq

/-! ## Closed forms -/

/-- One write transfer: chip-select ends deasserted and the history grows by the claimed event. -/
theorem run_linkWrite (a : Addr) (d : Byte) (s : State) : (linkWrite a d).run s =
    .ok ((), { s with link := { s.link with cs := .deasserted, hist := s.link.hist ++ writeEvents a d } }) := by
  simp [linkWrite, claimLink, Prog.andThen, Prog.run_bind, State.driveCs, State.emit, writeEvents, claimed]

/-- One read transfer: its value is the next draw. -/
theorem run_linkRead (a : Addr) (s : State) : (linkRead a).run s = .ok (s.draws.byte.1, { s with
    draws := s.draws.byte.2
    link := { s.link with cs := .deasserted, hist := s.link.hist ++ readEvents a s.draws.byte.1 } }) := by
  simp [linkRead, claimLink, Prog.andThen, Prog.run_bind, State.driveCs, State.emit, State.receive, readEvents, claimed]

theorem run_settleDelay (t : Millis) (s : State) : (settleDelay t).run s =
    .ok ((), { s with link := { s.link with hist := s.link.hist ++ [.delay t] } }) := rfl

theorem run_resetPulse (t : Millis) (s : State) : (resetPulse t).run s =
    .ok ((), { s with link := { s.link with rst := .deasserted, hist := s.link.hist ++ pulseEvents t } }) := by
  simp [resetPulse, settleDelay, Prog.andThen, Prog.run_bind, State.driveRst, State.emit, pulseEvents]

/-- Setting bits: one read, and a write only if a bit was clear (R146). -/
theorem run_setBits (a : Addr) (m : Byte) (s : State) : (setBits a m).run s = .ok ((), { s with
    draws := s.draws.byte.2
    link := { s.link with cs := .deasserted, hist := s.link.hist ++ setBitsEvents a m s.draws.byte.1 } }) := by
  rw [setBits, Prog.run_bind_ok (run_linkRead a s)]
  by_cases h : s.draws.byte.1 &&& m = m
  · simp [allSet, setBitsEvents, h]
  · simp [allSet, setBitsEvents, h, run_linkWrite]

theorem run_clearBits (a : Addr) (m : Byte) (s : State) : (clearBits a m).run s = .ok ((), { s with
    draws := s.draws.byte.2
    link := { s.link with
      cs := .deasserted
      hist := s.link.hist ++ readEvents a s.draws.byte.1 ++ writeEvents a (s.draws.byte.1 &&& ~~~m) } }) := by
  rw [clearBits, Prog.run_bind_ok (run_linkRead a s), run_linkWrite]

/-! ## What the loops over the link do -/

/-- The polls of a timed wait (R148): the bytes drawn in order, no flag before the last, and as many as the bound allows if
none shows it. -/
theorem run_pollFlag (a : Addr) (m : Byte) (n : Nat) (s : State) : ∃ (vs : List Byte) (last : Byte),
    (Draws.takeBytes (vs.length + 1) s.draws).1 = vs ++ [last] ∧
    (∀ v ∈ vs, v &&& m = 0#8) ∧
    ((last &&& m ≠ 0#8 ∧ vs.length ≤ n) ∨ (last &&& m = 0#8 ∧ vs.length = n)) ∧
    (pollFlag a m n).run s = .ok (if last &&& m = 0#8 then none else some last, { s with
      link := { s.link with cs := .deasserted, hist := s.link.hist ++ readsAt a (vs ++ [last]) }
      draws := (Draws.takeBytes (vs.length + 1) s.draws).2 }) := by
  induction n generalizing s with
  | zero =>
    refine ⟨[], s.draws.byte.1, rfl, by simp, ?_, ?_⟩
    · simp; exact (em _).symm
    · by_cases h : s.draws.byte.1 &&& m = 0#8 <;>
        simp [pollFlag, Prog.run_bind, run_linkRead, anySet, readsAt, Draws.takeBytes, h]
  | succ n ih =>
    by_cases h : s.draws.byte.1 &&& m = 0#8
    · obtain ⟨vs, last, hd, hv, hb, ho⟩ := ih { s with
        draws := s.draws.byte.2
        link := { s.link with cs := .deasserted, hist := s.link.hist ++ readEvents a s.draws.byte.1 } }
      refine ⟨s.draws.byte.1 :: vs, last, ?_, ?_, ?_, ?_⟩
      · exact congrArg (s.draws.byte.1 :: ·) hd
      · simpa [h] using hv
      · simpa using hb
      · simp only [pollFlag, Prog.run_bind, run_linkRead, anySet, h, bne_self_eq_false, Bool.false_eq_true, if_false]
        rw [ho]; simp [Draws.takeBytes, readsAt]
    · refine ⟨[], s.draws.byte.1, rfl, by simp, .inl ⟨h, by simp⟩, ?_⟩
      simp [pollFlag, Prog.run_bind, run_linkRead, anySet, h, readsAt, Draws.takeBytes]

/-- A timed wait (R148): its polls, and its code. -/
theorem run_waitFlag (a : Addr) (m : Byte) (s : State) : ∃ (vs : List Byte) (last : Byte),
    (Draws.takeBytes (vs.length + 1) s.draws.polls.2).1 = vs ++ [last] ∧
    (∀ v ∈ vs, v &&& m = 0#8) ∧
    ((last &&& m ≠ 0#8 ∧ vs.length ≤ s.draws.polls.1 + 1) ∨ (last &&& m = 0#8 ∧ vs.length = s.draws.polls.1 + 1)) ∧
    (waitFlag a m).run s = .ok (if last &&& m = 0#8 then none else some last, { s with
      link := { s.link with cs := .deasserted, hist := s.link.hist ++ readsAt a (vs ++ [last]) }
      draws := (Draws.takeBytes (vs.length + 1) s.draws.polls.2).2
      eng := { lastResult := if last &&& m = 0#8 then .timeout else .ok } }) := by
  obtain ⟨vs, last, hd, hv, hb, ho⟩ := run_pollFlag a m (s.draws.polls.1 + 1) { s with draws := s.draws.polls.2 }
  refine ⟨vs, last, hd, hv, hb, ?_⟩
  simp only [waitFlag, Prog.run_bind, Prog.run_askCount, State.drawPolls, ho]
  by_cases h : last &&& m = 0#8 <;> simp [h, Prog.andThen, Prog.run_bind, State.setLast]

theorem run_writeTable (m : RegMap) (ps : List (ReaderReg × Byte)) (s : State) : (writeTable m ps).run s = .ok ((), { s with
    link := { s.link with
      cs := if ps = [] then s.link.cs else .deasserted
      hist := s.link.hist ++ ps.flatMap (fun p => writeEvents (m.addr p.1) p.2) } }) := by
  induction ps generalizing s with
  | nil => simp [writeTable]
  | cons p ps ih => simp [writeTable, Prog.andThen, Prog.run_bind, run_linkWrite, ih]

theorem run_writeAll (a : Addr) (bs : List Byte) (s : State) : (writeAll a bs).run s = .ok ((), { s with
    link := { s.link with
      cs := if bs = [] then s.link.cs else .deasserted
      hist := s.link.hist ++ writesAt a bs } }) := by
  induction bs generalizing s with
  | nil => simp [writeAll, writesAt]
  | cons p ps ih => simp [writeAll, Prog.andThen, Prog.run_bind, run_linkWrite, ih, writesAt]

/-- One byte comes back for each read. -/
theorem run_readAll (a : Addr) (n : Nat) (s : State) : ∃ rx d, rx.length = n ∧ (readAll a n).run s = .ok (rx, { s with
    draws := d
    link := { s.link with
      cs := if n = 0 then s.link.cs else .deasserted
      hist := s.link.hist ++ readsAt a rx } }) := by
  induction n generalizing s with
  | zero => exact ⟨[], s.draws, rfl, by simp [readAll, readsAt]⟩
  | succ n ih =>
    obtain ⟨rx, d, hl, he⟩ := ih { s with
        draws := s.draws.byte.2
        link := { s.link with cs := .deasserted, hist := s.link.hist ++ readEvents a s.draws.byte.1 } }
    refine ⟨s.draws.byte.1 :: rx, d, by simp [hl], ?_⟩
    simp [readAll, Prog.run_bind, run_linkRead, he, readsAt]

theorem run_initReader (c : Config) (s : State) : (initReader c).run s = .ok ((), { s with
    draws := s.draws.byte.2
    link := { cs := .deasserted, rst := .deasserted, hist := s.link.hist ++ initEvents c s.draws.byte.1 } }) := by
  simp [initReader, antennaOn, Prog.andThen, Prog.run_bind, run_resetPulse, run_settleDelay, run_linkWrite, run_writeTable,
    run_setBits, initEvents]

/-! ## Transfers and waits are lawful -/

theorem Lawful.linkWrite (hc : w.cs = true) (hh : w.hist = true) (a : Addr) (d : Byte) : Lawful w (linkWrite a d) where
  each := ⟨.driveCs _ hc hh, fun _ => ⟨.emit _ rfl hh, fun _ => ⟨.driveCs _ hc hh, fun _ => trivial⟩⟩⟩
  framing s hs := fun u hu _ => ⟨trivial, fun v hv _ => ⟨trivial, fun x hx _ => ⟨trivial, rfl, writeEvents a d, by
    simp [hx.link, hv.link, hu.link, writeEvents, claimed], rfl⟩⟩⟩

theorem Lawful.linkRead (hc : w.cs = true) (hh : w.hist = true) (a : Addr) : Lawful w (linkRead a) where
  each := ⟨.driveCs _ hc hh, fun _ => ⟨.receive a hh, fun _ => ⟨.driveCs _ hc hh, fun _ => trivial⟩⟩⟩
  framing s hs := fun u hu _ => ⟨trivial, fun v hv _ => ⟨trivial, fun x hx _ => ⟨trivial, rfl, readEvents a v.draws.byte.1, by
    simp [hx.link, hv.link, hu.link, readEvents, claimed], rfl⟩⟩⟩

/-- The wire form of a read transfer, its value given. -/
theorem Lawful.claimedRead (hc : w.cs = true) (hh : w.hist = true) (a : Addr) (v : Byte) :
    Lawful w (claimLink (.tell (State.emit (.r a v)))) where
  each := ⟨.driveCs _ hc hh, fun _ => ⟨.emit _ rfl hh, fun _ => ⟨.driveCs _ hc hh, fun _ => trivial⟩⟩⟩
  framing s hs := fun u hu _ => ⟨trivial, fun y hy _ => ⟨trivial, fun x hx _ => ⟨trivial, rfl, readEvents a v, by
    simp [hx.link, hy.link, hu.link, readEvents, claimed], rfl⟩⟩⟩

theorem Lawful.settleDelay (hh : w.hist = true) (t : Millis) : Lawful w (settleDelay t) where
  each := ⟨.emit _ rfl hh, fun _ => trivial⟩
  framing s hs := fun u hu _ => ⟨trivial, by simp [hu.link, hs], [.delay t], by simp [hu.link], rfl⟩

theorem Lawful.resetPulse (hr : w.rst = true) (hh : w.hist = true) (t : Millis) : Lawful w (resetPulse t) where
  each := ⟨.driveRst _ hr hh, fun _ => ⟨.emit _ rfl hh, fun _ => ⟨.driveRst _ hr hh, fun _ => trivial⟩⟩⟩
  framing s hs := fun u hu _ => ⟨trivial, fun v hv _ => ⟨trivial, fun x hx _ =>
    ⟨trivial, by simp [hx.link, hv.link, hu.link, hs], pulseEvents t, by
      simp [hx.link, hv.link, hu.link, pulseEvents], rfl⟩⟩⟩

theorem Lawful.setBits (hc : w.cs = true) (hh : w.hist = true) (a : Addr) (m : Byte) : Lawful w (setBits a m) :=
  (Lawful.linkRead hc hh a).bind fun _ => .ite (.ret ()) (.linkWrite hc hh _ _)

theorem Lawful.clearBits (hc : w.cs = true) (hh : w.hist = true) (a : Addr) (m : Byte) : Lawful w (clearBits a m) :=
  (Lawful.linkRead hc hh a).bind fun _ => .linkWrite hc hh _ _

theorem Lawful.pollFlag (hc : w.cs = true) (hh : w.hist = true) (a : Addr) (m : Byte) (n : Nat) :
    Lawful w (pollFlag a m n) := by
  induction n with
  | zero => exact (Lawful.linkRead hc hh a).bind fun _ => .ret _
  | succ n ih => exact (Lawful.linkRead hc hh a).bind fun _ => .ite (.ret _) ih

theorem Lawful.setLast (he : w.eng = true) (c : ResultCode) : Lawful w (.tell (State.setLast c)) :=
  .tell (.setLast c he) fun _ => rfl

theorem Lawful.waitFlag (hc : w.cs = true) (hh : w.hist = true) (he : w.eng = true) (a : Addr) (m : Byte) :
    Lawful w (waitFlag a m) :=
  (Lawful.ask (.drawPolls hh) fun _ => rfl).bind fun _ => (Lawful.pollFlag hc hh a m _).bind fun _ =>
    (Lawful.setLast he _).andThen (.ret _)

/-! ## The engine -/

theorem Lawful.antennaOn (hc : w.cs = true) (hh : w.hist = true) (c : Config) : Lawful w (antennaOn c) :=
  .setBits hc hh _ _

theorem Lawful.writeTable (hc : w.cs = true) (hh : w.hist = true) (m : RegMap) (ps : List (ReaderReg × Byte)) :
    Lawful w (writeTable m ps) := by
  induction ps with
  | nil => exact .ret ()
  | cons p ps ih => exact (Lawful.linkWrite hc hh _ _).andThen ih

theorem Lawful.initReader (hc : w.cs = true) (hr : w.rst = true) (hh : w.hist = true) (c : Config) :
    Lawful w (initReader c) :=
  (Lawful.resetPulse hr hh _).andThen ((Lawful.linkWrite hc hh _ _).andThen ((Lawful.settleDelay hh _).andThen
    ((Lawful.writeTable hc hh _ _).andThen (.antennaOn hc hh c))))

theorem Lawful.writeAll (hc : w.cs = true) (hh : w.hist = true) (a : Addr) (bs : List Byte) : Lawful w (writeAll a bs) := by
  induction bs with
  | nil => exact .ret ()
  | cons b bs ih => exact (Lawful.linkWrite hc hh _ _).andThen ih

theorem Lawful.readAll (hc : w.cs = true) (hh : w.hist = true) (a : Addr) (n : Nat) : Lawful w (readAll a n) := by
  induction n with
  | zero => exact .ret []
  | succ n ih => exact (Lawful.linkRead hc hh _).bind fun _ => ih.bind fun _ => .ret _

theorem Lawful.runSeqStep (hc : w.cs = true) (hh : w.hist = true) (he : w.eng = true) (c : Config) (x : Exchange)
    (g : Gathered) (st : SeqStep) : Lawful w (runSeqStep c x g st) := by
  cases st with
  | write => exact (Lawful.linkWrite hc hh _ _).andThen (.ret _)
  | load => exact (Lawful.writeAll hc hh _ _).andThen (.ret _)
  | frame => exact (Lawful.linkWrite hc hh _ _).andThen (.ret _)
  | setBits => exact (Lawful.setBits hc hh _ _).andThen (.ret _)
  | clearBits => exact (Lawful.clearBits hc hh _ _).andThen (.ret _)
  | wait => exact (Lawful.waitFlag hc hh he _ _).bind fun _ => .ret _
  | check => exact (Lawful.linkRead hc hh _).bind fun _ => .ret _
  | count => exact (Lawful.linkRead hc hh _).bind fun _ => .ret _
  | collect => exact (Lawful.readAll hc hh _ _).bind fun _ => .ret _
  | readByte => exact (Lawful.linkRead hc hh _).bind fun _ => .ret _
  | lastBits => exact (Lawful.linkRead hc hh _).bind fun _ => .ret _

theorem Lawful.runSequence (hc : w.cs = true) (hh : w.hist = true) (he : w.eng = true) (c : Config) (x : Exchange)
    (sts : List SeqStep) (g : Gathered) : Lawful w (runSequence c x sts g) := by
  induction sts generalizing g with
  | nil => exact .ret _
  | cons st sts ih =>
    exact (Lawful.runSeqStep hc hh he c x g st).bind fun r => by
      cases r with
      | error why => exact .ret _
      | ok g => exact ih g

/-- A draw recorded as one framed event. -/
theorem Lawful.draw {put : α → Answer} {get : Answer → α} {f : State → α × State} {e : State → LinkEvent}
    (h : Atom w (fun s => (put (f s).1, (f s).2)))
    (hl : ∀ s, (f s).2.link = { s.link with hist := s.link.hist ++ [e s] }) (hf : ∀ s, framed [e s] = true) :
    Lawful w (.ask put get f) :=
  ⟨⟨h, fun _ => trivial⟩, fun s hs u hu _ => ⟨trivial, by simp [hl, hu.link, hs], [e u], by simp [hl, hu.link], hf u⟩⟩

theorem Lawful.xcvB (hc : w.cs = true) (hh : w.hist = true) (he : w.eng = true) (c : Config) (tx : List Byte)
    (lb : BitVec 3) (cap : Byte) : Lawful w (xcvB c tx lb cap) :=
  (Lawful.runSequence hc hh he c _ _ _).bind fun _ => .ret _

/-- A transceive; at level A it makes no transfer. -/
theorem Lawful.transceive {c : Config} (hc : c.level = .b → w.cs = true) (hh : w.hist = true) (he : w.eng = true) (tx : List Byte)
    (lb : BitVec 3) (cap t : Byte) : Lawful w (transceive c tx lb cap t) := by
  unfold Machine.transceive
  refine Lawful.bind ?_ fun r => (Lawful.setLast he _).andThen (.ret _)
  split
  · exact .draw (.drawXcv tx lb cap t hh) (fun _ => rfl) fun _ => rfl
  · next h => exact .xcvB (hc h) hh he c tx lb cap

theorem Lawful.checked {p : Prog XcvResult} (hp : Lawful w p) (he : w.eng = true)
    (check : XcvResult → Except ResultCode (List Byte)) : Lawful w (checked p check) :=
  hp.bind fun _ => (Lawful.setLast he _).andThen (.ret _)

theorem Lawful.requestA {c : Config} (hc : c.level = .b → w.cs = true) (hh : w.hist = true) (he : w.eng = true) :
    Lawful w (requestA c) :=
  .checked (.transceive hc hh he _ _ _ _) he _

theorem Lawful.anticollide {c : Config} (hc : c.level = .b → w.cs = true) (hh : w.hist = true) (he : w.eng = true) :
    Lawful w (anticollide c) :=
  .checked (.transceive hc hh he _ _ _ _) he _

theorem Lawful.computeCrc {c : Config} (hc : c.level = .b → w.cs = true) (hh : w.hist = true) (he : w.eng = true) (data : List Byte) :
    Lawful w (computeCrc c data) := by
  unfold Machine.computeCrc
  refine Lawful.bind ?_ fun r => (Lawful.setLast he _).andThen (.ret _)
  split
  · exact .draw (.drawCrc data hh) (fun _ => rfl) fun _ => rfl
  · next h => exact (Lawful.runSequence (hc h) hh he c _ _ _).bind fun _ => .ret _

/-! ## None of them can raise -/

theorem Prog.Quiet.andThen {p : Prog Unit} {q : Prog β} (hp : p.Quiet) (hq : q.Quiet) : (p.andThen q).Quiet :=
  hp.bind fun _ => hq

theorem Prog.Quiet.tell (f : State → State) : (Prog.tell f).Quiet := fun _ => trivial
theorem Prog.Quiet.ask {put : α → Answer} {get : Answer → α} {f : State → α × State} : (Prog.ask put get f).Quiet :=
  fun _ => trivial

theorem Prog.Quiet.ite {c : Prop} [Decidable c] {p q : Prog α} (hp : p.Quiet) (hq : q.Quiet) :
    (if c then p else q).Quiet := by
  split
  · exact hp
  · exact hq

theorem Prog.Quiet.linkWrite (a : Addr) (d : Byte) : (linkWrite a d).Quiet := fun _ _ _ => trivial
theorem Prog.Quiet.linkRead (a : Addr) : (linkRead a).Quiet := fun _ _ _ => trivial
theorem Prog.Quiet.resetPulse (t : Millis) : (resetPulse t).Quiet := fun _ _ _ => trivial

theorem Prog.Quiet.setBits (a : Addr) (m : Byte) : (setBits a m).Quiet :=
  (Prog.Quiet.linkRead a).bind fun _ => .ite trivial (.linkWrite _ _)

theorem Prog.Quiet.pollFlag (a : Addr) (m : Byte) (n : Nat) : (pollFlag a m n).Quiet := by
  induction n with
  | zero => exact (Prog.Quiet.linkRead a).bind fun _ => trivial
  | succ n ih => exact (Prog.Quiet.linkRead a).bind fun _ => .ite trivial ih

theorem Prog.Quiet.waitFlag (a : Addr) (m : Byte) : (waitFlag a m).Quiet :=
  Prog.Quiet.ask.bind fun _ => (Prog.Quiet.pollFlag a m _).bind fun _ => (Prog.Quiet.tell _).andThen trivial

theorem Prog.Quiet.writeTable (m : RegMap) (ps : List (ReaderReg × Byte)) : (writeTable m ps).Quiet := by
  induction ps with
  | nil => trivial
  | cons p ps ih => exact (Prog.Quiet.linkWrite _ _).andThen ih

theorem Prog.Quiet.initReader (c : Config) : (initReader c).Quiet :=
  (Prog.Quiet.resetPulse _).andThen ((Prog.Quiet.linkWrite _ _).andThen ((Prog.Quiet.tell _).andThen
    ((Prog.Quiet.writeTable _ _).andThen (.setBits _ _))))

theorem Prog.Quiet.writeAll (a : Addr) (bs : List Byte) : (writeAll a bs).Quiet := by
  induction bs with
  | nil => trivial
  | cons b bs ih => exact (Prog.Quiet.linkWrite _ _).andThen ih

theorem Prog.Quiet.readAll (a : Addr) (n : Nat) : (readAll a n).Quiet := by
  induction n with
  | zero => trivial
  | succ n ih => exact (Prog.Quiet.linkRead _).bind fun _ => ih.bind fun _ => trivial

theorem Prog.Quiet.runSeqStep (c : Config) (x : Exchange) (g : Gathered) (st : SeqStep) : (runSeqStep c x g st).Quiet := by
  cases st with
  | write => exact (Prog.Quiet.linkWrite _ _).andThen trivial
  | load => exact (Prog.Quiet.writeAll _ _).andThen trivial
  | frame => exact (Prog.Quiet.linkWrite _ _).andThen trivial
  | setBits => exact (Prog.Quiet.setBits _ _).andThen trivial
  | clearBits => exact ((Prog.Quiet.linkRead _).bind fun _ => .linkWrite _ _).andThen trivial
  | wait => exact (Prog.Quiet.waitFlag _ _).bind fun _ => trivial
  | check => exact (Prog.Quiet.linkRead _).bind fun _ => trivial
  | count => exact (Prog.Quiet.linkRead _).bind fun _ => trivial
  | collect => exact (Prog.Quiet.readAll _ _).bind fun _ => trivial
  | readByte => exact (Prog.Quiet.linkRead _).bind fun _ => trivial
  | lastBits => exact (Prog.Quiet.linkRead _).bind fun _ => trivial

theorem Prog.Quiet.runSequence (c : Config) (x : Exchange) (sts : List SeqStep) (g : Gathered) :
    (runSequence c x sts g).Quiet := by
  induction sts generalizing g with
  | nil => trivial
  | cons st sts ih =>
    exact (Prog.Quiet.runSeqStep c x g st).bind fun r => by
      cases r with
      | error why => trivial
      | ok g => exact ih g

theorem Prog.Quiet.transceive (c : Config) (tx : List Byte) (lb : BitVec 3) (cap t : Byte) :
    (transceive c tx lb cap t).Quiet := by
  unfold Machine.transceive
  refine Prog.Quiet.bind ?_ fun r => (Prog.Quiet.tell _).andThen trivial
  split
  · exact .ask
  · exact (Prog.Quiet.runSequence _ _ _ _).bind fun _ => trivial

theorem Prog.Quiet.checked {p : Prog XcvResult} (hp : p.Quiet) (check : XcvResult → Except ResultCode (List Byte)) :
    (checked p check).Quiet :=
  hp.bind fun _ => (Prog.Quiet.tell _).andThen trivial

theorem Prog.Quiet.computeCrc (c : Config) (data : List Byte) : (computeCrc c data).Quiet := by
  unfold Machine.computeCrc
  refine Prog.Quiet.bind ?_ fun r => (Prog.Quiet.tell _).andThen trivial
  split
  · exact .ask
  · exact (Prog.Quiet.runSequence _ _ _ _).bind fun _ => trivial

end Sys2Proof.Machine
end

