-- ==== Sys2Proof/Laws/Memory.lean ====
section
/-! SUPPORT. The laws of durable storage: a read after a write, every other offset unchanged, the canonical form kept, and
a five-byte record read back whole. -/

namespace Sys2Proof.Machine

@[simp] theorem Memory.read_nil (off : Nat) : Memory.read [] off = Config.powerUpByte off := rfl

/-- Reading through a listed byte: its own offset gives it, any other offset looks further. -/
theorem Memory.read_cons (o : Nat) (x : Byte) (m : Memory) (a : Nat) :
    Memory.read ((o, x) :: m) a = if a = o then x else Memory.read m a := by
  by_cases h : a = o
  · subst h; simp [Memory.read]
  · simp [Memory.read, List.lookup_cons, h, show (a == o) = false by simpa using h]

/-- A write changes the byte at its offset and no other, in any list of cells. -/
theorem Memory.read_write (m : Memory) (off : Nat) (b : Byte) (a : Nat) :
    Memory.read (Memory.write off b m) a = if a = off then b else Memory.read m a := by
  induction m with
  | nil => simp [Memory.write, Memory.read_cons]
  | cons c m ih =>
    obtain ⟨o, x⟩ := c
    simp only [Memory.write]
    split
    · rw [Memory.read_cons]
    · split
      · next h => subst h; simp only [Memory.read_cons]; split <;> rfl
      · simp only [Memory.read_cons, ih]
        by_cases h1 : a = o <;> by_cases h2 : a = off <;> simp_all

@[simp] theorem Memory.read_write_same (m : Memory) (off : Nat) (b : Byte) :
    Memory.read (Memory.write off b m) off = b := by simp [Memory.read_write]

theorem Memory.read_write_other (m : Memory) (off : Nat) (b : Byte) {a : Nat} (h : a ≠ off) :
    Memory.read (Memory.write off b m) a = Memory.read m a := by simp [Memory.read_write, h]

/-- A multi-byte write leaves every offset outside it alone. -/
theorem Memory.read_writeBytes_other (bs : List Byte) (m : Memory) (off a : Nat)
    (h : a < off ∨ off + bs.length ≤ a) :
    Memory.read (Memory.writeBytes off bs m) a = Memory.read m a := by
  induction bs generalizing m off with
  | nil => rfl
  | cons b bs ih =>
    simp only [List.length_cons] at h
    rw [Memory.writeBytes, ih _ _ (by omega), Memory.read_write_other _ _ _ (by omega)]

/-- What was written as a block is read back as that block. -/
theorem Memory.readBytes_writeBytes (bs : List Byte) (m : Memory) (off : Nat) :
    Memory.readBytes (Memory.writeBytes off bs m) off bs.length = bs := by
  induction bs generalizing m off with
  | nil => rfl
  | cons b bs ih =>
    simp only [Memory.writeBytes, List.length_cons, Memory.readBytes, ih]
    rw [Memory.read_writeBytes_other _ _ _ _ (by omega), Memory.read_write_same]

@[simp] theorem Memory.length_readBytes (m : Memory) (off n : Nat) : (Memory.readBytes m off n).length = n := by
  induction n generalizing off with
  | zero => rfl
  | succ n ih => simp [Memory.readBytes, ih]

/-- The canonical form, by its first cell. -/
theorem Memory.wf_cons (c : Host.Cell) (m : Memory) :
    Memory.wf (c :: m) = true ↔ (∀ d ∈ m.head?, c.1 < d.1) ∧ Memory.wf m = true := by
  cases m with
  | nil => simp [Memory.wf]
  | cons d m => simp [Memory.wf]

theorem Memory.head_write (off : Nat) (b : Byte) (m : Memory) (k : Nat) (hk : k < off)
    (h : ∀ d ∈ m.head?, k < d.1) : ∀ d ∈ (Memory.write off b m).head?, k < d.1 := by
  cases m with
  | nil => simpa [Memory.write] using hk
  | cons c m =>
    simp only [Memory.write]
    split
    · simpa using hk
    · split
      · simpa using hk
      · simpa using h

/-- A write keeps the canonical form. -/
theorem Memory.wf_write (off : Nat) (b : Byte) (m : Memory) (h : Memory.wf m = true) :
    Memory.wf (Memory.write off b m) = true := by
  induction m with
  | nil => rfl
  | cons c m ih =>
    obtain ⟨hd, hm⟩ := (Memory.wf_cons c m).mp h
    simp only [Memory.write]
    split
    · next hlt => exact (Memory.wf_cons _ _).mpr ⟨by simpa using hlt, h⟩
    · split
      · next heq => exact (Memory.wf_cons _ _).mpr ⟨by simpa [heq] using hd, hm⟩
      · exact (Memory.wf_cons _ _).mpr ⟨Memory.head_write off b m c.1 (by omega) hd, ih hm⟩

/-- A multi-byte write keeps the canonical form. -/
theorem Memory.wf_writeBytes (bs : List Byte) (off : Nat) (m : Memory) (h : Memory.wf m = true) :
    Memory.wf (Memory.writeBytes off bs m) = true := by
  induction bs generalizing off m with
  | nil => exact h
  | cons b bs ih => exact ih _ _ (Memory.wf_write off b m h)

/-- Replaying writes keeps the canonical form. -/
theorem Memory.wf_replay (ws : List StorageWrite) (m : Memory) (h : Memory.wf m = true) :
    Memory.wf (Memory.replay m ws) = true := by
  induction ws generalizing m with
  | nil => exact h
  | cons w ws ih => exact ih _ (Memory.wf_writeBytes w.2 w.1 m h)

theorem Memory.replay_append (m : Memory) (v w : List StorageWrite) :
    Memory.replay m (v ++ w) = Memory.replay (Memory.replay m v) w := by
  induction v generalizing m with
  | nil => rfl
  | cons x v ih => exact ih _

/-- A write at an existing offset lists only existing offsets. -/
theorem Memory.within_write (size off : Nat) (b : Byte) (m : Memory) (ho : off < size)
    (h : Memory.within size m = true) : Memory.within size (Memory.write off b m) = true := by
  induction m with
  | nil => simpa [Memory.write, Memory.within] using ho
  | cons c m ih =>
    simp only [Memory.within, List.all_cons, Bool.and_eq_true, decide_eq_true_eq] at h ⊢
    simp only [Memory.write]
    split
    · simp only [List.all_cons, Bool.and_eq_true, decide_eq_true_eq]; exact ⟨ho, h⟩
    · split
      · simp only [List.all_cons, Bool.and_eq_true, decide_eq_true_eq]; exact ⟨ho, h.2⟩
      · simp only [List.all_cons, Bool.and_eq_true, decide_eq_true_eq]; exact ⟨h.1, ih h.2⟩

theorem Memory.within_writeBytes (size : Nat) (bs : List Byte) (off : Nat) (m : Memory) (ho : off + bs.length ≤ size)
    (h : Memory.within size m = true) : Memory.within size (Memory.writeBytes off bs m) = true := by
  induction bs generalizing off m with
  | nil => exact h
  | cons b bs ih =>
    simp only [List.length_cons] at ho
    exact ih _ _ (by omega) (Memory.within_write size off b m (by omega) h)

end Sys2Proof.Machine
end

