-- ==== Sys2Proof/Laws/Record.lean ====
section
/-! SUPPORT. The laws of the record: bytes and fields, when it is valid, what loading and saving it do as a whole, and where
they lead whatever arrives on the way. -/

namespace Sys2Proof.Machine

@[simp] theorem Record.ofBytes_bytes (r : Record) : Record.ofBytes r.bytes = r := rfl

@[simp] theorem Record.length_bytes (r : Record) : r.bytes.length = 5 := rfl

/-- Five bytes are the bytes of their record. -/
theorem Record.bytes_ofBytes (b : List Byte) (h : b.length = 5) : (Record.ofBytes b).bytes = b := by
  match b, h with
  | [_, _, _, _, _], _ => rfl

/-- What validity says, conjunct by conjunct (R273). -/
theorem Record.valid_iff (c : Config) (r : Record) :
    r.valid c = true ↔ r.magic = c.magic ∧ r.checksum = r.fold ∧ (c.loadRangeCheck = true → r.inRange = true) := by
  simp only [Record.valid, Bool.and_eq_true, beq_iff_eq, Bool.or_eq_true, Bool.not_eq_true', and_assoc]
  cases c.loadRangeCheck <;> simp

/-- What an in-range record says of its fields (R24 to R26). -/
theorem Record.inRange_iff (r : Record) : r.inRange = true ↔
    (r.lockState = 0x00#8 ∨ r.lockState = 0x01#8) ∧ r.wrongAttempts.toNat ≤ 3 ∧ r.lsr.toNat ≤ 30 := by
  simp only [Record.inRange, Bool.and_eq_true, Bool.or_eq_true, beq_iff_eq, decide_eq_true_eq, and_assoc]
  exact Iff.rfl

/-- The record as `SSAVE` leaves it (R276): the magic forced, the checksum recomputed. -/
def Record.sealed (magic : Byte) (r : Record) : Record :=
  { r with magic := magic, checksum := fold4 magic r.lockState r.wrongAttempts r.lsr }

@[simp] theorem Record.inRange_sealed (m : Byte) (r : Record) : (r.sealed m).inRange = r.inRange := rfl

/-- A sealed record is valid as far as its ranges are (R276). -/
theorem Record.valid_sealed (c : Config) (r : Record) (h : c.loadRangeCheck = true → r.inRange = true) :
    (r.sealed c.magic).valid c = true :=
  (Record.valid_iff c _).mpr ⟨rfl, rfl, h⟩

/-- Sealing a valid record changes nothing. -/
theorem Record.sealed_of_valid (c : Config) (r : Record) (h : r.valid c = true) : r.sealed c.magic = r := by
  obtain ⟨hm, hc, -⟩ := (Record.valid_iff c r).mp h
  cases r
  simp only [Record.sealed, Record.fold] at *
  simp_all

theorem defaultRecord_valid (c : Config) : (defaultRecord c.magic).valid c = true :=
  (Record.valid_iff c _).mpr ⟨rfl, by simp [defaultRecord, Record.fold, fold4], fun _ => rfl⟩

/-- The record's bytes after it was written (R66). -/
theorem recordBytes_memWrite (r : Record) (s : State) :
    (State.memWrite Config.recordOffset r.bytes s).recordBytes = r.bytes :=
  Memory.readBytes_writeBytes r.bytes s.durable 0

@[simp] theorem State.length_recordBytes (s : State) : s.recordBytes.length = 5 := Memory.length_readBytes _ _ _

/-- A stored record is in range where the configuration asks for it. -/
theorem inRange_of_stored {s : State} {r : Record} (hr : s.held = some r) (hs : s.recordStored)
    (hc : s.cfg.loadRangeCheck = true) : r.inRange = true :=
  ((Record.valid_iff _ _).mp (hs r hr).1).2.2 hc

/-! ## Saving and loading as a whole -/

theorem run_heldRecord_some {s : State} {r : Record} (h : s.held = some r) : heldRecord.run s = .ok (r, s) := by
  simp [heldRecord, Prog.run_bind, State.readRecord, h]

theorem run_heldRecord_none {s : State} (h : s.loaded = false) : heldRecord.run s = .error .unwritten := by
  simp [heldRecord, Prog.run_bind, State.readRecord, State.held, h]

/-- The closed form of a save (R276). -/
theorem run_persist_some (c : Config) {s : State} (h : s.loaded = true) : (persist c).run s = .ok ((), { s with
    record := s.record.sealed c.magic
    durable := Memory.writeBytes Config.recordOffset (s.record.sealed c.magic).bytes s.durable
    writes := s.writes ++ [(Config.recordOffset, (s.record.sealed c.magic).bytes)] }) := by
  simp [persist, Prog.andThen, Prog.run_bind, run_heldRecord_some (State.held_eq_some.mpr ⟨h, rfl⟩), State.editRecord,
    State.storeCopy, State.memWrite, Record.sealed]

/-- A save of a record that no rule has written (60_exceptions.md R366). -/
theorem run_persist_none (c : Config) {s : State} (h : s.loaded = false) : (persist c).run s = .error .unwritten := by
  simp [persist, Prog.run_bind, run_heldRecord_none h]

/-- Loading a valid stored record takes it as it is (R274). -/
theorem run_loadRecord_valid {c : Config} {s : State} (h : (Record.ofBytes s.recordBytes).valid c = true) :
    (loadRecord c).run s = .ok (s.recordBytes, { s with record := Record.ofBytes s.recordBytes, loaded := true }) := by
  simp [loadRecord, Prog.andThen, Prog.run_bind, State.readStored, State.loadCopy, h]

/-- Loading a corrupt stored record replaces it by the default (R274). -/
theorem run_loadRecord_corrupt {c : Config} {s : State} (h : (Record.ofBytes s.recordBytes).valid c = false) :
    (loadRecord c).run s = .ok ((defaultRecord c.magic).bytes,
      { State.memWrite Config.recordOffset (defaultRecord c.magic).bytes s with
        record := defaultRecord c.magic
        loaded := true }) := by
  simp [loadRecord, Prog.andThen, Prog.run_bind, State.readStored, State.loadCopy, h]

theorem Prog.Quiet.loadRecord (c : Config) : (loadRecord c).Quiet :=
  Prog.Quiet.ask.bind fun _ => .ite ((Prog.Quiet.tell _).andThen trivial)
    ((Prog.Quiet.tell _).andThen ((Prog.Quiet.tell _).andThen trivial))

/-! ## Their steps -/

variable {w : Writes}

theorem Lawful.heldRecord : Lawful w heldRecord :=
  (Lawful.ask (f := State.readRecord) (.look (fun s => .record s.held) (fun _ _ _ => rfl) fun _ _ _ _ _ => rfl)
    fun _ => rfl).bind fun r => by cases r <;> first | exact .raise _ | exact .ret _

theorem Lawful.editRecord (f : Record → Record) (hs : w.store = true) (hl : w.lock = true ∨ ∀ r, (f r).lockState = r.lockState)
    (hc : w.counts = true ∨ ∀ r, (f r).wrongAttempts = r.wrongAttempts ∧ (f r).lsr = r.lsr) :
    Lawful w (.tell (State.editRecord f)) :=
  .tell (.editRecord f hs hl hc) fun _ => rfl

theorem Lawful.storeCopy (hs : w.store = true) : Lawful w (.tell State.storeCopy) :=
  .tell (.storeCopy hs) fun _ => rfl

theorem Lawful.persist (hs : w.store = true) (c : Config) : Lawful w (persist c) := by
  refine Lawful.heldRecord.bind fun _ => Lawful.andThen (.editRecord _ hs (.inr ?_) (.inr ?_))
    (Lawful.andThen (.editRecord _ hs (.inr ?_) (.inr ?_)) (.storeCopy hs)) <;> simp

theorem Lawful.loadRecord (hs : w.store = true) (hl : w.lock = true) (hc : w.counts = true) (c : Config) :
    Lawful w (loadRecord c) :=
  (Lawful.ask (f := State.readStored) (.look (fun s => .bytes s.recordBytes) (fun _ _ _ => rfl) fun _ _ _ _ _ => rfl)
    fun _ => rfl).bind fun _ => .ite
      ((Lawful.tell (.loadCopy _ hs hl hc) fun _ => rfl).andThen (.ret _))
      ((Lawful.tell (.memWrite (defaultRecord c.magic) hs) fun _ => rfl).andThen
        ((Lawful.tell (.loadCopy _ hs hl hc) fun _ => rfl).andThen (.ret _)))

/-! ## Where they lead, whatever arrives -/

/-- `t` agrees with `s` on everything R45 speaks of but the record and what is stored. -/
structure Around (s t : State) : Prop where
  cfg : t.cfg = s.cfg
  attached : t.irq.attached = s.irq.attached
  booted : t.seq.booted = s.seq.booted
  phase : t.seq.phase = s.seq.phase
  link : t.link = s.link

theorem Around.trans {s t u : State} (h : Around s t) (k : Around t u) : Around s u :=
  ⟨k.cfg.trans h.cfg, k.attached.trans h.attached, k.booted.trans h.booted, k.phase.trans h.phase, k.link.trans h.link⟩

theorem Disturbed.around {s u : State} (h : Disturbed s u) : Around s u := ⟨h.cfg, h.attached, h.booted, h.phase, h.link⟩

/-- R45 again, once the record is stored again. -/
theorem Around.settled {s t : State} (h : Around s t) (hs : s.Settled) (ht : t.recordStored)
    (hr : s.loaded = true → t.loaded = true) : t.Settled where
  record := ht
  booted e := by
    obtain ⟨h1, h2, h3⟩ := hs.booted (h.booted ▸ e)
    exact ⟨hr h1, h.attached.trans h2, h.phase.trans h3⟩
  notBooted e := by
    obtain ⟨h1, h2⟩ := hs.notBooted (h.booted ▸ e)
    exact ⟨h.phase.trans h1, h.attached.trans h2⟩
  cs := by rw [h.link]; exact hs.cs
  hist := by rw [h.link]; exact hs.hist

/-- Storing a valid record keeps what holds at every moment. -/
theorem State.Always.memWrite {s : State} (h : s.Always) (r : Record) (hr : r.valid s.cfg = true) :
    (State.memWrite Config.recordOffset r.bytes s).Always where
  memory := Memory.wf_writeBytes _ _ _ h.memory
  memoryWithin := Memory.within_writeBytes _ _ _ _ (by
    simp [Config.storageSize, Config.recordOffset, Config.recordSize]) h.memoryWithin
  stored _ := by rw [recordBytes_memWrite, Record.ofBytes_bytes]; exact hr
  tag := h.tag
  tagCap := h.tagCap
  simCap := h.simCap
  simLine := h.simLine
  irq := h.irq
  latch := h.latch

/-- Loading a record that is stored and valid keeps it. -/
theorem State.Always.loadCopy {s : State} (h : s.Always) (r : Record) (hr : (Record.ofBytes s.recordBytes).valid s.cfg = true) :
    (State.loadCopy r s).Always := ⟨h.memory, h.memoryWithin, fun _ => hr, h.tag, h.tagCap, h.simCap, h.simLine, h.irq, h.latch⟩

theorem State.Always.editRecord {s : State} (h : s.Always) (f : Record → Record) : (State.editRecord f s).Always :=
  ⟨h.memory, h.memoryWithin, fun e => h.stored (by simpa using e), h.tag, h.tagCap, h.simCap, h.simLine, h.irq, h.latch⟩

theorem State.Always.command {s : State} (h : s.Always) (c : ActCommand) : (State.command c s).Always :=
  ⟨h.memory, h.memoryWithin, h.stored, h.tag, h.tagCap, h.simCap, h.simLine, h.irq, h.latch⟩

/-- Storing the copy, when it is valid, keeps what holds at every moment and makes the stored record equal to it. -/
theorem State.Always.storeCopy {s : State} (h : s.Always) {r : Record} (hr : s.held = some r) (hv : r.valid s.cfg = true) :
    (State.storeCopy s).Always ∧ Around s (State.storeCopy s) ∧ (State.storeCopy s).recordStored ∧
      (State.storeCopy s).loaded = true := by
  rw [storeCopy_eq hr]
  refine ⟨h.memWrite r hv, ⟨rfl, rfl, rfl, rfl, rfl⟩, fun q hq => ?_, (State.held_eq_some.mp hr).1⟩
  obtain rfl : r = q := by simpa [hr] using hq
  exact ⟨hv, recordBytes_memWrite r s⟩

/-- A load leads to a record that is held, valid and stored. -/
theorem loadRecord_ends (c : Config) (s : State) (hc : s.cfg = c) :
    (loadRecord c).Ends State.Always (fun _ t => Around s t ∧ t.recordStored ∧ t.loaded = true) s := by
  refine Prog.Ends.bind (Q := fun b t => b = t.recordBytes ∧ Around s t)
    (fun u hd hj => ⟨hj, rfl, hd.around⟩) fun b t hbt => ?_
  obtain ⟨hb, ht⟩ := hbt
  have htc : t.cfg = c := ht.cfg.trans hc
  split
  · next hv =>
    refine Prog.Ends.andThen (P := fun u => Around s u ∧ u.recordStored ∧ u.loaded = true) (fun u hd hj => ?_) fun _ => id
    have hub : u.recordBytes = b := by rw [hb, hd.same]; rfl
    refine ⟨hj.loadCopy _ (by rw [hub, hd.cfg, htc]; exact hv), (ht.trans hd.around).trans ⟨rfl, rfl, rfl, rfl, rfl⟩, ?_, rfl⟩
    rintro q ⟨⟩
    exact ⟨by rw [State.loadCopy_cfg, hd.cfg, htc]; exact hv,
      hub.trans (Record.bytes_ofBytes b (by rw [hb]; simp)).symm⟩
  · refine Prog.Ends.andThen (P := fun u => Around s u ∧ u.recordBytes = (defaultRecord c.magic).bytes) (fun u hd hj => ?_) ?_
    · exact ⟨hj.memWrite _ (by rw [hd.cfg, htc]; exact defaultRecord_valid c),
        (ht.trans hd.around).trans ⟨rfl, rfl, rfl, rfl, rfl⟩, recordBytes_memWrite _ u⟩
    · rintro u ⟨hu, hub⟩
      refine Prog.Ends.andThen (P := fun u => Around s u ∧ u.recordStored ∧ u.loaded = true) (fun v hd hj => ?_) fun _ => id
      have hvb : v.recordBytes = (defaultRecord c.magic).bytes := by rw [← hub, hd.same]; rfl
      have hvc : v.cfg = c := hd.cfg.trans (hu.cfg.trans hc)
      refine ⟨hj.loadCopy _ ?_, (hu.trans hd.around).trans ⟨rfl, rfl, rfl, rfl, rfl⟩, ?_, rfl⟩
      · rw [hvb, Record.ofBytes_bytes, hvc]; exact defaultRecord_valid c
      · rintro q ⟨⟩
        exact ⟨by rw [State.loadCopy_cfg, hvc]; exact defaultRecord_valid c, hvb⟩

/-- Holding record `r`, which may not be stored yet, with everything else as in `s`. -/
structure Saving (s : State) (r : Record) (t : State) : Prop where
  around : Around s t
  record : t.held = some r

variable {s : State} {r : Record}

/-- One field write. -/
theorem Saving.edit {t : State} (h : Saving s r t) (f : Record → Record) :
    (Prog.tell (State.editRecord f)).Ends State.Always (fun _ => Saving s (f r)) t := fun _ hd hj =>
  ⟨hj.editRecord f, (h.around.trans hd.around).trans ⟨rfl, rfl, rfl, rfl, rfl⟩, by simp [hd.held, h.record]⟩

/-- One command to the actuator. -/
theorem Saving.command {t : State} (h : Saving s r t) (c : ActCommand) :
    (Prog.tell (State.command c)).Ends State.Always (fun _ => Saving s r) t := fun _ hd hj =>
  ⟨hj.command c, (h.around.trans hd.around).trans ⟨rfl, rfl, rfl, rfl, rfl⟩, hd.held.trans h.record⟩

theorem heldRecord_ends {R : Record → State → Prop} {t : State}
    (h : ∀ u r, Disturbed t u → u.held = some r → R r u) : heldRecord.Ends State.Always R t := by
  refine Prog.Ends.bind (Q := fun o u => Disturbed t u ∧ o = u.held) (fun u hd hj => ⟨hj, hd, rfl⟩) fun o u hu => ?_
  obtain ⟨hd, rfl⟩ := hu
  cases hr : u.held with
  | none => trivial
  | some r => exact h u r hd hr

/-- A save leads to a record that is held, valid and stored. -/
theorem persist_ends {c : Config} (hc : s.cfg = c) {t : State} (h : Saving s r t)
    (hr : c.loadRangeCheck = true → r.inRange = true) :
    (persist c).Ends State.Always (fun _ t => Around s t ∧ t.recordStored ∧ t.loaded = true) t := by
  have hv : (r.sealed c.magic).valid c = true := Record.valid_sealed c r hr
  refine Prog.Ends.bind (Q := fun _ => Saving s r)
    (heldRecord_ends fun u q hd _ => ⟨h.around.trans hd.around, hd.held.trans h.record⟩) fun _ u hu => ?_
  refine (hu.edit _).andThen fun v hv' => (hv'.edit _).andThen fun x hx => ?_
  intro y hd hj
  have hyr : y.held = some (r.sealed c.magic) := hd.held.trans hx.record
  have hyc : y.cfg = c := hd.cfg.trans (hx.around.cfg.trans hc)
  obtain ⟨h1, h2, h3⟩ := hj.storeCopy hyr (by rw [hyc]; exact hv)
  exact ⟨h1, (hx.around.trans hd.around).trans h2, h3⟩

end Sys2Proof.Machine
end

