-- ==== Sys2Proof/Laws/Detector.lean ====
section
/-! SUPPORT. What the detector does, and `Settling`, kept by every operation but `BOOT` and shown here for all those that do
not store: from R45 back to R45, whatever arrives on the way. -/

namespace Sys2Proof.Machine

variable {w : Writes} {α β : Type}

/-! ## From R45 to R45 -/

/-- Started where R45 holds, the program leads back there, and keeps what holds at every moment. -/
def Settling (c : Config) (p : Prog α) : Prop :=
  ∀ s : State, s.cfg = c → s.Settled → p.Ends State.Always (fun _ t => t.cfg = c ∧ t.Settled) s

variable {c : Config}

theorem Settling.ret (a : α) : Settling c (.ret a) := fun _ hc hs => ⟨hc, hs⟩
theorem Settling.raise (f : Fault) : Settling c (.raise f : Prog α) := fun _ _ _ => trivial

theorem Settling.bind {p : Prog α} {k : α → Prog β} (hp : Settling c p) (hk : ∀ a, Settling c (k a)) :
    Settling c (p.bind k) :=
  fun s hc hs => (hp s hc hs).bind fun a t ht => hk a t ht.1 ht.2

theorem Settling.andThen {p : Prog Unit} {q : Prog β} (hp : Settling c p) (hq : Settling c q) : Settling c (p.andThen q) :=
  hp.bind fun _ => hq

theorem Settling.ite {d : Prop} [Decidable d] {p q : Prog α} (hp : Settling c p) (hq : Settling c q) :
    Settling c (if d then p else q) := by
  split
  · exact hp
  · exact hq

/-- Every step keeps interrupts enabled, no edge held, and the latch clear until it is attached. -/
theorem Atom.irq {f : State → Answer × State} (h : Atom w f) {s : State} (hs : s.Always) :
    ((f s).2.irq.enabled = true ∧ (f s).2.irq.pending = false) ∧ ((f s).2.pfl.latch = true → (f s).2.irq.attached = true) := by
  have h1 := hs.irq
  have h2 := hs.latch
  cases h with
  | takeLatch h => rw [takeLatch_snd]; simp_all
  | storeCopy h => simp_all [State.storeCopy]
  | popChar h => cases hc : s.inp.chars <;> simp_all [State.takeChar]
  | accumulate c h => simp only [State.accumulate]; split <;> simp_all
  | drawXcv => exact ⟨h1, h2⟩
  | drawCrc => exact ⟨h1, h2⟩
  | _ => simp_all

/-- A step that does not store and does not touch the buffers keeps what holds at every moment. -/
theorem Atom.always (hs : w.store = false) (ht : w.tag = false) (hm : w.sim = false) {f : State → Answer × State} (h : Atom w f)
    {s : State} (ha : s.Always) : (f s).2.Always := by
  have hk := h.kept s
  obtain ⟨-, h2, -⟩ := hk.store hs
  have h3 := hk.tag ht
  have h4 := (hk.sim hm).1
  obtain ⟨hi, hl⟩ := h.irq ha
  exact ⟨h2 ▸ ha.memory, by rw [hk.cfg, h2]; exact ha.memoryWithin,
    by unfold State.recordBytes; rw [hk.loaded hs, h2, hk.cfg]; exact ha.stored,
    by rw [h3]; exact ha.tag, by rw [h3]; exact ha.tagCap, by rw [h4]; exact ha.simCap, by rw [h4]; exact ha.simLine, hi, hl⟩

/-- What every step keeps is kept, beside where the program leads. -/
theorem Prog.Ends.keeping {J P : State → Prop} {Q : α → State → Prop} {p : Prog α} {s : State}
    (he : p.Each (fun f => ∀ s, J s → P s → J (f s).2 ∧ P (f s).2)) (hd : ∀ s u, P s → Disturbed s u → P u) (hs : P s)
    (h : p.Ends (fun _ => True) Q s) : p.Ends J (fun a t => P t ∧ Q a t) s := by
  induction p generalizing s with
  | ret a => exact ⟨hs, h⟩
  | raise f => trivial
  | step act next ih =>
    exact fun u hu hj => ⟨(he.1 u hj (hd _ _ hs hu)).1,
      ih _ (he.2 _) (he.1 u hj (hd _ _ hs hu)).2 (h u hu trivial).2⟩

/-- A lawful program that does not store, and does not touch the buffers or the boot state, leads from R45 to R45; the
same holds of any `P` that does not speak of the link. -/
theorem Lawful.keeping {P : State → Prop} {p : Prog α} (hp : Lawful w p) (hs : w.store = false) (ht : w.tag = false)
    (hm : w.sim = false) (hP : ∀ s t, P s → Kept w s t → P t) (hd : ∀ s u, P s → Disturbed s u → P u) {s : State}
    (hc : s.link.cs = .deasserted) (h : P s) : p.Ends State.Always (fun _ t => P t ∧ Grown s t) s :=
  Prog.Ends.keeping (hp.each.mono fun _ hf _ ha h => ⟨hf.always hs ht hm ha, hP _ _ h (hf.kept _)⟩) hd h (hp.framing s hc)

/-- R45 without the link. -/
structure Stored (c : Config) (s : State) : Prop where
  cfg : s.cfg = c
  record : s.recordStored
  booted : s.seq.booted = true → s.loaded = true ∧ s.irq.attached = true ∧ s.seq.phase = .running
  notBooted : s.seq.booted = false → s.seq.phase = .powerOn ∧ s.irq.attached = false

theorem Stored.kept (hs : w.store = false) (ha : w.attach = false) (hq : w.seq = false) {s t : State} (h : Stored c s)
    (hk : Kept w s t) : Stored c t := by
  obtain ⟨-, h2, -⟩ := hk.store hs
  obtain ⟨h3, h4⟩ := hk.seq hq
  have h5 := hk.attach ha
  refine ⟨hk.cfg.trans h.cfg, ?_, ?_, ?_⟩
  · unfold State.recordStored State.recordBytes; rw [hk.held_eq hs, h2, hk.cfg]; exact h.record
  · rw [h3, hk.loaded hs, h5, h4]; exact h.booted
  · rw [h3, h4, h5]; exact h.notBooted

theorem Stored.disturbed {s u : State} (h : Stored c s) (hd : Disturbed s u) : Stored c u := by
  obtain ⟨h1, h2, h3, h4⟩ := h
  rw [hd.same]; exact ⟨h1, h2, h3, h4⟩

theorem Stored.settled {s t : State} (h : Stored c t) (hs : s.Settled) (hg : Grown s t) : t.Settled := by
  obtain ⟨x, hx, fx⟩ := hg.hist
  exact ⟨h.record, h.booted, h.notBooted, hg.cs, by rw [hx]; exact framed_append _ _ hs.hist fx⟩

theorem State.Settled.stored {s : State} (h : s.Settled) (hc : s.cfg = c) : Stored c s :=
  ⟨hc, h.record, h.booted, h.notBooted⟩

theorem Lawful.settling {p : Prog α} (hp : Lawful w p) (hs : w.store = false) (ht : w.tag = false) (hm : w.sim = false)
    (ha : w.attach = false) (hq : w.seq = false) : Settling c p := fun _ hc hs' =>
  (hp.keeping hs ht hm (fun _ _ h hk => h.kept hs ha hq hk) (fun _ _ h hd => h.disturbed hd) hs'.cs (hs'.stored hc)).mono
    fun _ _ h => ⟨h.1.cfg, h.1.settled hs' h.2⟩

/-- One step that keeps what holds at every moment and is nothing to R45. -/
theorem Settling.tell {f : State → State} (ha : ∀ s : State, s.Always → (f s).Always)
    (hs : ∀ s : State, s.Settled → (f s).Settled) (hc : ∀ s, (f s).cfg = s.cfg) : Settling c (.tell f) :=
  fun _ h hs' u hd hj => ⟨ha u hj, (hc u).trans (hd.cfg.trans h), hs u (hs'.disturbed hd)⟩

/-- A step that looks. -/
theorem Settling.look {put : α → Answer} {get : Answer → α} {g : State → α} :
    Settling c (.ask put get fun s => (g s, s)) :=
  fun _ h hs _ hd hj => ⟨hj, hd.cfg.trans h, hs.disturbed hd⟩

/-! ## The buffers -/

/-- An accepted anticollision answer has four bytes (R190). -/
theorem checkUid_length (r : XcvResult) (uid : List Byte) (h : checkUid r = .ok uid) : uid.length = 4 := by
  cases r with
  | fail why => simp [checkUid] at h
  | ok rx lastBits =>
    simp only [checkUid] at h
    split at h
    · cases h
    · split at h
      · next h5 _ => cases h; simp only [Config.uidLen, List.length_take]; omega
      · cases h

/-- Nothing of R45 but `tag` and `sim` changes. -/
theorem State.Settled.buffers {s : State} (h : s.Settled) (t : Tag) (m : Sim) (i : Inputs) :
    ({ s with tag := t, sim := m, inp := i } : State).Settled := ⟨h.record, h.booted, h.notBooted, h.cs, h.hist⟩

theorem State.Always.buffers {s : State} (h : s.Always) {t : Tag} {m : Sim} (i : Inputs) (h1 : t.valid = true → t.len = 4)
    (h2 : t.len ≤ Config.tagBufCap) (h3 : m.len ≤ Config.simLineCap) (h4 : ∀ c ∈ m.line, isTerm c = false) :
    ({ s with tag := t, sim := m, inp := i } : State).Always :=
  ⟨h.memory, h.memoryWithin, h.stored, h1, h2, h3, h4, h.irq, h.latch⟩

/-- Buffering an identifier of four bytes: its length is right before `tag.valid` says so. -/
theorem Settling.bufferTag {bs : List Byte} (hb : bs.length = 4) : Settling c (bufferTag bs) := fun s hc hs => by
  refine Prog.Ends.andThen (P := fun t => (t.cfg = c ∧ t.Settled) ∧ t.tag.bytes = bs) (fun u hd hj => ?_) ?_
  · exact ⟨hj.buffers u.inp (t := { u.tag with bytes := bs }) (m := u.sim) (fun _ => hb)
      (by simp [Tag.len, hb, Config.tagBufCap]) hj.simCap hj.simLine,
      ⟨hd.cfg.trans hc, (hs.disturbed hd).buffers _ _ _⟩, rfl⟩
  · rintro t ⟨⟨htc, hts⟩, htb⟩ u hd hj
    have hl : u.tag.len = 4 := by rw [Tag.len, hd.tag, htb, hb]
    exact ⟨hj.buffers u.inp (t := { u.tag with valid := true }) (m := u.sim) (fun _ => hl)
      hj.tagCap hj.simCap hj.simLine, hd.cfg.trans htc, (hts.disturbed hd).buffers _ _ _⟩

theorem Settling.setTagInvalid : Settling c (.tell (State.setTagValid false)) :=
  .tell (fun s h => h.buffers s.inp (t := { s.tag with valid := false }) (m := s.sim) nofun h.tagCap h.simCap h.simLine)
    (fun s h => h.buffers { s.tag with valid := false } s.sim s.inp) fun _ => rfl

theorem Settling.setLine : Settling c (.tell (State.setLine [])) :=
  .tell (fun s h => h.buffers s.inp (t := s.tag) (m := { line := [] }) h.tag h.tagCap (Nat.zero_le _) nofun)
    (fun s h => h.buffers s.tag { line := [] } s.inp) fun _ => rfl

theorem Settling.accumulate {ch : Byte} (hch : isTerm ch = false) : Settling c (.tell (State.accumulate ch)) := by
  refine .tell (fun s h => ?_) (fun s h => ?_) fun s => ?_
  · simp only [State.accumulate]
    split
    · next hlt =>
      refine h.buffers s.inp (t := s.tag) (m := { line := s.sim.line ++ [ch] }) h.tag h.tagCap ?_ ?_
      · simp only [Sim.len, List.length_append, List.length_singleton] at hlt ⊢; omega
      · intro d hd
        rcases List.mem_append.mp hd with hd | hd
        · exact h.simLine d hd
        · obtain rfl : d = ch := by simpa using hd
          exact hch
    · exact h.buffers s.inp (t := s.tag) (m := { line := [] }) h.tag h.tagCap (Nat.zero_le _) nofun
  · simp only [State.accumulate]
    split
    · exact h.buffers s.tag { line := s.sim.line ++ [ch] } s.inp
    · exact h.buffers s.tag { line := [] } s.inp
  · simp only [State.accumulate]; split <;> rfl

theorem Settling.popChar : Settling c popChar := fun s hc hs u hd hj => by
  have : (State.takeChar u).2 = { u with inp := (State.takeChar u).2.inp } := by
    simp only [State.takeChar]; split <;> rfl
  refine ⟨?_, ?_, ?_⟩
  · rw [this]; exact hj.buffers (State.takeChar u).2.inp (t := u.tag) (m := u.sim) hj.tag hj.tagCap hj.simCap hj.simLine
  · rw [this]; exact hd.cfg.trans hc
  · rw [this]; exact (hs.disturbed hd).buffers u.tag u.sim (State.takeChar u).2.inp

/-! ## The detector settles -/

/-- An exchange and its checks reach the reader alone. -/
theorem Settling.requestA : Settling c (requestA c) :=
  (Lawful.requestA (w := { cs := true, hist := true, eng := true }) (fun _ => rfl) rfl rfl).settling rfl rfl rfl rfl rfl

/-- `PANTICOLL` answers four bytes, or a failure. -/
theorem anticollide_ends (s : State) (hc : s.cfg = c) (hs : s.Settled) :
    (anticollide c).Ends State.Always (fun r t => (∀ uid, r = .ok uid → uid.length = 4) ∧ t.cfg = c ∧ t.Settled) s := by
  have hx : Settling c (exchangeAnticoll c) :=
    (Lawful.transceive (w := { cs := true, hist := true, eng := true }) (fun _ => rfl) rfl rfl _ _ _ _).settling
      rfl rfl rfl rfl rfl
  have hl : ∀ q, Settling c (.tell (State.setLast q)) := fun q =>
    (Lawful.setLast (w := { eng := true }) rfl q).settling rfl rfl rfl rfl rfl
  refine (hx s hc hs).bind fun r t ht => (hl _ t ht.1 ht.2).bind fun _ u hu => ⟨fun uid h => checkUid_length r uid h, hu⟩

theorem Settling.tagAvailLive : Settling c (tagAvailLive c) :=
  Settling.look.bind fun _ => .ite (.ret _) (Settling.requestA.bind fun r => by
    cases r with
    | error => exact .ret _
    | ok =>
      intro s hc hs
      refine (anticollide_ends s hc hs).bind fun r t ht => ?_
      cases r with
      | error => exact ht.2
      | ok uid => exact (Settling.bufferTag (ht.1 uid rfl)).andThen (.ret _) t ht.2.1 ht.2.2)

theorem Settling.completeLine : Settling c completeLine :=
  Settling.look.bind fun bs => Settling.setLine.andThen (by
    split
    · exact .ret _
    · next h => exact .bufferTag (by simp only [List.length_take, Config.uidLen, Config.simMinPairs] at h ⊢; omega))

theorem Settling.tagAvailSim : Settling c tagAvailSim :=
  Settling.look.bind fun _ => .ite (.ret _) (Settling.popChar.bind fun cs => by
    cases cs with
    | nil => exact .ret _
    | cons ch cs =>
      refine Settling.andThen ?_ .look
      split
      · exact .completeLine
      · next h => exact .accumulate (by simpa using h))

theorem Settling.tagAvailable : Settling c (tagAvailable c) := by
  unfold Machine.tagAvailable
  split
  · exact .tagAvailLive
  · exact .tagAvailSim

theorem Settling.readTag (n : Nat) : Settling c (readTag n) :=
  Settling.look.bind fun _ => .ite (.ret _) (Settling.look.bind fun _ => Settling.setTagInvalid.andThen (.ret _))

/-! ## The detector is lawful, and cannot raise -/

theorem Lawful.testTag : Lawful w (.askBit State.testTag) :=
  .ask (.look (fun s => .bit s.tag.valid) (fun _ _ _ => rfl) fun _ _ _ _ _ => rfl) fun _ => rfl

theorem Lawful.bufferTag (ht : w.tag = true) (bs : List Byte) : Lawful w (bufferTag bs) :=
  (Lawful.tell (.fillTag bs ht) fun _ => rfl).andThen (.tell (.setTagValid true ht) fun _ => rfl)

theorem Lawful.tagAvailLive (hc : c.level = .b → w.cs = true) (hh : w.hist = true) (he : w.eng = true) (ht : w.tag = true) :
    Lawful w (tagAvailLive c) :=
  Lawful.testTag.bind fun _ => .ite (.ret _) ((Lawful.requestA hc hh he).bind fun r => by
    obtain _ | _ := r
    · exact .ret _
    · refine (Lawful.anticollide hc hh he).bind fun r => ?_
      obtain _ | uid := r
      · exact .ret _
      · exact (Lawful.bufferTag ht uid).andThen (.ret _))

theorem Lawful.completeLine (ht : w.tag = true) (hs : w.sim = true) : Lawful w completeLine :=
  (Lawful.ask (.look (fun s => .bytes (decodeLine s.sim.line)) (fun _ _ _ => rfl) fun _ _ _ _ _ => rfl) fun _ => rfl).bind fun _ =>
    (Lawful.tell (.setLine [] hs) fun _ => rfl).andThen (.ite (.ret _) (.bufferTag ht _))

theorem takeChar_link (s : State) : (State.takeChar s).2.link = s.link := by simp only [State.takeChar]; split <;> rfl
theorem accumulate_link (c : Byte) (s : State) : (State.accumulate c s).link = s.link := by
  simp only [State.accumulate]; split <;> rfl

theorem Lawful.popChar (hs : w.sim = true) : Lawful w popChar :=
  .ask (f := fun s => ((State.takeChar s).1.toList, (State.takeChar s).2)) (.popChar hs) takeChar_link

theorem Lawful.tagAvailSim (ht : w.tag = true) (hs : w.sim = true) : Lawful w tagAvailSim :=
  Lawful.testTag.bind fun _ => .ite (.ret _) ((Lawful.popChar hs).bind fun cs => by
    obtain _ | ⟨ch, cs⟩ := cs
    · exact .ret _
    · exact Lawful.andThen (.ite (.completeLine ht hs) (.tell (.accumulate ch hs) (accumulate_link ch))) .testTag)

/-- The Live backend reaches the reader, the Simulated one the input. -/
theorem Lawful.tagAvailable (hl : c.backend = .live → (c.level = .b → w.cs = true) ∧ w.hist = true ∧ w.eng = true)
    (ht : w.tag = true) (hs : c.backend = .sim → w.sim = true) : Lawful w (tagAvailable c) := by
  unfold Machine.tagAvailable
  split
  · next h => exact .tagAvailLive (hl h).1 (hl h).2.1 (hl h).2.2 ht
  · next h => exact .tagAvailSim ht (hs h)

theorem Lawful.readTag (ht : w.tag = true) (n : Nat) : Lawful w (readTag n) :=
  Lawful.testTag.bind fun _ => .ite (.ret _) ((Lawful.ask (.look (fun s => .bytes (s.tag.bytes.take n)) (fun _ _ _ => rfl)
    fun _ _ _ _ _ => rfl) fun _ => rfl).bind fun _ => (Lawful.tell (.setTagValid false ht) fun _ => rfl).andThen (.ret _))

theorem Prog.Quiet.bufferTag (bs : List Byte) : (bufferTag bs).Quiet := (Prog.Quiet.tell _).andThen (.tell _)

theorem Prog.Quiet.tagAvailLive (c : Config) : (tagAvailLive c).Quiet :=
  Prog.Quiet.ask.bind fun _ => .ite trivial ((Prog.Quiet.checked (.transceive _ _ _ _ _) _).bind fun r => by
    obtain _ | _ := r
    · trivial
    · refine (Prog.Quiet.checked (.transceive _ _ _ _ _) _).bind fun r => ?_
      obtain _ | uid := r
      · trivial
      · exact (Prog.Quiet.bufferTag uid).andThen trivial)

theorem Prog.Quiet.tagAvailSim : tagAvailSim.Quiet :=
  Prog.Quiet.ask.bind fun _ => .ite trivial (Prog.Quiet.ask.bind fun cs => by
    obtain _ | ⟨ch, cs⟩ := cs
    · trivial
    · exact Prog.Quiet.andThen (.ite (Prog.Quiet.ask.bind fun _ => (Prog.Quiet.tell _).andThen
        (.ite trivial (.bufferTag _))) (.tell _)) .ask)

theorem Prog.Quiet.tagAvailable (c : Config) : (tagAvailable c).Quiet := by
  unfold Machine.tagAvailable
  split
  · exact .tagAvailLive c
  · exact .tagAvailSim

theorem Prog.Quiet.readTag (n : Nat) : (readTag n).Quiet :=
  Prog.Quiet.ask.bind fun _ => .ite trivial (Prog.Quiet.ask.bind fun _ => (Prog.Quiet.tell _).andThen trivial)

/-- The closed form of `READTAG` (R197). -/
theorem run_readTag (n : Nat) (s : State) : (readTag n).run s =
    if s.tag.valid = false ∨ n = 0 then .ok ([], s)
    else .ok (s.tag.bytes.take n, { s with tag := { s.tag with valid := false } }) := by
  simp only [Machine.readTag, Prog.run_bind, Prog.run_askBit, State.testTag]
  split <;> simp [Prog.run_bind, Prog.andThen, State.setTagValid]

end Sys2Proof.Machine
end

