-- ==== Sys2Proof/Laws/Policy.lean ====
section
/-! SUPPORT. What the policy operations do: their steps, when they answer, and where they lead whatever arrives on the way. -/

namespace Sys2Proof.Machine

variable {w : Writes} {α β : Type} {c : Config}

/-! ## Running -/

theorem run_whenBooted_true {p : Prog α} {s : State} (h : s.seq.booted = true) : (whenBooted p).run s = p.run s := by
  simp [whenBooted, Prog.run_bind, State.testBooted, h]

theorem run_whenBooted_false {p : Prog α} {s : State} (h : s.seq.booted = false) :
    (whenBooted p).run s = .error .notBooted := by
  simp [whenBooted, Prog.run_bind, State.testBooted, h]

@[simp] theorem run_setAttempts (v : Byte) (s : State) :
    (setAttempts v).run s = .ok ((), State.editRecord (fun r => { r with wrongAttempts := v }) s) := rfl
@[simp] theorem run_setLockState (v : Byte) (s : State) :
    (setLockState v).run s = .ok ((), State.editRecord (fun r => { r with lockState := v }) s) := rfl
@[simp] theorem run_setCountdown (v : Byte) (s : State) :
    (setCountdown v).run s = .ok ((), State.editRecord (fun r => { r with lsr := v }) s) := rfl

/-- A second of the countdown: nothing in Active, else the record with one second less, saved (R334). -/
theorem run_tickSecond {s : State} {r : Record} (hb : s.seq.booted = true) (hr : s.held = some r) :
    (tickSecond c).run s =
      if r.lsr = 0x00#8 then .ok ((), s)
      else (persist c).run { s with record := { r with
        lsr := r.lsr - 1#8
        wrongAttempts := if r.lsr - 1#8 = 0x00#8 then 0x00#8 else r.wrongAttempts } } := by
  obtain rfl := (State.held_eq_some.mp hr).2
  rw [tickSecond, run_whenBooted_true hb, Prog.run_bind_ok (run_heldRecord_some hr)]
  split
  · rfl
  · rw [Prog.run_andThen_ok (run_setCountdown _ s)]
    by_cases h : s.record.lsr - 1#8 = 0x00#8
    · rw [if_pos h, Prog.run_andThen_ok (run_setAttempts _ _)]; simp [State.editRecord, h]
    · rw [if_neg h, Prog.andThen, Prog.ret_bind]; simp [State.editRecord, h]

/-- The power-fail check: the latch taken, and the record saved exactly if it was set (R335). -/
theorem run_checkPowerFail {s : State} (hb : s.seq.booted = true) : (checkPowerFail c).run s =
    if s.pfl.latch then ((persist c).andThen (.ret true)).run (takeLatch s).2 else .ok (false, (takeLatch s).2) := by
  have h : (Prog.askBit takeLatch).run s = .ok (s.pfl.latch, (takeLatch s).2) := rfl
  rw [checkPowerFail, run_whenBooted_true hb, Prog.run_bind_ok h]
  by_cases h : s.pfl.latch = true
  · rw [if_pos h, if_pos h, h]
  · simp [h, Prog.andThen]

/-- A mismatch: counted and saved below the limit, at the limit a lockout that is commanded and saved (R333). -/
theorem run_mismatch {s : State} {r : Record} (hr : s.held = some r) : (mismatch c r).run s =
    if r.wrongAttempts.toNat + 1 < Config.maxWrongAttempts then
      ((persist c).andThen (.ret .mismatched)).run { s with
        record := { r with wrongAttempts := BitVec.ofNat 8 (r.wrongAttempts.toNat + 1) } }
    else
      ((persist c).andThen (.ret .lockoutStarted)).run { s with
        record := { r with lsr := BitVec.ofNat 8 Config.lockoutSeconds, wrongAttempts := 0x00#8, lockState := 0x00#8 }
        act := { hist := s.act.hist ++ [.lock] } } := by
  obtain rfl := (State.held_eq_some.mp hr).2
  unfold mismatch
  by_cases h : s.record.wrongAttempts.toNat + 1 < Config.maxWrongAttempts
  · rw [if_pos h, Nat.min_eq_left h.le, if_neg (Nat.not_le.mpr h), Prog.run_andThen_ok (run_setAttempts _ _)]
    simp [State.editRecord]
  · rw [if_neg h, Nat.min_eq_right (Nat.not_lt.mp h), if_pos le_rfl, Prog.run_andThen_ok (run_setCountdown _ _),
      Prog.run_andThen_ok (run_setAttempts _ _), Prog.run_andThen_ok (run_setLockState _ _),
      Prog.run_andThen_ok (Prog.run_tell _ _)]
    simp [State.editRecord, State.command]

/-- An evaluation: nothing while locked out, a match commanded and saved, or a mismatch (R332). -/
theorem run_evaluate (id : List Byte) {s : State} {r : Record} (hb : s.seq.booted = true) (hr : s.held = some r) :
    (evaluate c id).run s =
      if r.lsr ≠ 0x00#8 then .ok (.skipped, s)
      else if c.auth id then
        ((persist c).andThen (.ret .matched)).run { s with
          record := { r with wrongAttempts := 0x00#8, lockState := 0x01#8 }
          act := { hist := s.act.hist ++ [.unlock] } }
      else (mismatch c r).run s := by
  obtain rfl := (State.held_eq_some.mp hr).2
  rw [evaluate, run_whenBooted_true hb, Prog.run_bind_ok (run_heldRecord_some hr)]
  split
  · rfl
  · split
    · rw [Prog.run_andThen_ok (run_setAttempts _ _), Prog.run_andThen_ok (run_setLockState _ _),
        Prog.run_andThen_ok (Prog.run_tell _ _)]
      simp [State.editRecord, State.command]
    · rfl

/-! ## Their steps -/

theorem Lawful.testBooted : Lawful w (.askBit State.testBooted) :=
  .ask (.look (fun s => .bit s.seq.booted) (fun _ _ _ => rfl) fun _ _ _ _ _ => rfl) fun _ => rfl

theorem Lawful.whenBooted {p : Prog α} (hp : Lawful w p) : Lawful w (whenBooted p) :=
  Lawful.testBooted.bind fun _ => .ite hp (.raise _)

theorem Lawful.takeLatch (hl : w.latch = true) : Lawful w (.askBit takeLatch) :=
  .ask (.takeLatch hl) fun s => by rw [takeLatch_snd]

theorem Lawful.setAttempts (hs : w.store = true) (hc : w.counts = true) (v : Byte) : Lawful w (setAttempts v) := by
  refine .editRecord _ hs (.inr ?_) (.inl hc); simp

theorem Lawful.setLockState (hs : w.store = true) (hl : w.lock = true) (v : Byte) : Lawful w (setLockState v) := by
  refine .editRecord _ hs (.inl hl) (.inr ?_); simp

theorem Lawful.setCountdown (hs : w.store = true) (hc : w.counts = true) (v : Byte) : Lawful w (setCountdown v) := by
  refine .editRecord _ hs (.inr ?_) (.inl hc); simp

theorem Lawful.command (ha : w.act = true) (a : ActCommand) : Lawful w (.tell (State.command a)) :=
  .tell (.command a ha) fun _ => rfl

theorem Lawful.mismatch (hs : w.store = true) (hl : w.lock = true) (hc : w.counts = true) (ha : w.act = true) (c : Config)
    (r : Record) : Lawful w (mismatch c r) :=
  .ite ((Lawful.setCountdown hs hc _).andThen ((Lawful.setAttempts hs hc _).andThen ((Lawful.setLockState hs hl _).andThen
      ((Lawful.command ha _).andThen ((Lawful.persist hs c).andThen (.ret _))))))
    ((Lawful.setAttempts hs hc _).andThen ((Lawful.persist hs c).andThen (.ret _)))

theorem Lawful.evaluate (hs : w.store = true) (hl : w.lock = true) (hc : w.counts = true) (ha : w.act = true) (c : Config)
    (id : List Byte) : Lawful w (evaluate c id) :=
  .whenBooted (Lawful.heldRecord.bind fun r => .ite (.ret _) (.ite
    ((Lawful.setAttempts hs hc _).andThen ((Lawful.setLockState hs hl _).andThen
      ((Lawful.command ha _).andThen ((Lawful.persist hs c).andThen (.ret _)))))
    (.mismatch hs hl hc ha c r)))

theorem Lawful.tickSecond (hs : w.store = true) (hc : w.counts = true) (c : Config) : Lawful w (tickSecond c) :=
  .whenBooted (Lawful.heldRecord.bind fun _ => .ite (.ret _) ((Lawful.setCountdown hs hc _).andThen
    (Lawful.andThen (.ite (.setAttempts hs hc _) (.ret _)) (.persist hs c))))

theorem Lawful.checkPowerFail (hs : w.store = true) (hl : w.latch = true) (c : Config) : Lawful w (checkPowerFail c) :=
  .whenBooted ((Lawful.takeLatch hl).bind fun _ => Lawful.andThen (.ite (.persist hs c) (.ret _)) (.ret _))

theorem Lawful.drainTicks (hs : w.store = true) (hc : w.counts = true) (ht : w.ticks = true) (c : Config) (n : Nat) :
    Lawful w (drainTicks c n) := by
  induction n with
  | zero => exact .ret _
  | succ n ih =>
    exact (Lawful.ask (.look (fun s => .bit (decide (0 < s.inp.ticks))) (fun _ _ _ => rfl) fun _ _ _ _ _ => rfl)
      fun _ => rfl).bind fun _ => .ite ((Lawful.tell (.takeSecond ht) fun _ => rfl).andThen
        ((Lawful.tickSecond hs hc c).andThen ih)) (.ret _)

theorem Lawful.discardTag (hd : c.backend = .live → (c.level = .b → w.cs = true) ∧ w.hist = true ∧ w.eng = true)
    (ht : w.tag = true) (hs : c.backend = .sim → w.sim = true) : Lawful w (discardTag c) := by
  unfold Machine.discardTag
  split
  · exact (Lawful.tagAvailable hd ht hs).bind fun _ => .ite ((Lawful.readTag ht _).bind fun _ => .ret _) (.ret _)
  · exact .ret _

theorem Lawful.controlLoop (hd : c.backend = .live → (c.level = .b → w.cs = true) ∧ w.hist = true ∧ w.eng = true)
    (hsim : c.backend = .sim → w.sim = true)
    (h : w.store = true ∧ w.lock = true ∧ w.counts = true ∧ w.act = true ∧ w.tag = true ∧ w.latch = true ∧ w.ticks = true) :
    Lawful w (controlLoop c) := by
  obtain ⟨hs, hl, hc, ha, ht, hla, hti⟩ := h
  refine .whenBooted ((Lawful.checkPowerFail hs hla c).bind fun _ =>
    (Lawful.ask (.look (fun s => .count (State.secondsAhead s).1) (fun _ _ _ => rfl)
      fun s ms p r h => by simp only [State.secondsAhead, h]) fun _ => rfl).bind fun n =>
    (Lawful.drainTicks hs hc hti c n).andThen (Lawful.heldRecord.bind fun r => .ite ?_ (.discardTag hd ht hsim)))
  exact (Lawful.tagAvailable hd ht hsim).bind fun _ => .ite ((Lawful.readTag ht _).bind fun id => .ite
    ((Lawful.evaluate hs hl hc ha c id).bind fun _ => .ret _) (.ret _)) (.ret _)

theorem Lawful.bootUp (hd : c.backend = .live → w.cs = true ∧ w.rst = true ∧ w.hist = true)
    (h : w.store = true ∧ w.lock = true ∧ w.counts = true ∧ w.act = true ∧ w.attach = true ∧ w.seq = true) :
    Lawful w (bootUp c) := by
  obtain ⟨hs, hl, hc, ha, hat, hq⟩ := h
  refine Lawful.testBooted.bind fun _ => .ite (.raise _) ((Lawful.tell (.setPhase _ hq) fun _ => rfl).andThen
    ((Lawful.loadRecord hs hl hc c).bind fun _ => (Lawful.tell (.attach hat) fun _ => rfl).andThen
      (Lawful.andThen (.ite (Lawful.heldRecord.bind fun r => .command ha _) (.ret _)) (Lawful.andThen ?_
        ((Lawful.tell (.setBooted hq) fun _ => rfl).andThen (.tell (.setPhase _ hq) fun _ => rfl))))))
  split
  · next h => exact .initReader (hd h).1 (hd h).2.1 (hd h).2.2 c
  · exact .ret _

/-! ## Where they lead, whatever arrives -/

theorem Settling.whenBooted {p : Prog α} (hp : Settling c p) : Settling c (whenBooted p) :=
  Settling.look.bind fun _ => .ite hp (.raise _)

/-- What needs a record that is stored and held. -/
theorem Settling.heldRecord {k : Record → Prog α} (hk : ∀ s r, s.cfg = c → s.Settled → s.held = some r →
    (k r).Ends State.Always (fun _ t => t.cfg = c ∧ t.Settled) s) : Settling c (heldRecord.bind k) :=
  fun _ hc hs => (Prog.ends_bind _ _ _ _).mpr
    (heldRecord_ends fun u r hd hr => hk u r (hd.cfg.trans hc) (hs.disturbed hd) hr)

theorem Saving.start {s : State} {r : Record} (h : s.held = some r) : Saving s r s :=
  ⟨⟨rfl, rfl, rfl, rfl, rfl⟩, h⟩

/-- The end of every storing operation. -/
theorem persist_settles {s t : State} {r : Record} (hc : s.cfg = c) (hs : s.Settled) (h : Saving s r t)
    (hr : c.loadRangeCheck = true → r.inRange = true) (a : α) :
    ((persist c).andThen (.ret a)).Ends State.Always (fun _ t => t.cfg = c ∧ t.Settled) t :=
  (persist_ends hc h hr).andThen fun _ hu => ⟨hu.1.cfg.trans hc, hu.1.settled hs hu.2.1 fun _ => hu.2.2⟩

theorem Settling.persist : Settling c (persist c) := fun _ hc hs => by
  refine (Prog.ends_bind _ _ _ _).mpr (heldRecord_ends fun u r hd hr => ?_)
  have hi := fun h => inRange_of_stored hr (hs.disturbed hd).record (by rw [hd.cfg, hc]; exact h)
  have h := (Saving.start hr).edit fun q => { q with magic := c.magic }
  refine h.andThen fun v hv => (hv.edit _).andThen fun x hx y hd' hj => ?_
  have hyc : y.cfg = c := hd'.cfg.trans (hx.around.cfg.trans (hd.cfg.trans hc))
  obtain ⟨h1, h2, h3, h4⟩ := hj.storeCopy (hd'.held.trans hx.record) (by
    rw [hyc]; exact Record.valid_sealed c r hi)
  exact ⟨h1, h2.cfg.trans hyc, ((hx.around.trans hd'.around).trans h2).settled (hs.disturbed hd) h3 fun _ => h4⟩

theorem Settling.tickSecond : Settling c (tickSecond c) :=
  .whenBooted (.heldRecord fun s r hc hs hr => by
    split
    · exact ⟨hc, hs⟩
    · next h =>
      have hq := fun e => (Record.inRange_iff r).mp (inRange_of_stored hr hs.record (hc ▸ e))
      refine ((Saving.start hr).edit _).andThen fun t ht => ?_
      have hn : r.lsr.toNat ≠ 0 := fun e => h (BitVec.eq_of_toNat_eq (by simpa using e))
      refine Prog.Ends.andThen (P := Saving s { r with
        lsr := r.lsr - 1#8
        wrongAttempts := if r.lsr - 1#8 = 0x00#8 then 0x00#8 else r.wrongAttempts }) ?_ fun u hu => ?_
      · split
        · exact ht.edit _
        · exact ht
      · refine (persist_ends hc hu fun e => (Record.inRange_iff _).mpr ⟨(hq e).1, ?_, ?_⟩).mono fun _ v hv =>
          ⟨hv.1.cfg.trans hc, hv.1.settled hs hv.2.1 fun _ => hv.2.2⟩
        · dsimp only; split
          · decide
          · exact (hq e).2.1
        · have := (hq e).2.2
          simp only [BitVec.toNat_sub, BitVec.toNat_ofNat]
          omega)

theorem Settling.evaluate (id : List Byte) : Settling c (evaluate c id) :=
  .whenBooted (.heldRecord fun s r hc hs hr => by
    have hq := fun e => (Record.inRange_iff r).mp (inRange_of_stored hr hs.record (hc ▸ e))
    split
    · exact ⟨hc, hs⟩
    · split
      · refine ((Saving.start hr).edit _).andThen fun t ht => (ht.edit _).andThen fun u hu =>
          (hu.command _).andThen fun v hv => persist_settles hc hs hv (fun e => ?_) _
        exact (Record.inRange_iff _).mpr ⟨.inr rfl, Nat.zero_le 3, (hq e).2.2⟩
      · unfold Machine.mismatch
        dsimp only
        split
        · refine ((Saving.start hr).edit _).andThen fun t ht => (ht.edit _).andThen fun u hu =>
            (hu.edit _).andThen fun v hv => (hv.command _).andThen fun x hx => persist_settles hc hs hx (fun e => ?_) _
          exact (Record.inRange_iff _).mpr ⟨.inl rfl, Nat.zero_le 3, Nat.le_refl 30⟩
        · next h =>
          refine ((Saving.start hr).edit _).andThen fun t ht => persist_settles hc hs ht (fun e => ?_) _
          refine (Record.inRange_iff _).mpr ⟨(hq e).1, ?_, (hq e).2.2⟩
          simp only [Config.maxWrongAttempts, BitVec.toNat_ofNat] at h ⊢
          omega)

theorem Settling.takeLatch : Settling c (.askBit takeLatch) :=
  (Lawful.takeLatch (w := { latch := true }) rfl).settling rfl rfl rfl rfl rfl

theorem Settling.checkPowerFail : Settling c (checkPowerFail c) :=
  .whenBooted (Settling.takeLatch.bind fun _ => Settling.andThen (.ite .persist (.ret _)) (.ret _))

theorem Settling.takeSecond : Settling c (.tell State.takeSecond) :=
  (Lawful.tell (w := { ticks := true }) (.takeSecond rfl) fun _ => rfl).settling rfl rfl rfl rfl rfl

theorem Settling.drainTicks (n : Nat) : Settling c (drainTicks c n) := by
  induction n with
  | zero => exact .ret _
  | succ n ih => exact Settling.look.bind fun _ => .ite (Settling.takeSecond.andThen (Settling.tickSecond.andThen ih)) (.ret _)

theorem Settling.pollTag : Settling c (pollTag c) :=
  .heldRecord fun s _ hc hs _ => by
    have ha : Settling c (acquire c) := Settling.tagAvailable.bind fun _ => .ite ((Settling.readTag _).bind fun id =>
      .ite ((Settling.evaluate id).bind fun _ => .ret _) (.ret _)) (.ret _)
    have hd : Settling c (discardTag c) := by
      unfold Machine.discardTag
      split
      · exact Settling.tagAvailable.bind fun _ => .ite ((Settling.readTag _).bind fun _ => .ret _) (.ret _)
      · exact .ret _
    exact Settling.ite ha hd s hc hs

theorem Settling.controlLoop : Settling c (controlLoop c) :=
  .whenBooted (Settling.checkPowerFail.bind fun _ => Settling.look.bind fun n => (Settling.drainTicks n).andThen .pollTag)

theorem Settling.loadRecord : Settling c (loadRecord c) := fun s hc hs =>
  (loadRecord_ends c s hc).mono fun _ _ h => ⟨h.1.cfg.trans hc, h.1.settled hs h.2.1 fun _ => h.2.2⟩

/-- What holds inside `BOOT` once the record is loaded and the edge attached. -/
structure Booting (c : Config) (s : State) : Prop where
  cfg : s.cfg = c
  record : s.recordStored
  held : s.loaded = true
  attached : s.irq.attached = true

theorem Booting.disturbed {s u : State} (h : Booting c s) (hd : Disturbed s u) : Booting c u := by
  obtain ⟨h1, h2, h3, h4⟩ := h
  rw [hd.same]; exact ⟨h1, h2, h3, h4⟩

theorem Booting.kept (hs : w.store = false) (ha : w.attach = false) {s t : State} (h : Booting c s) (hk : Kept w s t) :
    Booting c t := by
  obtain ⟨-, h2, -⟩ := hk.store hs
  refine ⟨hk.cfg.trans h.cfg, ?_, by rw [hk.loaded hs]; exact h.held, (hk.attach ha).trans h.attached⟩
  unfold State.recordStored State.recordBytes; rw [hk.held_eq hs, h2, hk.cfg]; exact h.record

/-- `BOOT` leads from R45 to R45 (R330). -/
theorem Settling.bootUp : Settling c (bootUp c) := by
  refine Settling.look.bind fun b => .ite (.raise _) fun s hc hs => ?_
  -- the phase is written first
  refine Prog.Ends.andThen (P := fun t => t.cfg = c ∧ t.link = s.link) (fun u hd hj =>
    ⟨⟨hj.memory, hj.memoryWithin, hj.stored, hj.tag, hj.tagCap, hj.simCap, hj.simLine, hj.irq, hj.latch⟩,
      hd.cfg.trans hc, hd.link⟩) fun t ht => ?_
  -- the record is loaded
  refine (loadRecord_ends c t ht.1).bind fun _ u hu => ?_
  -- the edge is attached
  refine Prog.Ends.andThen (P := fun v => Booting c v ∧ v.link = s.link) (fun v hd hj =>
    ⟨⟨hj.memory, hj.memoryWithin, hj.stored, hj.tag, hj.tagCap, hj.simCap, hj.simLine, hj.irq, fun _ => rfl⟩,
      ⟨hd.cfg.trans (hu.1.cfg.trans ht.1), ?_, by simpa [hd.loaded] using hu.2.2, rfl⟩,
      hd.link.trans (hu.1.link.trans ht.2)⟩) fun v hv => ?_
  · have := hu.2.1
    intro q hq
    have h := this q (by simpa [hd.held] using hq)
    rw [hd.same]; exact h
  -- the actuator is driven, if configured
  have hb : Lawful { act := true } (bootDrive c) :=
    .ite (Lawful.heldRecord.bind fun r => .command rfl _) (.ret _)
  refine (hb.keeping rfl rfl rfl (fun _ _ h hk => h.kept rfl rfl hk) (fun _ _ h hd => h.disturbed hd)
    (by rw [hv.2]; exact hs.cs) hv.1).andThen fun x hx => ?_
  -- the reader is initialised, if there is one
  have hi : Lawful { cs := true, rst := true, hist := true }
      (match c.backend with
        | .live => initReader c
        | .sim => .ret ()) := by
    split
    · exact .initReader rfl rfl rfl c
    · exact .ret ()
  refine (hi.keeping rfl rfl rfl (fun _ _ h hk => h.kept rfl rfl hk) (fun _ _ h hd => h.disturbed hd) hx.2.cs hx.1).andThen
    fun y hy => ?_
  have hg := hx.2.trans hy.2
  -- and the boot is complete
  refine Prog.Ends.andThen (P := fun z => Booting c z ∧ z.link = y.link ∧ z.seq.booted = true) (fun z hd hj =>
    ⟨⟨hj.memory, hj.memoryWithin, hj.stored, hj.tag, hj.tagCap, hj.simCap, hj.simLine, hj.irq, hj.latch⟩, ?_, hd.link, rfl⟩)
    fun z hz z' hd hj =>
    ⟨⟨hj.memory, hj.memoryWithin, hj.stored, hj.tag, hj.tagCap, hj.simCap, hj.simLine, hj.irq, hj.latch⟩,
      (hz.1.disturbed hd).cfg, ?_⟩
  · obtain ⟨h1, h2, h3, h4⟩ := hy.1.disturbed hd
    exact ⟨h1, h2, h3, h4⟩
  · obtain ⟨h1, h2, h3, h4⟩ := hz.1.disturbed hd
    obtain ⟨k, hk, fk⟩ := hg.hist
    have hl : z'.link = y.link := hd.link.trans hz.2.1
    have hbo : z'.seq.booted = true := hd.booted.trans hz.2.2
    refine ⟨h2, fun _ => ⟨h3, h4, rfl⟩, fun e => by simp [hbo] at e, by simp [hl, hg.cs], ?_⟩
    simp only [State.setPhase_link, hl, hk]
    exact framed_append _ _ (by rw [hv.2]; exact hs.hist) fk

end Sys2Proof.Machine
end

