-- ==== Sys2Proof/Laws/Exec.lean ====
section
/-! SUPPORT. What every operation does as a whole and step by step: what it may write (`Instr.writes`), that its program is
lawful and leads from R45 to R45, what its steps do to the schedule and the edge, and what one step of the machine can do. -/

namespace Sys2Proof

open Machine

/-- What an operation may write, its sub-operations included (10_state.md R44). -/
def Instr.writes (c : Config) : Instr → Writes
  | .xwr _ _ | .xrd _ | .xsetb _ _ | .xclrb _ _ | .panton | .linkWrite _ _ | .linkRead _ _ => { cs := true, hist := true }
  | .pcdIdle | .pcdCalcCrc | .pcdTransceive | .pcdSoftReset => { cs := true, hist := true }
  | .xwait _ _ _ => { cs := true, hist := true, eng := true }
  | .xdelay _ => { hist := true }
  | .xrst _ => { rst := true, hist := true }
  | .pinit => { cs := true, rst := true, hist := true }
  | .pxcv _ _ _ _ | .preqa | .panticoll | .pcrc _ | .reqa | .anticollCl1 =>
    { cs := decide (c.level = .b), hist := true, eng := true }
  | .tagavail =>
    { tag := true, sim := decide (c.backend = .sim), cs := decide (c.backend = .live ∧ c.level = .b)
      hist := decide (c.backend = .live), eng := decide (c.backend = .live) }
  | .readtag _ => { tag := true }
  | .sload => { store := true, lock := true, counts := true }
  | .ssave => { store := true }
  | .ltake => { latch := true }
  | .boot =>
    { store := true, lock := true, counts := true, act := true, attach := true, seq := true
      cs := decide (c.backend = .live), rst := decide (c.backend = .live), hist := decide (c.backend = .live) }
  | .eval _ => { store := true, lock := true, counts := true, act := true }
  | .tick => { store := true, counts := true }
  | .pfcheck => { store := true, latch := true }
  | .loop =>
    { store := true, lock := true, counts := true, act := true, latch := true, ticks := true
      tag := true, sim := decide (c.backend = .sim), cs := decide (c.backend = .live ∧ c.level = .b)
      hist := decide (c.backend = .live), eng := decide (c.backend = .live) }

end Sys2Proof

namespace Sys2Proof.Machine

/-- The pseudocode of every operation is lawful. -/
theorem program_lawful (c : Config) (i : Instr) : Lawful (i.writes c) (program c i) := by
  have hb : c.level = .b → decide (c.level = .b) = true := fun h => decide_eq_true h
  have hd : c.backend = .live → (c.level = .b → decide (c.backend = .live ∧ c.level = .b) = true) ∧
      decide (c.backend = .live) = true ∧ decide (c.backend = .live) = true :=
    fun h => ⟨fun k => decide_eq_true ⟨h, k⟩, decide_eq_true h, decide_eq_true h⟩
  cases i with
  | xwr a d => exact (Lawful.linkWrite rfl rfl a d).andThen (.ret _)
  | xrd a => exact (Lawful.linkRead rfl rfl a).bind fun _ => .ret _
  | xsetb a m => exact (Lawful.setBits rfl rfl a m).andThen (.ret _)
  | xclrb a m => exact (Lawful.clearBits rfl rfl a m).andThen (.ret _)
  | xwait a m t => exact (Lawful.waitFlag rfl rfl rfl a m).bind fun _ => .ret _
  | xdelay t => exact (Lawful.settleDelay rfl t).andThen (.ret _)
  | xrst t => exact (Lawful.resetPulse rfl rfl t).andThen (.ret _)
  | pinit => exact (Lawful.initReader rfl rfl rfl c).andThen (.ret _)
  | panton => exact (Lawful.antennaOn rfl rfl c).andThen (.ret _)
  | pxcv lb cap t tx => exact (Lawful.transceive hb rfl rfl tx lb cap t).bind fun _ => .ret _
  | preqa => exact (Lawful.requestA hb rfl rfl).bind fun _ => .ret _
  | panticoll => exact (Lawful.anticollide hb rfl rfl).bind fun _ => .ret _
  | pcrc data => exact (Lawful.computeCrc hb rfl rfl data).bind fun _ => .ret _
  | tagavail => exact (Lawful.tagAvailable hd rfl fun h => decide_eq_true h).bind fun _ => .ret _
  | readtag n => exact (Lawful.readTag rfl n.toNat).bind fun _ => .ret _
  | sload => exact (Lawful.loadRecord rfl rfl rfl c).bind fun _ => .ret _
  | ssave => exact (Lawful.persist rfl c).andThen (.ret _)
  | ltake => exact (Lawful.takeLatch rfl).bind fun _ => .ret _
  | boot =>
    exact (Lawful.bootUp (fun h => ⟨decide_eq_true h, decide_eq_true h, decide_eq_true h⟩)
      ⟨rfl, rfl, rfl, rfl, rfl, rfl⟩).andThen (.ret _)
  | eval id => exact (Lawful.evaluate rfl rfl rfl rfl c id).bind fun _ => .ret _
  | tick => exact (Lawful.tickSecond rfl rfl c).andThen (.ret _)
  | pfcheck => exact (Lawful.checkPowerFail rfl rfl c).bind fun _ => .ret _
  | loop =>
    exact (Lawful.controlLoop hd (fun h => decide_eq_true h) ⟨rfl, rfl, rfl, rfl, rfl, rfl, rfl⟩).andThen (.ret _)
  | linkWrite a d => exact (Lawful.linkWrite rfl rfl a d).andThen (.ret _)
  | linkRead a v => exact (Lawful.claimedRead rfl rfl a v).andThen (.ret _)
  | reqa => exact (Lawful.transceive hb rfl rfl _ _ _ _).bind fun _ => .ret _
  | anticollCl1 => exact (Lawful.transceive hb rfl rfl _ _ _ _).bind fun _ => .ret _
  | pcdIdle => exact (Lawful.linkWrite rfl rfl _ _).andThen (.ret _)
  | pcdCalcCrc => exact (Lawful.linkWrite rfl rfl _ _).andThen (.ret _)
  | pcdTransceive => exact (Lawful.linkWrite rfl rfl _ _).andThen (.ret _)
  | pcdSoftReset => exact (Lawful.linkWrite rfl rfl _ _).andThen (.ret _)

/-- The pseudocode of every operation leads from R45 to R45, whatever arrives on the way. -/
theorem program_settling (c : Config) (i : Instr) : Settling c (program c i) := by
  have hr : ∀ {j : Instr}, (j.writes c).store = false → (j.writes c).tag = false → (j.writes c).sim = false →
      (j.writes c).attach = false → (j.writes c).seq = false → Settling c (program c j) :=
    fun hs ht hm ha hq => (program_lawful c _).settling hs ht hm ha hq
  cases i with
  | tagavail => exact Settling.tagAvailable.bind fun _ => .ret _
  | readtag n => exact (Settling.readTag _).bind fun _ => .ret _
  | sload => exact Settling.loadRecord.bind fun _ => .ret _
  | ssave => exact Settling.persist.andThen (.ret _)
  | boot => exact Settling.bootUp.andThen (.ret _)
  | eval id => exact (Settling.evaluate id).bind fun _ => .ret _
  | tick => exact Settling.tickSecond.andThen (.ret _)
  | pfcheck => exact Settling.checkPowerFail.bind fun _ => .ret _
  | loop => exact Settling.controlLoop.andThen (.ret _)
  | _ => exact hr rfl rfl rfl rfl rfl

/-- What an operation that completes wrote. -/
theorem exec_kept {i : Instr} {s t : State} (h : exec i s = .next t) :
    ∃ r u, (program s.cfg i).run s = .ok (r, u) ∧ t = State.returning r u ∧ Kept (i.writes s.cfg) s u := by
  rw [exec_eq_perform] at h
  obtain ⟨r, u, hu, ht⟩ := perform_next h
  exact ⟨r, u, hu, ht, (program_lawful s.cfg i).each.kept hu⟩

/-- The steps of what is left of an operation. -/
theorem remaining_each (c : Config) (p : Position) : (remaining c p).Each (Atom (p.instr.writes c)) :=
  (program_lawful c p.instr).each.resume p.answers

/-! ## One step of the machine -/

/-- Every step is the sequencer's, an arrival or a power loss (R372, R382). -/
theorem step_cases {s t : State} (h : step s = .next t) :
    (∃ ms, (s.moves = [] ∧ ms = [] ∨ s.moves = .sequencer :: ms) ∧ runSequencer { s with moves := ms } = .next t) ∨
    (∃ ms, s.moves = .advance :: ms ∧ advance { s with moves := ms } = .next t) ∨
    (∃ ms a, s.moves = .arrive a :: ms ∧ t = arrive a { s with moves := ms }) ∨
    (∃ ms chars, s.moves = .powerLoss chars :: ms ∧ t = State.powerUp chars { s with moves := ms }) := by
  unfold step at h
  split at h
  · next hm => exact .inl ⟨[], .inl ⟨hm, rfl⟩, by rw [← hm]; exact h⟩
  · next m ms hm =>
    cases m with
    | sequencer => exact .inl ⟨ms, .inr hm, h⟩
    | advance => exact .inr (.inl ⟨ms, hm, h⟩)
    | arrive a => exact .inr (.inr (.inl ⟨ms, a, hm, (Host.Outcome.next.inj h).symm⟩))
    | powerLoss chars => exact .inr (.inr (.inr ⟨ms, chars, hm, (Host.Outcome.next.inj h).symm⟩))

/-- Issuing an operation changes the port alone. -/
theorem fetch_ok {s u : State} {i : Instr} (h : fetch s = .ok (i, u)) :
    u = { s with port := u.port } ∧ (s.port.bytes = [] → i = ownOperation s) := by
  unfold fetch at h
  split at h
  · next hb => cases h; exact ⟨rfl, fun _ => rfl⟩
  · next hb =>
    split at h
    · cases h
    · cases h; exact ⟨rfl, fun e => by simp [hb] at e⟩

/-- One step of the sequencer: it issues an operation, takes one atomic step of the one in progress, or returns from it. -/
theorem advance_cases {s t : State} (h : advance s = .next t) :
    (s.seq.position = none ∧ ∃ i u, fetch s = .ok (i, u) ∧ t = State.atPosition { instr := i, answers := [] } u) ∨
    (∃ p act next, s.seq.position = some p ∧ remaining s.cfg p = .step act next ∧
      t = State.atPosition { p with answers := p.answers ++ [(act s).1] } (act s).2) ∨
    (∃ p r, s.seq.position = some p ∧ remaining s.cfg p = .ret r ∧ t = State.returning r s.idle) := by
  unfold advance at h
  split at h
  · next p hp =>
    right
    cases hr : remaining s.cfg p with
    | ret r => rw [hr] at h; exact .inr ⟨p, r, hp, hr, done_next h⟩
    | raise f => rw [hr] at h; cases h
    | step act next => rw [hr] at h; exact .inl ⟨p, act, next, hp, hr, (Host.Outcome.next.inj h).symm⟩
  · next hp =>
    left
    split at h
    · cases h
    · next q hq => exact ⟨hp, q.1, q.2, hq, (Host.Outcome.next.inj h).symm⟩

end Sys2Proof.Machine
end

