-- ==== Sys2Proof/Laws/PerInstr.lean ====
section
/-! SUPPORT. One family of laws stated per instruction: the length of every encoding (30_encoding.md R121). -/

namespace Sys2Proof.Laws

/-- The bytes an instruction takes in its encoding space: the formats of R121, a link transfer's two bytes (R100), the
frames of R104 and R106, and the one byte of a reader command. -/
def encodedSize : Instr → Nat
  | .pxcv _ _ _ tx => 6 + tx.length
  | .pcrc data => 2 + data.length
  | .eval id => 2 + id.length
  | .xwait _ _ _ => 4
  | .xwr _ _ | .xsetb _ _ | .xclrb _ _ | .xdelay _ | .xrst _ => 3
  | .xrd _ | .readtag _ | .linkWrite _ _ | .linkRead _ _ | .anticollCl1 => 2
  | .pinit | .panton | .preqa | .panticoll | .tagavail | .sload | .ssave | .ltake | .boot | .tick | .pfcheck | .loop
  | .reqa | .pcdIdle | .pcdCalcCrc | .pcdTransceive | .pcdSoftReset => 1

/-- A well-formed instruction takes the bytes its format gives it, at least one and at most the longest encoding. -/
def EncodeLength.Statement (i : Instr) : Prop :=
  ∀ fifoCap : Byte, i.wellFormed fifoCap = true →
    (encode i).length = encodedSize i ∧ 1 ≤ encodedSize i ∧ encodedSize i ≤ longestInstr fifoCap

/-- A fixed size of at most 12 bytes is within the longest encoding. -/
theorem le_longestInstr {n : Nat} (h : n ≤ 12) (fifoCap : Byte) : n ≤ longestInstr fifoCap :=
  Nat.le_trans h (Nat.le_max_left 12 _)

theorem EncodeLength.xwr (a : Addr) (d : Byte) : EncodeLength.Statement (.xwr a d) := fun c _ => ⟨rfl, Nat.le_of_ble_eq_true rfl, le_longestInstr (Nat.le_of_ble_eq_true rfl) c⟩
theorem EncodeLength.xrd (a : Addr) : EncodeLength.Statement (.xrd a) := fun c _ => ⟨rfl, Nat.le_of_ble_eq_true rfl, le_longestInstr (Nat.le_of_ble_eq_true rfl) c⟩
theorem EncodeLength.xsetb (a : Addr) (m : Byte) : EncodeLength.Statement (.xsetb a m) := fun c _ => ⟨rfl, Nat.le_of_ble_eq_true rfl, le_longestInstr (Nat.le_of_ble_eq_true rfl) c⟩
theorem EncodeLength.xclrb (a : Addr) (m : Byte) : EncodeLength.Statement (.xclrb a m) := fun c _ => ⟨rfl, Nat.le_of_ble_eq_true rfl, le_longestInstr (Nat.le_of_ble_eq_true rfl) c⟩
theorem EncodeLength.xwait (a : Addr) (m : Byte) (t : Byte) : EncodeLength.Statement (.xwait a m t) :=
  fun c _ => ⟨rfl, Nat.le_of_ble_eq_true rfl, le_longestInstr (Nat.le_of_ble_eq_true rfl) c⟩
theorem EncodeLength.xdelay (t : Millis) : EncodeLength.Statement (.xdelay t) := fun c _ => ⟨rfl, Nat.le_of_ble_eq_true rfl, le_longestInstr (Nat.le_of_ble_eq_true rfl) c⟩
theorem EncodeLength.xrst (t : Millis) : EncodeLength.Statement (.xrst t) := fun c _ => ⟨rfl, Nat.le_of_ble_eq_true rfl, le_longestInstr (Nat.le_of_ble_eq_true rfl) c⟩
theorem EncodeLength.pinit : EncodeLength.Statement .pinit := fun c _ => ⟨rfl, Nat.le_of_ble_eq_true rfl, le_longestInstr (Nat.le_of_ble_eq_true rfl) c⟩
theorem EncodeLength.panton : EncodeLength.Statement .panton := fun c _ => ⟨rfl, Nat.le_of_ble_eq_true rfl, le_longestInstr (Nat.le_of_ble_eq_true rfl) c⟩
theorem EncodeLength.pxcv (lb : BitVec 3) (cap : Byte) (t : Byte) (tx : List Byte) : EncodeLength.Statement (.pxcv lb cap t tx) := by
  intro c h
  have h := of_decide_eq_true h
  refine ⟨by simp [encode, encodedSize]; omega, ?_, ?_⟩ <;> simp only [encodedSize, longestInstr] <;> omega
theorem EncodeLength.preqa : EncodeLength.Statement .preqa := fun c _ => ⟨rfl, Nat.le_of_ble_eq_true rfl, le_longestInstr (Nat.le_of_ble_eq_true rfl) c⟩
theorem EncodeLength.panticoll : EncodeLength.Statement .panticoll := fun c _ => ⟨rfl, Nat.le_of_ble_eq_true rfl, le_longestInstr (Nat.le_of_ble_eq_true rfl) c⟩
theorem EncodeLength.pcrc (data : List Byte) : EncodeLength.Statement (.pcrc data) := by
  intro c h
  have h := of_decide_eq_true h
  refine ⟨by simp [encode, encodedSize]; omega, ?_, ?_⟩ <;> simp only [encodedSize, longestInstr] <;> omega
theorem EncodeLength.tagavail : EncodeLength.Statement .tagavail := fun c _ => ⟨rfl, Nat.le_of_ble_eq_true rfl, le_longestInstr (Nat.le_of_ble_eq_true rfl) c⟩
theorem EncodeLength.readtag (n : Byte) : EncodeLength.Statement (.readtag n) := fun c _ => ⟨rfl, Nat.le_of_ble_eq_true rfl, le_longestInstr (Nat.le_of_ble_eq_true rfl) c⟩
theorem EncodeLength.sload : EncodeLength.Statement .sload := fun c _ => ⟨rfl, Nat.le_of_ble_eq_true rfl, le_longestInstr (Nat.le_of_ble_eq_true rfl) c⟩
theorem EncodeLength.ssave : EncodeLength.Statement .ssave := fun c _ => ⟨rfl, Nat.le_of_ble_eq_true rfl, le_longestInstr (Nat.le_of_ble_eq_true rfl) c⟩
theorem EncodeLength.ltake : EncodeLength.Statement .ltake := fun c _ => ⟨rfl, Nat.le_of_ble_eq_true rfl, le_longestInstr (Nat.le_of_ble_eq_true rfl) c⟩
theorem EncodeLength.boot : EncodeLength.Statement .boot := fun c _ => ⟨rfl, Nat.le_of_ble_eq_true rfl, le_longestInstr (Nat.le_of_ble_eq_true rfl) c⟩
theorem EncodeLength.eval (id : List Byte) : EncodeLength.Statement (.eval id) := by
  intro c h
  have h := of_decide_eq_true h
  simp only [Config.tagBufCap] at h
  refine ⟨by simp [encode, encodedSize]; omega, ?_, ?_⟩ <;> simp only [encodedSize, longestInstr] <;> omega
theorem EncodeLength.tick : EncodeLength.Statement .tick := fun c _ => ⟨rfl, Nat.le_of_ble_eq_true rfl, le_longestInstr (Nat.le_of_ble_eq_true rfl) c⟩
theorem EncodeLength.pfcheck : EncodeLength.Statement .pfcheck := fun c _ => ⟨rfl, Nat.le_of_ble_eq_true rfl, le_longestInstr (Nat.le_of_ble_eq_true rfl) c⟩
theorem EncodeLength.loop : EncodeLength.Statement .loop := fun c _ => ⟨rfl, Nat.le_of_ble_eq_true rfl, le_longestInstr (Nat.le_of_ble_eq_true rfl) c⟩
theorem EncodeLength.linkWrite (a : Addr) (d : Byte) : EncodeLength.Statement (.linkWrite a d) :=
  fun c _ => ⟨rfl, Nat.le_of_ble_eq_true rfl, le_longestInstr (Nat.le_of_ble_eq_true rfl) c⟩
theorem EncodeLength.linkRead (a : Addr) (v : Byte) : EncodeLength.Statement (.linkRead a v) :=
  fun c _ => ⟨rfl, Nat.le_of_ble_eq_true rfl, le_longestInstr (Nat.le_of_ble_eq_true rfl) c⟩
theorem EncodeLength.reqa : EncodeLength.Statement .reqa := fun c _ => ⟨rfl, Nat.le_of_ble_eq_true rfl, le_longestInstr (Nat.le_of_ble_eq_true rfl) c⟩
theorem EncodeLength.anticollCl1 : EncodeLength.Statement .anticollCl1 := fun c _ => ⟨rfl, Nat.le_of_ble_eq_true rfl, le_longestInstr (Nat.le_of_ble_eq_true rfl) c⟩
theorem EncodeLength.pcdIdle : EncodeLength.Statement .pcdIdle := fun c _ => ⟨rfl, Nat.le_of_ble_eq_true rfl, le_longestInstr (Nat.le_of_ble_eq_true rfl) c⟩
theorem EncodeLength.pcdCalcCrc : EncodeLength.Statement .pcdCalcCrc := fun c _ => ⟨rfl, Nat.le_of_ble_eq_true rfl, le_longestInstr (Nat.le_of_ble_eq_true rfl) c⟩
theorem EncodeLength.pcdTransceive : EncodeLength.Statement .pcdTransceive := fun c _ => ⟨rfl, Nat.le_of_ble_eq_true rfl, le_longestInstr (Nat.le_of_ble_eq_true rfl) c⟩
theorem EncodeLength.pcdSoftReset : EncodeLength.Statement .pcdSoftReset := fun c _ => ⟨rfl, Nat.le_of_ble_eq_true rfl, le_longestInstr (Nat.le_of_ble_eq_true rfl) c⟩

end Sys2Proof.Laws
end

