-- ==== Sys2Proof/Machine/Asm.lean ====
section
/-! DEFINITION. The assembler's side of the operation port: the pseudo-operations of 30_encoding.md R127 and the text of
an operation in the syntax of R126 (numbers in hexadecimal). No machine behaviour depends on this file. -/

namespace Sys2Proof.Machine

/-- The pseudo-operations of R127. -/
inductive Pseudo where
  | regw (name : Addr) (d : Byte)
  | regr (name : Addr)
  | idle
  | flushFifo
  | clearIrq
  | persist
  | poll
  | settle (t : Millis)
deriving DecidableEq, Repr

/-- The operation a pseudo-operation stands for (R127); a register name is resolved by `PCD_REGMAP` before. -/
def Pseudo.expand (m : RegMap) : Pseudo → Instr
  | .regw name d => .xwr name d
  | .regr name => .xrd name
  | .idle => .xwr m.command 0x00#8
  | .flushFifo => .xwr m.fifoLevel flushBuffer
  | .clearIrq => .xwr m.comIrq clearComIrq
  | .persist => .ssave
  | .poll => .tagavail
  | .settle t => .xdelay t

/-- A number in the syntax of R126. -/
def asmHex (n : Nat) : String := "0x" ++ String.ofList (Nat.toDigits 16 n)

/-- A byte list in the syntax of R126: its elements between braces. -/
def asmList (bs : List Byte) : String :=
  String.singleton (Char.ofNat 0x7B) ++ String.intercalate ", " (bs.map (fun b => asmHex b.toNat))
    ++ String.singleton (Char.ofNat 0x7D)

/-- A line of assembler text: the mnemonic and its operands, separated by commas. -/
def asmLine (mnemonic : String) : List String → String
  | [] => mnemonic
  | ops => mnemonic ++ " " ++ String.intercalate ", " ops

/-- The text of an instruction (R126); the rows outside the operation port are written with the table's mnemonics. -/
def asm : Instr → String
  | .xwr a d => asmLine "XWR" [asmHex a.toNat, asmHex d.toNat]
  | .xrd a => asmLine "XRD" [asmHex a.toNat]
  | .xsetb a m => asmLine "XSETB" [asmHex a.toNat, asmHex m.toNat]
  | .xclrb a m => asmLine "XCLRB" [asmHex a.toNat, asmHex m.toNat]
  | .xwait a m t => asmLine "XWAIT" [asmHex a.toNat, asmHex m.toNat, asmHex t.toNat]
  | .xdelay t => asmLine "XDELAY" [asmHex t.toNat]
  | .xrst t => asmLine "XRST" [asmHex t.toNat]
  | .pinit => "PINIT"
  | .panton => "PANTON"
  | .pxcv lb cap t tx =>
    asmLine "PXCV" [asmHex tx.length, asmHex lb.toNat, asmHex cap.toNat, asmHex t.toNat, asmList tx]
  | .preqa => "PREQA"
  | .panticoll => "PANTICOLL"
  | .pcrc data => asmLine "PCRC" [asmHex data.length, asmList data]
  | .tagavail => "TAGAVAIL"
  | .readtag maxLen => asmLine "READTAG" [asmHex maxLen.toNat]
  | .sload => "SLOAD"
  | .ssave => "SSAVE"
  | .ltake => "LTAKE"
  | .boot => "BOOT"
  | .eval id => asmLine "EVAL" [asmHex id.length, asmList id]
  | .tick => "TICK"
  | .pfcheck => "PFCHECK"
  | .loop => "LOOP"
  | .linkWrite a d => asmLine "LINK_WRITE" [asmHex a.toNat, asmHex d.toNat]
  | .linkRead a v => asmLine "LINK_READ" [asmHex a.toNat, asmHex v.toNat]
  | .reqa => "REQA"
  | .anticollCl1 => "ANTICOLL_CL1"
  | .pcdIdle => "PCD_IDLE"
  | .pcdCalcCrc => "PCD_CALCCRC"
  | .pcdTransceive => "PCD_TRANSCEIVE"
  | .pcdSoftReset => "PCD_SOFTRESET"

end Sys2Proof.Machine
end

