-- ==== Sys2Proof/Tests/Slice0.lean ====
section
/-! SUPPORT. The model's own tests. Decoding: words written out from the encoding tables of 30_encoding.md. One step: the
vectors of 95_test_vectors.md, named in each docstring. Witnesses: for every statement with hypotheses, values that meet
all of them together, each clause at a boundary. -/

namespace Sys2Proof.Machine

/-! ## Decoding (V1 to V28, R101, R104, R106, R113) -/

theorem test_decode_xwr : decode defaultFifoCap .operation [0x10#8, 0x02#8, 0x0F#8] = .ok (.xwr 0x02#7 0x0F#8, []) := by decide
theorem test_decode_xrd : decode defaultFifoCap .operation [0x11#8, 0x08#8] = .ok (.xrd 0x08#7, []) := by decide
theorem test_decode_xsetb : decode defaultFifoCap .operation [0x12#8, 0x28#8, 0x03#8] = .ok (.xsetb 0x28#7 0x03#8, []) := by decide
theorem test_decode_xclrb : decode defaultFifoCap .operation [0x13#8, 0x1A#8, 0x80#8] = .ok (.xclrb 0x1A#7 0x80#8, []) := by decide
theorem test_decode_xwait :
    decode defaultFifoCap .operation [0x14#8, 0x08#8, 0x30#8, 0x32#8] = .ok (.xwait 0x08#7 0x30#8 50#8, []) := by decide
theorem test_decode_xdelay : decode defaultFifoCap .operation [0x15#8, 0xF4#8, 0x01#8] = .ok (.xdelay 500#16, []) := by decide
theorem test_decode_xrst : decode defaultFifoCap .operation [0x16#8, 0x0A#8, 0x00#8] = .ok (.xrst 10#16, []) := by decide
theorem test_decode_pinit : decode defaultFifoCap .operation [0x20#8] = .ok (.pinit, []) := by decide
theorem test_decode_panton : decode defaultFifoCap .operation [0x21#8] = .ok (.panton, []) := by decide
theorem test_decode_pxcv : decode defaultFifoCap .operation [0x22#8, 0x02#8, 0x00#8, 0x05#8, 0x32#8, 0x00#8, 0x93#8, 0x20#8]
    = .ok (.pxcv 0#3 5#8 50#8 [0x93#8, 0x20#8], []) := by decide
theorem test_decode_preqa : decode defaultFifoCap .operation [0x23#8] = .ok (.preqa, []) := by decide
theorem test_decode_panticoll : decode defaultFifoCap .operation [0x24#8] = .ok (.panticoll, []) := by decide
theorem test_decode_pcrc :
    decode defaultFifoCap .operation [0x25#8, 0x02#8, 0x50#8, 0x00#8] = .ok (.pcrc [0x50#8, 0x00#8], []) := by decide
theorem test_decode_tagavail : decode defaultFifoCap .operation [0x26#8] = .ok (.tagavail, []) := by decide
theorem test_decode_readtag : decode defaultFifoCap .operation [0x27#8, 0x0A#8] = .ok (.readtag 10#8, []) := by decide
theorem test_decode_sload : decode defaultFifoCap .operation [0x30#8] = .ok (.sload, []) := by decide
theorem test_decode_ssave : decode defaultFifoCap .operation [0x31#8] = .ok (.ssave, []) := by decide
theorem test_decode_ltake : decode defaultFifoCap .operation [0x40#8] = .ok (.ltake, []) := by decide
theorem test_decode_boot : decode defaultFifoCap .operation [0x50#8] = .ok (.boot, []) := by decide
theorem test_decode_eval : decode defaultFifoCap .operation [0x51#8, 0x04#8, 0x04#8, 0xAB#8, 0x10#8, 0x9F#8, 0x52#8]
    = .ok (.eval [0x04#8, 0xAB#8, 0x10#8, 0x9F#8], [0x52#8]) := by decide
theorem test_decode_tick : decode defaultFifoCap .operation [0x52#8] = .ok (.tick, []) := by decide
theorem test_decode_pfcheck : decode defaultFifoCap .operation [0x53#8] = .ok (.pfcheck, []) := by decide
theorem test_decode_loop : decode defaultFifoCap .operation [0x54#8] = .ok (.loop, []) := by decide
/-- R101, the wire column of V30: the address byte 0000 0010 has bit 7 clear. -/
theorem test_decode_linkWrite : decode defaultFifoCap .link [0x02#8, 0x0F#8] = .ok (.linkWrite 0x02#7 0x0F#8, []) := by decide
/-- R101, the wire column of V31: the address byte 1000 1000 has bit 7 set. -/
theorem test_decode_linkRead : decode defaultFifoCap .link [0x88#8, 0x30#8] = .ok (.linkRead 0x08#7 0x30#8, []) := by decide
theorem test_decode_reqa : decode defaultFifoCap .card [0x26#8] = .ok (.reqa, []) := by decide
theorem test_decode_anticollCl1 : decode defaultFifoCap .card [0x93#8, 0x20#8] = .ok (.anticollCl1, []) := by decide
theorem test_decode_pcdIdle : decode defaultFifoCap .command [0x00#8] = .ok (.pcdIdle, []) := by decide
theorem test_decode_pcdCalcCrc : decode defaultFifoCap .command [0x03#8] = .ok (.pcdCalcCrc, []) := by decide
theorem test_decode_pcdTransceive : decode defaultFifoCap .command [0x0C#8] = .ok (.pcdTransceive, []) := by decide
theorem test_decode_pcdSoftReset : decode defaultFifoCap .command [0x0F#8] = .ok (.pcdSoftReset, []) := by decide

/-- V10, V14, V27, V28: the smallest operands that are admitted. -/
theorem test_decode_least : decode defaultFifoCap .operation [0x25#8, 0x00#8] = .ok (.pcrc [], []) ∧
    decode defaultFifoCap .operation [0x51#8, 0x00#8] = .ok (.eval [], []) ∧
    decode defaultFifoCap .operation [0x15#8, 0x00#8, 0x00#8] = .ok (.xdelay 0#16, []) ∧
    decode defaultFifoCap .operation [0x27#8, 0x00#8] = .ok (.readtag 0#8, []) := by decide

/-- V16: the bounds of every reserved range. -/
theorem test_refuse_reserved : ∀ b ∈ [0x00#8, 0x0F#8, 0x17#8, 0x1F#8, 0x28#8, 0x2F#8, 0x32#8, 0x3F#8, 0x41#8, 0x4F#8,
    0x55#8, 0xFF#8], decode defaultFifoCap .operation [b] = .error (.opcode b) := by decide

/-- V17 to V22: operands out of range, with the offending byte. -/
theorem test_refuse_operand :
    decode defaultFifoCap .operation [0x10#8, 0x80#8, 0x00#8] = .error (.operand 0x80#8) ∧
    decode defaultFifoCap .operation [0x14#8, 0x08#8, 0x30#8, 0x00#8] = .error (.operand 0x00#8) ∧
    decode defaultFifoCap .operation [0x22#8, 0x01#8, 0x08#8, 0x02#8, 0x32#8, 0x00#8, 0x26#8] = .error (.operand 0x08#8) ∧
    decode defaultFifoCap .operation [0x22#8, 0x01#8, 0x07#8, 0x00#8, 0x32#8, 0x00#8, 0x26#8] = .error (.operand 0x00#8) ∧
    decode defaultFifoCap .operation [0x22#8, 0x01#8, 0x07#8, 0x41#8, 0x32#8, 0x00#8, 0x26#8] = .error (.operand 0x41#8) ∧
    decode defaultFifoCap .operation [0x22#8, 0x01#8, 0x07#8, 0x02#8, 0x32#8, 0x01#8, 0x26#8] = .error (.operand 0x01#8) := by decide

/-- V23 to V26: counts out of range, and a stream that ends inside an operation. -/
theorem test_refuse_count :
    decode defaultFifoCap .operation [0x22#8, 0x00#8, 0x07#8, 0x02#8, 0x32#8, 0x00#8] = .error (.operand 0x00#8) ∧
    decode defaultFifoCap .operation (0x25#8 :: 0x41#8 :: List.replicate 65 0x00#8) = .error (.operand 0x41#8) ∧
    decode defaultFifoCap .operation (0x51#8 :: 0x0B#8 :: List.replicate 11 0x00#8) = .error (.operand 0x0B#8) ∧
    decode defaultFifoCap .operation [0x51#8, 0x04#8, 0x04#8, 0xAB#8] = .error (.truncated 0x51#8) := by decide

/-- The table's own numbering: byte 0 of an operation is the lowest, a link transfer and a frame come high byte first. -/
theorem test_table_words : decodeTableWord 24 0x0F0210 = some (.xwr 0x02#7 0x0F#8) ∧
    decodeTableWord 16 0x8230 = some (.linkRead 0x02#7 0x30#8) ∧
    decodeTableWord 16 0x9320 = some .anticollCl1 ∧ decodeTableWord 8 0x54 = some .loop ∧
    decodeTableWord 8 0x0F = some .pcdSoftReset := by decide

/-- `FIFO_CAP` is a parameter (R6, R122): on a reader with a FIFO of four bytes, five are refused. -/
theorem test_decode_fifo_cap :
    decode 4#8 .operation [0x25#8, 0x04#8, 0x01#8, 0x02#8, 0x03#8, 0x04#8]
      = .ok (.pcrc [0x01#8, 0x02#8, 0x03#8, 0x04#8], []) ∧
    decode 4#8 .operation [0x25#8, 0x05#8, 0x01#8, 0x02#8, 0x03#8, 0x04#8, 0x05#8] = .error (.operand 0x05#8) := by decide

/-! ## Well-formedness (R122): each check refuses an ill-formed term -/

theorem test_wf_wait_bound : (Instr.xwait 0x08#7 0x30#8 0#8).wellFormed defaultFifoCap = false := by decide
theorem test_wf_xcv_empty : (Instr.pxcv 7#3 2#8 50#8 []).wellFormed defaultFifoCap = false := by decide
theorem test_wf_xcv_long : (Instr.pxcv 7#3 2#8 50#8 (List.replicate 65 0x26#8)).wellFormed defaultFifoCap = false := by decide
theorem test_wf_xcv_no_room : (Instr.pxcv 7#3 0#8 50#8 [0x26#8]).wellFormed defaultFifoCap = false := by decide
theorem test_wf_xcv_room : (Instr.pxcv 7#3 65#8 50#8 [0x26#8]).wellFormed defaultFifoCap = false := by decide
theorem test_wf_xcv_bound : (Instr.pxcv 7#3 2#8 0#8 [0x26#8]).wellFormed defaultFifoCap = false := by decide
theorem test_wf_crc_long : (Instr.pcrc (List.replicate 65 0x00#8)).wellFormed defaultFifoCap = false := by decide
theorem test_wf_eval_long : (Instr.eval (List.replicate 11 0x00#8)).wellFormed defaultFifoCap = false := by decide
/-- The longest operands are well-formed. -/
theorem test_wf_longest : (Instr.pxcv 0#3 64#8 1#8 (List.replicate 64 0x00#8)).wellFormed defaultFifoCap = true ∧
    (Instr.pcrc (List.replicate 64 0x00#8)).wellFormed defaultFifoCap = true ∧
    (Instr.eval (List.replicate 10 0x00#8)).wellFormed defaultFifoCap = true := by decide

/-! ## A machine to test on -/

/-- The identifier of 95_test_vectors.md that `AUTH` accepts in the tests. -/
def testId : List Byte := [0x04#8, 0xAB#8, 0x10#8, 0x9F#8]

/-- An identifier that `AUTH` refuses in the tests. -/
def testStranger : List Byte := [0xDE#8, 0xAD#8, 0xBE#8, 0xEF#8]

/-- The example configuration of 95_test_vectors.md: `MAGIC` 0xA5, the default binding, Sim, level A. -/
def testConfig : Config where
  magic := 0xA5#8
  storageBeyond := 0
  rstHold := 10#16
  softResetSettle := 50#16
  backend := .sim
  level := .a
  lockoutTags := .readAndDiscard
  loadRangeCheck := false
  bootDrive := false
  authKnown := [(testId, true), (testStranger, false)]
  bitOrder := .msbFirst
  csActiveLow := true
  rstActiveLow := true
  regs := defaultRegs
  cmds := defaultCommands
  initTable := defaultInitTable
  antennaReg := defaultAntennaReg
  antennaMask := defaultAntennaMask
  errMask := defaultErrMask
  completionMask := defaultCompletionMask
  crcDoneMask := defaultCrcDoneMask
  fifoCap := defaultFifoCap
  xcvSteps := standardXcv
  crcSteps := standardCrc

/-- Five stored bytes. -/
def testStore (r : Record) : Memory := [(0, r.magic), (1, r.lockState), (2, r.wrongAttempts), (3, r.lsr), (4, r.checksum)]

/-- A machine that has just been powered up, the default record stored. -/
def testCold : State :=
  { State.reset with
    cfg := testConfig
    link := { cs := .deasserted, rst := .deasserted, hist := [] }
    durable := testStore (defaultRecord 0xA5#8) }

/-- A booted machine with this record, stored. -/
def testWith (r : Record) : State :=
  { testCold with
    record := r
    loaded := true
    durable := testStore r
    irq := { attached := true, enabled := true, pending := false }
    seq := { booted := true, phase := .running, position := none } }

/-- A record from its five bytes. -/
def testRecord (m l w x k : Byte) : Record := { magic := m, lockState := l, wrongAttempts := w, lsr := x, checksum := k }

/-- A booted machine with no attempts and no lockout. -/
def testActive : State := testWith (testRecord 0xA5#8 0x00#8 0x00#8 0x00#8 0xA5#8)

/-- A booted machine with two attempts. -/
def testTwo : State := testWith (testRecord 0xA5#8 0x00#8 0x02#8 0x00#8 0xA7#8)

/-- A booted machine at the start of a lockout. -/
def testLocked : State := testWith (testRecord 0xA5#8 0x00#8 0x00#8 0x1E#8 0xBB#8)

/-- A booted machine in the last second of a lockout. -/
def testLast : State := testWith (testRecord 0xA5#8 0x00#8 0x00#8 0x01#8 0xA4#8)

/-- A Live machine at level A with these transceive outcomes to come. -/
def testLive (xs : List XcvResult) : State :=
  { testActive with
    cfg := { testConfig with backend := .live }
    draws := { testCold.draws with xcvs := xs } }

/-- A Live machine at level B with these bytes to be read, its waits bounded to two polls. -/
def testWire (reads : List Byte) : State :=
  { testActive with
    cfg := { testConfig with backend := .live, level := .b }
    draws := { testCold.draws with reads := reads, waits := [0, 0] } }

/-- With the test identifier buffered. -/
def testTagged (s : State) : State := { s with tag := { valid := true, bytes := testId } }

/-- With the latch set. -/
def testLatched (s : State) : State := { s with pfl := { latch := true } }

/-- With characters and seconds waiting. -/
def testInputs (chars : List Byte) (ticks : Nat) (s : State) : State := { s with inp := { chars := chars, ticks := ticks } }

/-- With a schedule. -/
def testMoves (ms : List Move) (s : State) : State := { s with moves := ms }

/-- With bytes on the operation port. -/
def testPort (bs : List Byte) (s : State) : State := { s with port := { space := .operation, bytes := bs } }

/-- `n` pseudocode steps (R38). -/
def testSteps (n : Nat) : List Move := List.replicate n .advance

/-- A view of the next state, if there is one. -/
def testView {α : Type} (f : State → α) : Host.Outcome State Fault Refusal → Option α
  | .next s => some (f s)
  | .fault _ => none
  | .refused _ => none

/-- The fault, if there is one. -/
def testFault : Host.Outcome State Fault Refusal → Option Fault
  | .fault f => some f
  | _ => none

/-- The transfers, pulses and delays of a history, without the chip-select events. -/
def testBus (s : State) : List LinkEvent :=
  s.link.hist.filter (fun e => match e with | .cs _ => false | _ => true)

/-- The result, the record and the actuator's commands. -/
def testPolicy (s : State) : Option OpResult × Option Record × List Byte × List ActCommand :=
  (s.result, s.held, s.recordBytes, s.act.hist)

/-! ## ProtocolTransport (V30 to V45) -/

/-- V30, with the chip-select events of R151. -/
theorem test_xwr : testView (fun s => s.link.hist) (exec (.xwr 0x02#7 0x0F#8) testActive)
    = some [.cs .asserted, .w 0x02#7 0x0F#8, .cs .deasserted] := by decide
/-- V31. -/
theorem test_xrd : testView (fun s => (s.result, testBus s)) (exec (.xrd 0x08#7) (testWire [0x30#8]))
    = some (some (.byte 0x30#8), [.r 0x08#7 0x30#8]) := by decide
/-- V35: one bit already set. -/
theorem test_xsetb_writes : testView testBus (exec (.xsetb 0x28#7 0x03#8) (testWire [0x81#8]))
    = some [.r 0x28#7 0x81#8, .w 0x28#7 0x83#8] := by decide
/-- V34: no write. -/
theorem test_xsetb_keeps : testView testBus (exec (.xsetb 0x28#7 0x03#8) (testWire [0x83#8]))
    = some [.r 0x28#7 0x83#8] := by decide
/-- V37. -/
theorem test_xclrb_clears : testView testBus (exec (.xclrb 0x1A#7 0x80#8) (testWire [0x87#8]))
    = some [.r 0x1A#7 0x87#8, .w 0x1A#7 0x07#8] := by decide
/-- V38: the write is unconditional. -/
theorem test_xclrb_always : testView testBus (exec (.xclrb 0x1A#7 0x80#8) (testWire [0x07#8]))
    = some [.r 0x1A#7 0x07#8, .w 0x1A#7 0x07#8] := by decide
/-- V39. -/
theorem test_xwait_sees : testView (fun s => (s.result, s.eng.lastResult, testBus s))
      (exec (.xwait 0x08#7 0x30#8 50#8) (testWire [0x20#8]))
    = some (some (.byte 0x20#8), .ok, [.r 0x08#7 0x20#8]) := by decide
/-- V41. -/
theorem test_xwait_expires : testView (fun s => (s.result, s.eng.lastResult, testBus s))
      (exec (.xwait 0x08#7 0x30#8 50#8) (testWire [0x00#8, 0x00#8]))
    = some (some (.fail .timeout), .timeout, [.r 0x08#7 0x00#8, .r 0x08#7 0x00#8]) := by decide
/-- V44. -/
theorem test_xdelay : testView testBus (exec (.xdelay 50#16) testActive) = some [.delay 50#16] := by decide
/-- V45. -/
theorem test_xrst : testView (fun s => (s.link.hist, s.link.cs)) (exec (.xrst 10#16) testActive)
    = some ([.rst .asserted, .delay 10#16, .rst .deasserted], .deasserted) := by decide

/-! ## Anticollision engine (V50 to V59, V64 to V66) -/

/-- V66a. -/
theorem test_pinit : testView testBus (exec .pinit (testWire [0x80#8]))
    = some [.rst .asserted, .delay 10#16, .rst .deasserted, .w 0x02#7 0x0F#8, .delay 50#16,
        .w 0x54#7 0x80#8, .w 0x56#7 0xA9#8, .w 0x58#7 0x03#8, .w 0x5A#7 0xE8#8, .w 0x2A#7 0x40#8, .w 0x22#7 0x3D#8,
        .r 0x28#7 0x80#8, .w 0x28#7 0x83#8] := by decide
/-- V66a, its last sentence: both antenna bits already set. -/
theorem test_panton : testView testBus (exec .panton (testWire [0x83#8])) = some [.r 0x28#7 0x83#8] := by decide
/-- 90_conflicts.md C3: another reader changes `PCD_REGMAP` only, and the antenna register moves with it. -/
theorem test_panton_other_reader : testView testBus (exec .panton { testWire [0x83#8] with
      cfg := { (testWire []).cfg with regs := { defaultRegs with txControl := 0x14#7 } } })
    = some [.r 0x14#7 0x83#8] := by decide
/-- R186: one event with the drawn outcome. -/
theorem test_pxcv_level_a : testView (fun s => (s.result, testBus s))
      (exec (.pxcv 7#3 2#8 50#8 [0x26#8]) (testLive [.ok [0x04#8, 0x00#8] 0#3]))
    = some (some (.received [0x04#8, 0x00#8] 0#3),
        [.xcv [0x26#8] 7#3 2#8 50#8 (.ok [0x04#8, 0x00#8] 0#3)]) := by decide
/-- R187: the sequence is a parameter; a reader that wants the FIFO loaded, one wait and one byte read back, the
valid bits never. -/
theorem test_pxcv_other_reader : testView (fun s => (s.result, testBus s))
      (exec (.pxcv 7#3 2#8 50#8 [0x26#8]) { testWire [0x30#8, 0x04#8] with
        cfg := { (testWire []).cfg with
          xcvSteps := [.load .fifoData, .wait .comIrq .completionMask, .readByte .fifoData] } })
    = some (some (.received [0x04#8] Config.freeLastBits), [.w 0x12#7 0x26#8, .r 0x08#7 0x30#8, .r 0x12#7 0x04#8]) := by
  rfl
/-- V66d: no FIFO read. -/
theorem test_pxcv_no_room : testView (fun s => (s.result, testBus s))
      (exec (.pxcv 7#3 2#8 50#8 [0x26#8]) (testWire [0x07#8, 0x30#8, 0x00#8, 0x83#8]))
    = some (some (.fail .noRoom), [.w 0x02#7 0x00#8, .w 0x08#7 0x7F#8, .w 0x14#7 0x80#8, .w 0x12#7 0x26#8, .w 0x1A#7 0x07#8,
        .w 0x02#7 0x0C#8, .r 0x1A#7 0x07#8, .w 0x1A#7 0x87#8, .r 0x08#7 0x30#8, .r 0x0C#7 0x00#8, .r 0x14#7 0x83#8]) := by
  decide
/-- V66b. -/
theorem test_preqa_level_b : testView (fun s => (s.result, testBus s))
      (exec .preqa (testWire [0x07#8, 0x00#8, 0x30#8, 0x00#8, 0x02#8, 0x04#8, 0x00#8, 0x00#8]))
    = some (some (.bytes [0x04#8, 0x00#8]), [.w 0x02#7 0x00#8, .w 0x08#7 0x7F#8, .w 0x14#7 0x80#8, .w 0x12#7 0x26#8,
        .w 0x1A#7 0x07#8, .w 0x02#7 0x0C#8, .r 0x1A#7 0x07#8, .w 0x1A#7 0x87#8, .r 0x08#7 0x00#8, .r 0x08#7 0x30#8,
        .r 0x0C#7 0x00#8, .r 0x14#7 0x02#8, .r 0x12#7 0x04#8, .r 0x12#7 0x00#8, .r 0x18#7 0x00#8]) := by decide
/-- V54 and V55: the length is checked before the valid bits. -/
theorem test_preqa_checks :
    testView (fun s => s.eng.lastResult) (exec .preqa (testLive [.ok [0x04#8, 0x00#8] 4#3])) = some .badLastBits ∧
    testView (fun s => s.eng.lastResult) (exec .preqa (testLive [.ok [0x04#8] 4#3])) = some .badLength := by decide
/-- V59a. -/
theorem test_panticoll : testView (fun s => s.result)
      (exec .panticoll (testLive [.ok [0x04#8, 0xAB#8, 0x10#8, 0x9F#8, 0x20#8] 0#3]))
    = some (some (.bytes testId)) := by decide
/-- V59b. -/
theorem test_panticoll_bcc : testView (fun s => (s.result, s.eng.lastResult))
      (exec .panticoll (testLive [.ok [0x04#8, 0xAB#8, 0x10#8, 0x9F#8, 0x21#8] 0#3]))
    = some (some (.fail .bccMismatch), .bccMismatch) := by decide
/-- V66f. -/
theorem test_pcrc_level_b : testView (fun s => (s.result, testBus s))
      (exec (.pcrc [0x50#8, 0x00#8]) (testWire [0x04#8, 0x57#8, 0xCD#8]))
    = some (some (.bytes [0x57#8, 0xCD#8]), [.w 0x02#7 0x00#8, .w 0x0A#7 0x04#8, .w 0x14#7 0x80#8, .w 0x12#7 0x50#8,
        .w 0x12#7 0x00#8, .w 0x02#7 0x03#8, .r 0x0A#7 0x04#8, .w 0x02#7 0x00#8, .r 0x44#7 0x57#8, .r 0x42#7 0xCD#8]) := by
  decide
/-- V66f, its last sentence. -/
theorem test_pcrc_timeout : testView (fun s => (s.result, s.eng.lastResult))
      (exec (.pcrc [0x50#8, 0x00#8]) (testWire [0x00#8, 0x00#8]))
    = some (some (.fail .crcTimeout), .crcTimeout) := by decide
/-- V64d. -/
theorem test_tagavail_live : testView (fun s => (s.result, s.tag, (testBus s).length))
      (exec .tagavail (testLive [.ok [0x04#8, 0x00#8] 0#3, .ok [0x04#8, 0xAB#8, 0x10#8, 0x9F#8, 0x20#8] 0#3]))
    = some (some (.bit true), { valid := true, bytes := testId }, 2) := by decide
/-- R242, R246: one character is taken. -/
theorem test_tagavail_sim : testView (fun s => (s.result, s.sim.line, s.inp.chars))
      (exec .tagavail (testInputs [0x30#8, 0x34#8] 0 testActive))
    = some (some (.bit false), [0x30#8], [0x34#8]) := by decide
/-- V70: twelve calls. -/
theorem test_sim_line : testView (fun s => (s.result, s.tag.bytes))
      (repeatExec .tagavail 12 (testInputs [0x30#8, 0x34#8, 0x3A#8, 0x41#8, 0x42#8, 0x3A#8, 0x31#8, 0x30#8, 0x3A#8,
        0x39#8, 0x46#8, 0x0A#8] 0 testActive))
    = some (some (.bit true), testId) := by decide
/-- V73, V76, V77, V78: lower case, an odd digit, pairing across separators, a letter that is no digit. -/
theorem test_decode_line :
    decodeLine [0x30#8, 0x34#8, 0x3A#8, 0x61#8, 0x62#8] = [0x04#8, 0xAB#8] ∧
    decodeLine [0x39#8, 0x46#8, 0x3A#8, 0x31#8] = [0x9F#8] ∧
    decodeLine [0x34#8, 0x3A#8, 0x41#8, 0x42#8, 0x3A#8, 0x31#8] = [0x4A#8, 0xB1#8] ∧
    decodeLine [0x30#8, 0x67#8, 0x34#8] = [0x04#8] := by decide
/-- V65d: the rest is lost. -/
theorem test_readtag : testView (fun s => (s.result, s.tag.valid)) (exec (.readtag 2#8) (testTagged testActive))
    = some (some (.copied 2 [0x04#8, 0xAB#8]), false) := by decide
/-- V65e: nothing is consumed. -/
theorem test_readtag_none : testView (fun s => (s.result, s.tag.valid)) (exec (.readtag 0#8) (testTagged testActive))
    = some (some (.copied 0 []), true) := by decide

/-! ## The record and the latch (V60 to V69, V120 to V124) -/

/-- V61: a bad checksum is healed in storage. -/
theorem test_sload_heals : testView (fun s => (s.held, s.recordBytes, s.writes.length))
      (exec .sload { testCold with durable := testStore (testRecord 0xA5#8 0x00#8 0x01#8 0x00#8 0xA5#8) })
    = some (some (testRecord 0xA5#8 0x00#8 0x00#8 0x00#8 0xA5#8), [0xA5#8, 0x00#8, 0x00#8, 0x00#8, 0xA5#8], 1) := by decide
/-- V68a: out of range, kept while the range check is off. -/
theorem test_sload_keeps : testView (fun s => (s.held, s.writes))
      (exec .sload { testCold with durable := testStore (testRecord 0xA5#8 0x00#8 0x07#8 0x00#8 0xA2#8) })
    = some (some (testRecord 0xA5#8 0x00#8 0x07#8 0x00#8 0xA2#8), []) := by decide
/-- V69b: a stale checksum. -/
theorem test_ssave : testView (fun s => (s.held, s.recordBytes))
      (exec .ssave { testActive with record := testRecord 0xA5#8 0x01#8 0x02#8 0x00#8 0x00#8 })
    = some (some (testRecord 0xA5#8 0x01#8 0x02#8 0x00#8 0xA6#8), [0xA5#8, 0x01#8, 0x02#8, 0x00#8, 0xA6#8]) := by decide
/-- V69d, V114. -/
theorem test_ssave_unwritten : testFault (exec .ssave testCold) = some .unwritten := by decide
/-- V120, V121: the edges coalesce. -/
theorem test_ltake : testView (fun s => (s.result, s.pfl.latch))
      (exec .ltake (takeEdge (takeEdge testActive))) = some (some (.bit true), false) := by decide
/-- V124: an edge held during the operation is delivered after it. -/
theorem test_ltake_pending : testView (fun s => (s.result, s.pfl.latch))
      (exec .ltake { testActive with irq := { attached := true, enabled := false, pending := true } })
    = some (some (.bit false), true) := by decide
/-- V123: an edge before attachment is lost. -/
theorem test_edge_lost : (takeEdge testCold).pfl.latch = false := by decide

/-! ## The policy (V80 to V104, V110 to V118) -/

/-- V97: a lockout resumes, nothing is written. -/
theorem test_boot : testView (fun s => (s.held, s.writes, s.irq.attached))
      (exec .boot { testCold with durable := testStore (testRecord 0xA5#8 0x00#8 0x00#8 0x0C#8 0xA9#8) })
    = some (some (testRecord 0xA5#8 0x00#8 0x00#8 0x0C#8 0xA9#8), [], true) := by decide
/-- V99: a lock state other than 0x01 drives Lock. -/
theorem test_boot_drives : testView (fun s => s.act.hist) (exec .boot { testCold with
      cfg := { testConfig with bootDrive := true }
      durable := testStore (testRecord 0xA5#8 0x07#8 0x00#8 0x00#8 0xA2#8) }) = some [.lock] := by decide
/-- V80. -/
theorem test_eval_match : testView testPolicy (exec (.eval testId) testActive)
    = some (some (.verdict .matched), some (testRecord 0xA5#8 0x01#8 0x00#8 0x00#8 0xA4#8),
        [0xA5#8, 0x01#8, 0x00#8, 0x00#8, 0xA4#8], [.unlock]) := by decide
/-- V83. -/
theorem test_eval_lockout : testView testPolicy (exec (.eval testStranger) testTwo)
    = some (some (.verdict .lockoutStarted), some (testRecord 0xA5#8 0x00#8 0x00#8 0x1E#8 0xBB#8),
        [0xA5#8, 0x00#8, 0x00#8, 0x1E#8, 0xBB#8], [.lock]) := by decide
/-- V92: expiry resets the attempts. -/
theorem test_tick_expiry : testView testPolicy
      (exec .tick (testWith (testRecord 0xA5#8 0x00#8 0x02#8 0x01#8 0xA6#8)))
    = some (some .unit, some (testRecord 0xA5#8 0x00#8 0x00#8 0x00#8 0xA5#8),
        [0xA5#8, 0x00#8, 0x00#8, 0x00#8, 0xA5#8], []) := by decide
/-- V93: above the range. -/
theorem test_tick_above : testView (fun s => s.held)
      (exec .tick (testWith (testRecord 0xA5#8 0x00#8 0x00#8 0x1F#8 0xBA#8)))
    = some (some (testRecord 0xA5#8 0x00#8 0x00#8 0x1E#8 0xBB#8)) := by decide
/-- V94. -/
theorem test_pfcheck_saves : testView (fun s => (s.result, s.writes, s.pfl.latch))
      (exec .pfcheck (testLatched (testWith (testRecord 0xA5#8 0x00#8 0x00#8 0x0C#8 0xA9#8))))
    = some (some (.bit true), [(0, [0xA5#8, 0x00#8, 0x00#8, 0x0C#8, 0xA9#8])], false) := by decide
/-- V112: the latch is not taken before `BOOT`. -/
theorem test_pfcheck_early : testFault (exec .pfcheck testCold) = some .notBooted := by decide
/-- V101: the countdown ends and the tag is evaluated in the same iteration. -/
theorem test_loop_unlocks : testView testPolicy (exec .loop (testTagged (testInputs [] 1 testLast)))
    = some (some .unit, some (testRecord 0xA5#8 0x01#8 0x00#8 0x00#8 0xA4#8),
        [0xA5#8, 0x01#8, 0x00#8, 0x00#8, 0xA4#8], [.unlock]) := by decide
/-- V102 and V104: the tag is discarded, three seconds are counted. -/
theorem test_loop_locked : testView (fun s => (s.tag.valid, s.held, s.writes.length, s.inp.ticks))
      (exec .loop (testTagged (testInputs [] 3 testLocked)))
    = some (false, some (testRecord 0xA5#8 0x00#8 0x00#8 0x1B#8 0xBE#8), 3, 0) := by decide

/-! ## The rows outside the operation port -/

/-- R142. -/
theorem test_linkWrite : testView testBus (exec (.linkWrite 0x02#7 0x0F#8) testActive) = some [.w 0x02#7 0x0F#8] := by decide
/-- R143. -/
theorem test_linkRead : testView testBus (exec (.linkRead 0x08#7 0x30#8) testActive) = some [.r 0x08#7 0x30#8] := by decide
/-- R104: a short frame of seven bits. -/
theorem test_reqa : testView testBus (exec .reqa (testLive [.fail .timeout]))
    = some [.xcv [0x26#8] 7#3 2#8 50#8 (.fail .timeout)] := by decide
/-- R106. -/
theorem test_anticollCl1 : testView testBus (exec .anticollCl1 (testLive [.fail .pcdError]))
    = some [.xcv [0x93#8, 0x20#8] 0#3 5#8 50#8 (.fail .pcdError)] := by decide
/-- R113. -/
theorem test_reader_commands :
    testView testBus (exec .pcdIdle testActive) = some [.w 0x02#7 0x00#8] ∧
    testView testBus (exec .pcdCalcCrc testActive) = some [.w 0x02#7 0x03#8] ∧
    testView testBus (exec .pcdTransceive testActive) = some [.w 0x02#7 0x0C#8] ∧
    testView testBus (exec .pcdSoftReset testActive) = some [.w 0x02#7 0x0F#8] := by decide

/-! ## The step (V113, V117, V118) -/

/-- V113: `50 50`. -/
theorem test_boot_twice : testFault (Host.Core.run Sys2Proof.core 2 (testPort [0x50#8, 0x50#8] testCold))
    = some .bootedTwice := by decide
/-- V118: `BOOT` succeeds, the truncated `EVAL` is refused. -/
theorem test_truncated : testFault (Host.Core.run Sys2Proof.core 2
      (testPort [0x50#8, 0x51#8, 0x04#8, 0x04#8, 0xAB#8] testCold)) = some (.refused (.truncated 0x51#8)) := by decide
/-- R402: with nothing on the port the sequencer boots, then loops. -/
theorem test_own_operations : testView (fun s => (s.seq.booted, s.inp.ticks))
      (Host.Core.run Sys2Proof.core 2 (testInputs [] 2 testCold)) = some (true, 0) := by decide
/-- R382: power is lost at the seventh step of a countdown second, which would have been its save, and one step later. -/
theorem test_power_loss :
    let lost := fun n => Host.Core.run Sys2Proof.core (n + 1)
      (testMoves (testSteps n ++ [.powerLoss []]) (testPort [0x52#8] testLocked))
    testView (fun s => (s.held, s.recordBytes, s.seq.booted)) (lost 7)
      = some (none, [0xA5#8, 0x00#8, 0x00#8, 0x1E#8, 0xBB#8], false) ∧
    testView (fun s => s.recordBytes) (lost 8) = some [0xA5#8, 0x00#8, 0x00#8, 0x1D#8, 0xB8#8] := by decide

/-! ## Steps inside an operation (R38, R74) -/

/-- R74: an edge lands between the read transfer and the write transfer of `XSETB`, which goes on as before. -/
theorem test_edge_between_transfers :
    let s := testMoves (testSteps 4 ++ .arrive .edge :: testSteps 4) (testPort [0x12#8, 0x28#8, 0x03#8] (testWire [0x81#8]))
    testView (fun s => (s.pfl.latch, testBus s, s.seq.position)) (Host.Core.run Sys2Proof.core 5 s)
      = some (true, [.r 0x28#7 0x81#8],
          some { instr := .xsetb 0x28#7 0x03#8, answers := [.unit, .byte 0x81#8, .unit] }) ∧
    testView (fun s => (s.pfl.latch, testBus s, s.seq.position, s.result)) (Host.Core.run Sys2Proof.core 9 s)
      = some (true, [.r 0x28#7 0x81#8, .w 0x28#7 0x83#8], none, some .unit) := by decide

/-- R74: an edge just before the `LTAKE` of a `LOOP` is saved by it, one just after it waits for the next. -/
theorem test_edge_around_ltake :
    let s := fun n => testMoves (testSteps n ++ [.arrive .edge, .sequencer]) (testPort [0x54#8] testActive)
    testView (fun s => (s.writes.length, s.pfl.latch)) (Host.Core.run Sys2Proof.core 5 (s 3)) = some (1, false) ∧
    testView (fun s => (s.writes.length, s.pfl.latch)) (Host.Core.run Sys2Proof.core 6 (s 4)) = some (0, true) := by decide

/-- R38: `Booting` stands while `BOOT` runs; with a valid record stored it takes nine steps more. -/
theorem test_booting :
    let s := testMoves (testSteps 9) testCold
    testView (fun s => (s.seq.phase, s.seq.booted, s.held)) (Host.Core.run Sys2Proof.core 3 s)
      = some (.booting, false, none) ∧
    testView (fun s => (s.seq.phase, s.seq.position)) (Host.Core.run Sys2Proof.core 9 s) = some (.running, none) := by
  decide

/-! ## Witnesses: the hypotheses of each statement that has some, met together, each clause at a boundary -/

/-- `WireDecodeIffEncode`. -/
theorem test_witness_wire : Space.link ≠ .operation ∧ Space.card ≠ .operation ∧ Space.command ≠ .operation := by decide

/-- `RefusedStops`: no operation in progress, and the sequencer moves next, with and without a schedule. -/
theorem test_witness_refused (bs : List Byte) :
    (testPort bs testCold).seq.position = none ∧ (testPort bs testCold).moves = [] ∧
    (testMoves [.sequencer] (testPort bs testCold)).moves = .sequencer :: [] ∧
    (testPort bs testCold).port = { space := .operation, bytes := bs } := ⟨rfl, rfl, rfl, rfl⟩

/-- `RefusedStops`: the bounds of its clauses, with a FIFO of 64 bytes; the data are zeros. -/
theorem test_witness_refused_bounds : testCold.cfg.fifoCap.toNat = 64 ∧
    (0x00#8).toNat ≤ 0x0F ∧ 0x55 ≤ (0xFF#8).toNat ∧ 0x80 ≤ (0x80#8).toNat ∧ (0x7F#8).toNat < 0x80 ∧
    64 < (65#8).toNat ∧ (65#8).toNat ≤ (List.replicate 65 0x00#8).length ∧
    10 < (11#8).toNat ∧ (11#8).toNat ≤ (List.replicate 11 0x00#8).length ∧
    (¬ (1 ≤ (0x00#8).toNat ∧ (0x00#8).toNat ≤ 64)) ∧ 1 ≤ (64#8).toNat ∧ (64#8).toNat ≤ 64 ∧ 8 ≤ (8#8).toNat ∧
    (7#8).toNat < 8 ∧ 0x01#8 ≠ 0x00#8 ∧ ([] : List Byte).length + 1 < Opcode.xrd.fixedLength ∧
    ([0x00#8] : List Byte).length < (2#8).toNat := by decide

/-- `RefusedStops`, its last clause: nothing well-formed begins with a wait whose bound is 0. -/
theorem test_witness_no_encoding (cap : Byte) : ¬ ∃ (i : Instr) (rest : List Byte), i.wellFormed cap = true ∧
    i.space = .operation ∧ 0x14#8 :: [0x08#8, 0x30#8, 0x00#8] = encode i ++ rest := by
  rintro ⟨i, rest, hw, hs, he⟩
  cases i <;> simp_all [encode, Opcode.byte, Instr.space, Instr.wellFormed]

/-- `StepRunsDecoded`, first clause, with the schedule empty and with the sequencer scheduled. -/
theorem test_witness_step : testCold.seq.position = none ∧ (Instr.xrd 0x7F#7).wellFormed testCold.cfg.fifoCap = true ∧
    (testPort [0x11#8, 0x7F#8, 0x52#8] testCold).port
      = { space := (Instr.xrd 0x7F#7).space, bytes := encode (.xrd 0x7F#7) ++ [0x52#8] } ∧
    (testPort [0x11#8, 0x7F#8, 0x52#8] testCold).moves = [] ∧
    (testMoves [.sequencer] (testPort [0x11#8, 0x7F#8, 0x52#8] testCold)).moves = .sequencer :: [] := by decide

/-- `StepRunsDecoded`, second clause, before and after `BOOT`. -/
theorem test_witness_own : testCold.seq.position = none ∧ testActive.seq.position = none ∧ testCold.moves = [] ∧ testCold.port.bytes = [] ∧ testCold.seq.booted = false ∧
    testActive.moves = [] ∧ testActive.port.bytes = [] ∧ testActive.seq.booted = true := by decide

/-- `ExchangeLevelA`, `CrcLevelA`; `ExchangeLevelB`, `CrcLevelB`. -/
theorem test_witness_levels : (testLive []).cfg.level = .a ∧ (testWire []).cfg.level = .b ∧
    (testWire []).cfg.xcvSteps = standardXcv ∧ (testWire []).cfg.crcSteps = standardCrc := by decide

/-- `TransceiveLaws`: an answer as long as its capacity, at level B. -/
theorem test_witness_transceive : (testWire []).cfg.level = .b ∧ (testWire []).cfg.xcvSteps = standardXcv ∧ testView (fun s => s.result)
      (exec (.pxcv 7#3 1#8 1#8 [0x26#8]) (testWire [0x07#8, 0x30#8, 0x00#8, 0x01#8, 0x04#8, 0x00#8]))
    = some (some (xcvReturn (.ok [0x04#8] 0#3))) := by decide

/-- `RequestAnswer`: every kind of answer. -/
theorem test_witness_request :
    testView (fun s => s.result) (exec (.pxcv 7#3 2#8 50#8 [0x26#8]) (testLive [.fail .timeout]))
      = some (some (xcvReturn (.fail .timeout))) ∧
    testView (fun s => s.result) (exec (.pxcv 7#3 2#8 50#8 [0x26#8]) (testLive [.ok [0x04#8] 4#3]))
      = some (some (xcvReturn (.ok [0x04#8] 4#3))) ∧
    testView (fun s => s.result) (exec (.pxcv 7#3 2#8 50#8 [0x26#8]) (testLive [.ok [0x04#8, 0x00#8] 1#3]))
      = some (some (xcvReturn (.ok [0x04#8, 0x00#8] 1#3))) ∧
    testView (fun s => s.result) (exec (.pxcv 7#3 2#8 50#8 [0x26#8]) (testLive [.ok [0x04#8, 0x00#8] 0#3]))
      = some (some (xcvReturn (.ok [0x04#8, 0x00#8] 0#3))) := by decide

/-- `AnticollisionAnswer`: every kind of answer. -/
theorem test_witness_anticollision :
    testView (fun s => s.result) (exec (.pxcv 0#3 5#8 50#8 [0x93#8, 0x20#8]) (testLive [.fail .noRoom]))
      = some (some (xcvReturn (.fail .noRoom))) ∧
    testView (fun s => s.result) (exec (.pxcv 0#3 5#8 50#8 [0x93#8, 0x20#8]) (testLive [.ok testId 0#3]))
      = some (some (xcvReturn (.ok testId 0#3))) ∧
    testView (fun s => s.result) (exec (.pxcv 0#3 5#8 50#8 [0x93#8, 0x20#8]) (testLive [.ok (testId ++ [0x21#8]) 0#3]))
      = some (some (xcvReturn (.ok (testId ++ [0x21#8]) 0#3))) ∧
    testView (fun s => s.result) (exec (.pxcv 0#3 5#8 50#8 [0x93#8, 0x20#8]) (testLive [.ok (testId ++ [0x20#8]) 3#3]))
      = some (some (xcvReturn (.ok (testId ++ [0x20#8]) 3#3))) := by decide

/-- `CheckByte`: the first and the last byte, the highest bit. -/
theorem test_witness_check : (testId ++ [0x20#8]).length = 5 ∧ 0 < 5 ∧ 4 < 5 ∧ 0 ≠ 4 ∧ 7 < 8 ∧
    bccOk (testId ++ [0x20#8]) = true := by decide

/-- `LiveTagPoll`: with and without an identifier. -/
theorem test_witness_live : (testLive []).cfg.backend = .live ∧ (testLive []).tag.valid = false ∧
    (testTagged (testLive [])).cfg.backend = .live ∧ (testTagged (testLive [])).tag.valid = true := by decide

/-- `SimulatedStep`: no character; a terminator after three pairs and after four; the 64th character and the 65th. -/
theorem test_witness_sim : testActive.cfg.backend = .sim ∧ (testTagged testActive).tag.valid = true ∧
    testActive.tag.valid = false ∧ testActive.inp.chars = [] ∧
    (testInputs [0x0D#8] 0 testActive).inp.chars = 0x0D#8 :: [] ∧ (testInputs [0x78#8] 0 testActive).inp.chars = 0x78#8 :: [] ∧
    (decodeLine (List.replicate 7 0x30#8)).length < 4 ∧ 4 ≤ (decodeLine (List.replicate 8 0x30#8)).length ∧
    (List.replicate 63 0x78#8).length < 64 ∧ 64 ≤ (List.replicate 64 0x78#8).length := by decide

/-- `LineDecoding`: two lines with the same digits, and a pair in range. -/
theorem test_witness_digits : [0x30#8, 0x3A#8, 0x34#8].filter isHex = [0x30#8, 0x34#8].filter isHex ∧
    0 < ([0x30#8, 0x34#8].filterMap hexval).length / 2 := by decide

/-- `SimulatedLine`: a line of 64 characters with four pairs, read with room for four bytes. -/
theorem test_witness_line :
    let line := List.replicate 8 0x30#8 ++ List.replicate 56 0x2D#8
    let s := testInputs (line ++ 0x0A#8 :: []) 0 testActive
    s.cfg.backend = .sim ∧ s.tag.valid = false ∧ s.sim.line = [] ∧ s.inp.chars = line ++ 0x0A#8 :: [] ∧
    (∀ c ∈ line, isTerm c = false) ∧ isTerm 0x0A#8 = true ∧ line.length ≤ 64 ∧ 4 ≤ (decodeLine line).length ∧
    4 ≤ (4#8).toNat := by decide

/-- `ReadTag`: nothing buffered, no room, and the least room. -/
theorem test_witness_read : testActive.tag.valid = false ∧ (testTagged testActive).tag.valid = true ∧ 1#8 ≠ 0x00#8 := by
  decide

/-- `LoadRecord`: a good record at the top of its ranges, a corrupt one, and an erased one. -/
theorem test_witness_load :
    let c : Config := { testConfig with loadRangeCheck := true }
    let s : State := { testCold with cfg := c, durable := testStore (testRecord 0xA5#8 0x01#8 0x03#8 0x1E#8 0xB9#8) }
    s.recordBytes = [0xA5#8, 0x01#8, 0x03#8, 0x1E#8, 0xB9#8] ∧ 0xA5#8 = s.cfg.magic ∧
    0xB9#8 = 0xA5#8 ^^^ 0x01#8 ^^^ 0x03#8 ^^^ 0x1E#8 ∧ (0x03#8).toNat ≤ 3 ∧ (0x1E#8).toNat ≤ 30 ∧
    ({ testCold with durable := testStore (testRecord 0xFF#8 0xFF#8 0xFF#8 0xFF#8 0xFF#8) } : State).recordBytes
      = [0xFF#8, 0xFF#8, 0xFF#8, 0xFF#8, 0xFF#8] ∧ 0xFF#8 ≠ testCold.cfg.magic := by decide

/-- `SaveRecord`: with and without a record. -/
theorem test_witness_save : testCold.loaded = false ∧
    testTwo.held = some (testRecord 0xA5#8 0x00#8 0x02#8 0x00#8 0xA7#8) := by decide

/-- `RecordRoundTrip`: a corrupt store, a valid one, and a copy in range with the range check on. -/
theorem test_witness_round_trip :
    let s : State := { testTwo with durable := testStore (testRecord 0xA5#8 0x00#8 0x01#8 0x00#8 0xA5#8) }
    let u : State := { testTwo with cfg := { testConfig with loadRangeCheck := true } }
    (Record.ofBytes s.recordBytes).valid s.cfg = false ∧ (Record.ofBytes testTwo.recordBytes).valid testTwo.cfg = true ∧
    u.held = some (testRecord 0xA5#8 0x00#8 0x02#8 0x00#8 0xA7#8) ∧ u.cfg.loadRangeCheck = true ∧
    (testRecord 0xA5#8 0x00#8 0x02#8 0x00#8 0xA7#8).inRange = true := by decide

/-- `ChecksumBlindness`: a valid record, masks that cancel and masks that do not, both inside the ranges, another magic, the
last bit of the last byte. -/
theorem test_witness_checksum :
    let c : Config := { testConfig with loadRangeCheck := true }
    let r := testRecord 0xA5#8 0x00#8 0x01#8 0x00#8 0xA4#8
    r.valid c = true ∧ 0x01#8 ^^^ 0x01#8 ^^^ 0x00#8 ^^^ 0x00#8 = 0x00#8 ∧
    ({ r with lockState := r.lockState ^^^ 0x01#8, wrongAttempts := r.wrongAttempts ^^^ 0x01#8 } : Record).inRange = true ∧
    0x01#8 ^^^ 0x00#8 ^^^ 0x00#8 ^^^ 0x00#8 ≠ 0x00#8 ∧
    ({ r with lockState := r.lockState ^^^ 0x01#8 } : Record).inRange = true ∧
    ({ r with magic := 0x5A#8 } : Record).magic ≠ c.magic ∧ 4 < 5 ∧ 7 < 8 := by decide

/-- `EdgeSetsLatch`: attached and enabled, attached and disabled, not attached. -/
theorem test_witness_edge : (testMoves [.arrive .edge] testActive).moves = .arrive .edge :: [] ∧ testActive.irq.attached = true ∧
    testActive.irq.enabled = true ∧ testCold.irq.attached = false ∧
    ({ testActive with irq := { testActive.irq with enabled := false } } : State).irq.attached = true := by decide

/-- `TakeLatch`, its last clause. -/
theorem test_witness_latch : testActive.irq.pending = false := by decide

/-- `EdgesCoalesce`: two edges. -/
theorem test_witness_coalesce :
    let s := testMoves [.arrive .edge, .arrive .edge] testActive
    s.irq = { attached := true, enabled := true, pending := false } ∧ s.seq.booted = true ∧
    s.held = some (testRecord 0xA5#8 0x00#8 0x00#8 0x00#8 0xA5#8) ∧ 1 ≤ 2 ∧
    s.moves = List.replicate 2 (.arrive .edge) ++ [] := by decide

/-- `EdgeCommutes`: an operation that completes and one that faults. -/
theorem test_witness_commutes : Instr.ssave.ordersEdge = false ∧
    (testView (fun s => s.result) (exec .ssave testActive)).isSome = true ∧
    testFault (exec .ssave testCold) = some .unwritten := by decide

/-- `Boot`. -/
theorem test_witness_boot : testActive.seq.booted = true ∧ testCold.seq.booted = false := by decide

/-- `Evaluate`: the faults, and each clause at its boundary. -/
theorem test_witness_eval : testCold.seq.booted = false ∧
    ({ testActive with loaded := false } : State).seq.booted = true ∧
    testLast.seq.booted = true ∧ testLast.held = some (testRecord 0xA5#8 0x00#8 0x00#8 0x01#8 0xA4#8) ∧
    testActive.held = some (testRecord 0xA5#8 0x00#8 0x00#8 0x00#8 0xA5#8) ∧ testActive.cfg.auth testId = true ∧
    testTwo.held = some (testRecord 0xA5#8 0x00#8 0x02#8 0x00#8 0xA7#8) ∧ testTwo.cfg.auth testStranger = false ∧
    3 ≤ min ((0x02#8).toNat + 1) 3 ∧ min ((0x01#8).toNat + 1) 3 < 3 := by decide

/-- `CountdownSecond`: no countdown, the last second, the longest countdown a byte holds. -/
theorem test_witness_tick : testActive.seq.booted = true ∧
    testActive.held = some (testRecord 0xA5#8 0x00#8 0x00#8 0x00#8 0xA5#8) ∧
    testLast.held = some (testRecord 0xA5#8 0x00#8 0x00#8 0x01#8 0xA4#8) ∧ 0x01#8 ≠ 0x00#8 ∧
    (testWith (testRecord 0xA5#8 0x00#8 0x00#8 0xFF#8 0x5A#8)).held
      = some (testRecord 0xA5#8 0x00#8 0x00#8 0xFF#8 0x5A#8) ∧ 0xFF#8 ≠ 0x00#8 := by decide

/-- `PowerFailCheck`: the latch clear and set. -/
theorem test_witness_pfcheck : testLocked.seq.booted = true ∧
    testLocked.held = some (testRecord 0xA5#8 0x00#8 0x00#8 0x1E#8 0xBB#8) ∧ testLocked.pfl.latch = false ∧
    (testLatched testLocked).pfl.latch = true ∧ testCold.seq.booted = false := by decide

/-- `LoopIsItsSteps`: Active with and without a tag, LockedOut with each handling of tags. -/
theorem test_witness_loop : testActive.seq.booted = true ∧ testActive.loaded = true ∧
    testView (fun s => s.result) (exec .tagavail testActive) = some (some (.bit false)) ∧
    testView (fun s => s.result) (exec .tagavail (testTagged testActive)) = some (some (.bit true)) ∧
    testView (fun s => s.held) (repeatExec .tick 1 testLocked)
      = some (some (testRecord 0xA5#8 0x00#8 0x00#8 0x1D#8 0xB8#8)) ∧ 0x1D#8 ≠ 0x00#8 ∧
    testLocked.cfg.lockoutTags = .readAndDiscard ∧
    ({ testLocked with cfg := { testConfig with lockoutTags := .notRead } } : State).cfg.lockoutTags = .notRead := by decide

/-- `SequencingFaults`, its third clause. -/
theorem test_witness_sequencing : Instr.ssave.needsBoot = false ∧ Instr.ssave ≠ .boot ∧ testActive.loaded = true ∧
    Instr.xwait 0x00#7 0x00#8 1#8 ≠ .boot ∧ (Instr.xwait 0x00#7 0x00#8 1#8).needsBoot = false := by decide

/-- What holds at every moment of every booted test machine with a sealed record. -/
theorem test_always (r : Record) (ms : List Move) (bs : List Byte) (n : Nat) (hr : r.valid testConfig = true) :
    (testMoves ms (testPort bs (testInputs [] n (testWith r)))).Always where
  memory := rfl
  memoryWithin := rfl
  stored := fun _ => hr
  tag := nofun
  tagCap := Nat.zero_le 10
  simCap := Nat.zero_le 64
  simLine := nofun
  irq := ⟨rfl, rfl⟩
  latch := nofun

/-- What holds of it between operations. -/
theorem test_settled (r : Record) (ms : List Move) (bs : List Byte) (n : Nat) (hr : r.valid testConfig = true) :
    (testMoves ms (testPort bs (testInputs [] n (testWith r)))).Settled where
  record := by rintro _ ⟨⟩; exact ⟨hr, rfl⟩
  booted := fun _ => ⟨rfl, rfl, rfl⟩
  notBooted := nofun
  cs := rfl
  hist := rfl

/-- The invariant of every booted test machine with a sealed record. -/
theorem test_inv (r : Record) (ms : List Move) (bs : List Byte) (n : Nat) (hr : r.valid testConfig = true) :
    (testMoves ms (testPort bs (testInputs [] n (testWith r)))).Inv where
  always := test_always r ms bs n hr
  settled := fun _ => test_settled r ms bs n hr
  underway := nofun
  booting := nofun

/-- `LockoutGuarantee`: one second fewer than the countdown has elapsed. -/
theorem test_witness_lockout :
    let r := testRecord 0xA5#8 0x00#8 0x00#8 0x1E#8 0xBB#8
    let s := testMoves [] (testPort [] (testInputs [] 29 (testWith r)))
    s.Inv ∧ s.seq.position = none ∧ s.seq.booted = true ∧ s.held = some r ∧ r.lsr ≠ 0x00#8 ∧ s.inp.ticks < r.lsr.toNat ∧
    (testView (fun s => s.act.hist) (exec .loop s)).isSome = true := by
  refine ⟨test_inv _ _ _ _ (by decide), ?_⟩; decide

/-- `LockoutGuarantee`: the operations other than `LOOP` complete there. -/
theorem test_witness_lockout_completes :
    (testView (fun s => s.act.hist) (exec .pfcheck (testLatched testLocked))).isSome = true ∧
    (testView (fun s => s.act.hist) (exec .tick testLocked)).isSome = true ∧
    (testView (fun s => s.act.hist) (exec .sload testLocked)).isSome = true := by decide

/-- `UnlockOnlyOnMatch`: a command of each kind. -/
theorem test_witness_unlock : testActive.seq.booted = true ∧ testTwo.seq.booted = true ∧
    testView (fun s => s.act.hist) (exec (.eval testId) testActive) = some [.unlock] ∧
    testView (fun s => (s.act.hist, s.tag.bytes.take 10)) (exec .loop (testTagged testActive)) = some ([.unlock], testId) ∧
    testActive.cfg.auth testId = true ∧
    testView (fun s => s.act.hist) (exec (.eval testStranger) testTwo) = some [.lock] := by decide

/-- `MismatchSequence`: two presentations do not reach the limit, three do. -/
theorem test_witness_mismatch : testActive.seq.booted = true ∧
    testActive.held = some (testRecord 0xA5#8 0x00#8 0x00#8 0x00#8 0xA5#8) ∧ (0x00#8).toNat < 3 ∧
    (∀ id ∈ [testStranger, testStranger, testStranger], testActive.cfg.auth id = false) ∧
    (0x00#8).toNat + [testStranger, testStranger].length < 3 ∧
    3 ≤ (0x00#8).toNat + [testStranger, testStranger, testStranger].length ∧
    (testView (fun s => s.held) (evalAll [testStranger, testStranger, testStranger] testActive)).isSome = true := by decide

/-- `FreshDevice`: an erased store. -/
theorem test_witness_fresh :
    let s : State := { testCold with durable := testStore (testRecord 0xFF#8 0xFF#8 0xFF#8 0xFF#8 0xFF#8) }
    s.seq.booted = false ∧ s.cfg.bootDrive = false ∧ (Record.ofBytes s.recordBytes).valid s.cfg = false ∧
    s.cfg.auth testStranger = false := by decide

/-- `EnvironmentMoves`. -/
theorem test_witness_environment : (testMoves [.arrive .second] testCold).moves = .arrive .second :: [] ∧
    (testMoves [.arrive (.char 0x30#8)] testCold).moves = .arrive (.char 0x30#8) :: [] := by decide

/-- `StepKeepsInvariants`: a move that runs a whole operation, which writes the record. -/
theorem test_witness_step_inv :
    let s := testMoves [] (testPort [0x52#8] (testInputs [] 0 (testWith (testRecord 0xA5#8 0x00#8 0x00#8 0x1E#8 0xBB#8))))
    s.Inv ∧ testView (fun t => t.held) (step s) = some (some (testRecord 0xA5#8 0x00#8 0x00#8 0x1D#8 0xB8#8)) := by
  refine ⟨test_inv _ _ _ _ (by decide), ?_⟩; decide

/-- `StepKeepsInvariants`: one step inside an operation. -/
theorem test_witness_step_inside :
    let s : State := { testMoves [.advance] testLocked with
      seq := { booted := true, phase := .running, position := some { instr := .tick, answers := [] } } }
    s.Inv ∧ testView (fun t => t.seq.position) (step s) = some (some { instr := .tick, answers := [.bit true] }) := by
  intro s
  have ha := test_always (testRecord 0xA5#8 0x00#8 0x00#8 0x1E#8 0xBB#8) [.advance] [] 0 (by decide)
  have hs := test_settled (testRecord 0xA5#8 0x00#8 0x00#8 0x1E#8 0xBB#8) [.advance] [] 0 (by decide)
  have hs : s.Settled := ⟨hs.record, hs.booted, hs.notBooted, hs.cs, hs.hist⟩
  refine ⟨⟨⟨ha.1, ha.2, ha.3, ha.4, ha.5, ha.6, ha.7, ha.8, ha.9⟩, fun _ => hs, ?_, nofun⟩, by decide⟩
  rintro _ ⟨⟩
  exact (program_settling testConfig .tick s rfl hs).mono fun _ _ h => h.2

/-- `AccessMatrix`: an operation that writes none of the columns, and a Sim poll. -/
theorem test_witness_access : (Instr.readtag 10#8).mayWriteStorage = false ∧
    (Instr.readtag 10#8).mayWriteLockState = false ∧ (Instr.readtag 10#8).mayWriteCounts = false ∧
    (Instr.ssave).mayWriteTag = false ∧ (Instr.readtag 10#8).mayWriteSim = false ∧ (Instr.readtag 10#8).mayWriteTicks = false ∧
    (Instr.readtag 10#8).mayWriteLatch = false ∧ (Instr.readtag 10#8).mayWriteRst = false ∧
    (Instr.readtag 10#8).leavesLink = true ∧ (Instr.xrst 1#16).makesNoTransfer = true ∧
    Instr.panticoll.onlyExchanges = true ∧ testActive.cfg.level = .a ∧ (Instr.readtag 10#8).mayWriteEngine = false ∧
    (Instr.readtag 10#8).mayCommand = false ∧ Instr.readtag 10#8 ≠ .boot ∧ testActive.cfg.backend = .sim ∧
    (testLive []).cfg.backend = .live ∧ (testView (fun s => s.result) (exec .tagavail testActive)).isSome = true ∧
    (testView (fun s => s.result) (exec .ssave testActive)).isSome = true ∧
    (testView (fun s => s.result) (exec .boot testCold)).isSome = true ∧ testCold.cfg.backend = .sim ∧
    (testView (fun s => s.result) (exec (.xrst 1#16) testActive)).isSome = true ∧
    (testView (fun s => s.result) (exec .panticoll testActive)).isSome = true ∧
    (testView (fun s => s.result) (exec (.readtag 10#8) testActive)).isSome = true := by decide

/-- No loss of power among steps and edges. -/
theorem test_no_loss (n : Nat) (c : List Byte) : Move.powerLoss c ∉ testSteps n := by
  simp [testSteps, List.mem_replicate]

/-- `PowerLoss`, with `test_no_loss`: at once, just before the write of a countdown second, and just after it. -/
theorem test_witness_power_loss :
    let s := fun n => testMoves (testSteps n ++ .powerLoss [] :: []) (testPort [0x52#8] testLocked)
    (∀ n ∈ [0, 7, 8], (s n).moves = testSteps n ++ .powerLoss [] :: [] ∧ (testSteps n).length = n) ∧
    testView (fun u => u.writes) (Host.Core.run Sys2Proof.core 0 (s 0)) = some [] ∧
    testView (fun u => u.writes) (Host.Core.run Sys2Proof.core 7 (s 7)) = some [] ∧
    testView (fun u => u.writes.getLast?) (Host.Core.run Sys2Proof.core 8 (s 8))
      = some (some (0, [0xA5#8, 0x00#8, 0x00#8, 0x1D#8, 0xB8#8])) := by decide

/-- `Resumption`, with `test_no_loss`: inside a countdown second with no write completed, and after the whole of it. -/
theorem test_witness_resumption :
    let r := testRecord 0xA5#8 0x00#8 0x00#8 0x1E#8 0xBB#8
    let s := fun n => testMoves (testSteps n ++ .powerLoss [] :: []) (testPort [0x52#8] (testInputs [] 0 (testWith r)))
    ((s 7).Inv ∧ (s 9).Inv) ∧ (s 7).seq.position = none ∧ (s 7).held = some r ∧ (s 9).held = some r ∧
    testView (fun u => (u.writes.length, u.seq.position.isSome)) (Host.Core.run Sys2Proof.core 7 (s 7)) = some (0, true) ∧
    testView (fun u => (u.writes.length, u.seq.position)) (Host.Core.run Sys2Proof.core 9 (s 9)) = some (1, none) := by
  refine ⟨⟨test_inv _ _ _ _ (by decide), test_inv _ _ _ _ (by decide)⟩, ?_⟩; decide

/-- `LinkFraming`: an operation that may move the reset line and one that may not. -/
theorem test_witness_framing : testActive.link.cs = .deasserted ∧ (Instr.xrst 1#16).mayWriteRst = true ∧
    (Instr.xdelay 1#16).mayWriteRst = false ∧
    (testView (fun s => s.result) (exec (.xdelay 1#16) testActive)).isSome = true := by decide

/-- `EdgeBetweenSteps`: between operations, and inside `LOOP` just before and just after its `LTAKE`. -/
theorem test_witness_edge_between :
    let s := fun p : Option Position => { testActive with seq := { testActive.seq with position := p } }
    let at' := fun as : List Answer => some { instr := Instr.loop, answers := as : Position }
    (∀ as ∈ [[.bit true], [.bit true, .bit true, .bit false]], ∀ p, at' as = some p → p.takesLatch = false) ∧
    ∀ p ∈ [none, at' [.bit true], at' [.bit true, .bit true, .bit false]], ∀ t,
      step { s p with moves := [.advance] } = .next t → t.irq.attached = (s p).irq.attached := by
  refine ⟨by decide, ?_⟩
  simp only [List.mem_cons, List.not_mem_nil, or_false]
  rintro p (rfl | rfl | rfl) t h <;> cases h <;> rfl

/-- `BootingPhase`. -/
theorem test_witness_booting : testCold.seq.position = none ∧ testCold.port.bytes = [] ∧ testCold.seq.booted = false := by
  decide

/-- `AccessedPlaces`: an operation with an address of its own, one that reaches the link by names, one that stores the
record, and a storage that differs from this one beyond the record alone. -/
theorem test_witness_places :
    let m := testStore (defaultRecord 0xA5#8) ++ [(5, 0x77#8)]
    testView (fun s => s.link.hist) (exec (.xwr 0x7F#7 0x01#8) testActive)
      = some [.cs .asserted, .w 0x7F#7 0x01#8, .cs .deasserted] ∧
    testView testBus (exec .panton (testWire [0x83#8])) = some [.r 0x28#7 0x83#8] ∧
    testView (fun s => s.writes.length) (exec .ssave testActive) = some 1 ∧
    m ≠ testCold.durable ∧ (∀ off < Config.recordSize, Memory.read m off = Memory.read testCold.durable off) ∧
    testView (fun s => s.held) (exec .sload { testCold with durable := m }) = some (some (defaultRecord 0xA5#8)) := by
  decide

end Sys2Proof.Machine
end

section
/-! SUPPORT. The access matrix of 10_state.md R44 (O52): its columns are what `Instr.writes` allows the steps of an
operation, so an operation writes no more than the matrix lists. -/

namespace Sys2Proof

open Machine

variable {c : Config} {i : Instr}

/-! ## The columns of the matrix -/

@[simp] theorem Instr.writes_store (c : Config) (i : Instr) : (i.writes c).store = i.mayWriteStorage := by cases i <;> rfl
@[simp] theorem Instr.writes_lock (c : Config) (i : Instr) : (i.writes c).lock = i.mayWriteLockState := by cases i <;> rfl
@[simp] theorem Instr.writes_counts (c : Config) (i : Instr) : (i.writes c).counts = i.mayWriteCounts := by cases i <;> rfl
@[simp] theorem Instr.writes_tag (c : Config) (i : Instr) : (i.writes c).tag = i.mayWriteTag := by cases i <;> rfl
@[simp] theorem Instr.writes_ticks (c : Config) (i : Instr) : (i.writes c).ticks = i.mayWriteTicks := by cases i <;> rfl
@[simp] theorem Instr.writes_latch (c : Config) (i : Instr) : (i.writes c).latch = i.mayWriteLatch := by cases i <;> rfl
@[simp] theorem Instr.writes_act (c : Config) (i : Instr) : (i.writes c).act = i.mayCommand := by cases i <;> rfl
@[simp] theorem Instr.writes_attach (c : Config) (i : Instr) : (i.writes c).attach = decide (i = .boot) := by
  cases i <;> rfl
@[simp] theorem Instr.writes_seq (c : Config) (i : Instr) : (i.writes c).seq = decide (i = .boot) := by cases i <;> rfl

/-- Only the Simulated backend reads the input line. -/
@[simp] theorem Instr.writes_sim (c : Config) (i : Instr) :
    (i.writes c).sim = (i.mayWriteSim && decide (c.backend = .sim)) := by cases i <;> rfl

/-- `BOOT` reaches the reset line with the Live backend alone. -/
@[simp] theorem Instr.writes_rst (c : Config) (i : Instr) :
    (i.writes c).rst = (i.mayWriteRst && (decide (i ≠ .boot) || decide (c.backend = .live))) := by
  cases i <;> rfl

/-- Whether the operation polls the detector, whose backend decides what it reaches. -/
def Instr.pollsTag : Instr → Bool
  | .tagavail | .loop => true
  | _ => false

/-- A poll reaches the engine with the Live backend alone. -/
@[simp] theorem Instr.writes_eng (c : Config) (i : Instr) :
    (i.writes c).eng = (i.mayWriteEngine && (!i.pollsTag || decide (c.backend = .live))) := by
  cases i <;> rfl

theorem Instr.writes_hist_of_leavesLink (h : i.leavesLink = true) : (i.writes c).hist = false := by
  cases i <;> first | rfl | cases h

theorem Instr.writes_cs_of_makesNoTransfer (h : i.makesNoTransfer = true) : (i.writes c).cs = false := by
  cases i <;> first | rfl | cases h

/-- At level A an exchange is no link transfer. -/
theorem Instr.writes_cs_of_onlyExchanges (h : i.onlyExchanges = true) (hl : c.level = .a) : (i.writes c).cs = false := by
  cases i <;> first | (simp [Instr.writes, hl]; done) | cases h

theorem Instr.makesNoTransfer_of_leavesLink (h : i.leavesLink = true) : i.makesNoTransfer = true := by
  cases i <;> first | rfl | cases h

theorem Instr.mayWriteRst_of_leavesLink (h : i.leavesLink = true) : i.mayWriteRst = false := by
  cases i <;> first | rfl | cases h

/-- With the Simulated backend neither `BOOT` nor a poll reaches the link. -/
theorem Instr.writes_link_of_sim (hb : c.backend = .sim) (h : i = .boot ∨ i = .tagavail ∨ i = .loop) :
    (i.writes c).cs = false ∧ (i.writes c).rst = false ∧ (i.writes c).hist = false := by
  rcases h with rfl | rfl | rfl <;> simp [Instr.writes, hb]

end Sys2Proof

namespace Sys2Proof.Machine

variable {w : Writes} {s t : State}

/-! ## Whole units that stay -/

theorem Link.eq_of_fields {a b : Link} (hc : a.cs = b.cs) (hr : a.rst = b.rst) (hh : a.hist = b.hist) : a = b := by
  cases a; cases b; simp_all

theorem Sequencer.eq_of_fields {a b : Sequencer} (hb : a.booted = b.booted) (hf : a.phase = b.phase)
    (hp : a.position = b.position) : a = b := by
  cases a; cases b; simp_all

theorem Kept.link_eq (h : Kept w s t) (hw : w.cs = false ∧ w.rst = false ∧ w.hist = false) : t.link = s.link :=
  Link.eq_of_fields (h.cs hw.1) (h.rst hw.2.1) (h.hist hw.2.2).1

theorem Kept.seq_eq (h : Kept w s t) (hw : w.seq = false) : t.seq = s.seq :=
  Sequencer.eq_of_fields (h.seq hw).1 (h.seq hw).2 h.position

/-- Settles O52, column by column. -/
theorem accessMatrix : Obligations.AccessMatrix := by
  intro i s t ht
  obtain ⟨r, u, -, rfl, hk⟩ := exec_kept ht
  refine ⟨hk.cfg, hk.port, hk.moves, fun h => ?store, fun h => hk.lock (by simpa using h),
    fun h => hk.counts (by simpa using h), fun h => hk.tag (by simpa using h), fun h => ?sim,
    fun h => hk.ticks (by simpa using h), fun h => (hk.latch (by simpa using h)).1, fun h => ?boot, hk.position,
    fun h => hk.rst (by simp [h]), fun h => ?leaves, fun h => hk.cs (Instr.writes_cs_of_makesNoTransfer h),
    fun h hl => hk.cs (Instr.writes_cs_of_onlyExchanges h hl),
    fun hb h => hk.link_eq (Instr.writes_link_of_sim hb (.inl h)), fun h => hk.eng (by simp [h]), fun hb h => ?poll,
    fun h => hk.act (by simpa using h)⟩
  case store =>
    have hw : (i.writes s.cfg).store = false := by simpa using h
    obtain ⟨hr, hd, hws⟩ := hk.store hw
    exact ⟨hr, hk.loaded hw, hd, hws⟩
  case sim => exact hk.sim (by rcases h with h | h <;> simp [h])
  case boot => exact ⟨hk.attach (by simp [h]), hk.seq_eq (by simp [h])⟩
  case leaves =>
    exact hk.link_eq ⟨Instr.writes_cs_of_makesNoTransfer (Instr.makesNoTransfer_of_leavesLink h),
      by simp [Instr.mayWriteRst_of_leavesLink h], Instr.writes_hist_of_leavesLink h⟩
  case poll =>
    have hp : i.pollsTag = true := by rcases h with rfl | rfl <;> rfl
    exact ⟨hk.eng (by simp [hp, hb]), hk.link_eq (Instr.writes_link_of_sim hb (.inr h))⟩

end Sys2Proof.Machine
end

section
/-! SUPPORT. The invariants of 10_state.md R45 (O50, O51): what keeps `State.Inv` between operations and inside one, for each
agent that can move. -/

namespace Sys2Proof.Machine

variable {w : Writes} {s t u : State}

/-! ## What the invariants do not speak of -/

/-- What holds at every moment says nothing of the schedule, the port, the sequencer and the last result. -/
theorem State.Always.reframe (h : s.Always) (ms : List Move) (po : Port) (q : Sequencer) (r : Option OpResult) :
    ({ s with moves := ms, port := po, seq := q, result := r } : State).Always :=
  ⟨h.memory, h.memoryWithin, h.stored, h.tag, h.tagCap, h.simCap, h.simLine, h.irq, h.latch⟩

/-- R45 says nothing of the schedule, the port, the position and the last result. -/
theorem State.Settled.reframe (h : s.Settled) (ms : List Move) (po : Port) (p : Option Position) (r : Option OpResult) :
    ({ s with moves := ms, port := po, seq := { s.seq with position := p }, result := r } : State).Settled :=
  ⟨h.record, h.booted, h.notBooted, h.cs, h.hist⟩

/-- Between operations the phase is `PowerOn` or `Running`. -/
theorem State.Settled.phase_ne_booting (h : s.Settled) : s.seq.phase ≠ .booting := by
  cases hb : s.seq.booted with
  | false => simp [(h.notBooted hb).1]
  | true => simp [(h.booted hb).2.2]

/-- Between operations the invariant is R45 and what holds at every moment. -/
theorem State.Settled.inv (h : s.Settled) (ha : s.Always) (hp : s.seq.position = none) : s.Inv :=
  ⟨ha, fun _ => h, fun p e => by simp [hp] at e, fun e => (h.phase_ne_booting e).elim⟩

/-- What only disturbs keeps the invariant, if it keeps what holds at every moment and leaves the position alone. -/
theorem State.Inv.disturbed (h : s.Inv) (hd : Disturbed s u) (ha : u.Always) (hp : u.seq.position = s.seq.position) :
    u.Inv where
  always := ha
  settled e := (h.settled (hp.symm.trans e)).disturbed hd
  underway p e := by
    rw [hd.cfg]
    exact (h.underway p (hp.symm.trans e)).disturbed hd fun _ _ _ hs => hs.disturbed
  booting e := by
    rw [hp]; exact h.booting (hd.phase.symm.trans e)

/-- The rest of the schedule is nothing to the invariant. -/
theorem State.Inv.withMoves (h : s.Inv) (ms : List Move) : ({ s with moves := ms } : State).Inv :=
  h.disturbed ⟨rfl⟩ (h.always.reframe ms s.port s.seq s.result) rfl

/-! ## The sequencer -/

/-- An operation leads from R45 to R45, whatever arrives on the way. -/
theorem program_ends (i : Instr) (h : s.Settled) :
    (program s.cfg i).Ends State.Always (fun _ => State.Settled) s :=
  (program_settling s.cfg i s rfl h).mono fun _ _ ht => ht.2

/-- Running a program that ends in R45, with no position noted, leads between operations. -/
theorem inv_of_perform {p : Prog OpResult} (he : p.Ends State.Always (fun _ => State.Settled) s) (hw : p.Each (Atom w))
    (ha : s.Always) (hp : s.seq.position = none) (h : perform p s = .next t) : t.Inv := by
  obtain ⟨r, u, hu, rfl⟩ := perform_next h
  obtain ⟨hau, hsu⟩ := he.run ha hu
  exact State.Settled.inv (hsu.reframe u.moves u.port u.seq.position (some r)) (hau.reframe u.moves u.port u.seq (some r))
    ((hw.kept hu).position.trans hp)

/-- The sequencer's move up to the end of an operation keeps the invariant. -/
theorem State.Inv.runSequencer (hi : s.Inv) (h : runSequencer s = .next t) : t.Inv := by
  unfold Machine.runSequencer at h
  split at h
  · next p hp =>
    have he := (hi.underway p hp).disturbed (u := s.idle) ⟨rfl⟩ fun _ _ _ hs => hs.disturbed
    exact inv_of_perform he (remaining_each s.cfg p) (hi.always.reframe s.moves s.port s.idle.seq s.result) rfl h
  · next hp =>
    split at h
    · cases h
    · next x hx =>
      have hs := hi.settled hp
      obtain ⟨i, u⟩ := x
      obtain ⟨hu, -⟩ := fetch_ok hx
      rw [hu, exec_eq_perform] at h
      exact inv_of_perform (program_ends i (hs.reframe s.moves u.port s.seq.position s.result))
        (program_lawful s.cfg i).each (hi.always.reframe s.moves u.port s.seq s.result) hp h

/-- The next step of the operation in progress is one of its atomic steps. -/
theorem atom_of_remaining {c : Config} {p : Position} {act : State → Answer × State} {next : Answer → Prog OpResult}
    (h : remaining c p = .step act next) : Atom (p.instr.writes c) act := by
  have he := remaining_each c p
  rw [h] at he
  exact he.1

/-- One atomic step inside an operation keeps the invariant. -/
theorem State.Inv.atomicStep {p : Position} {act : State → Answer × State} {next : Answer → Prog OpResult} (hi : s.Inv)
    (hp : s.seq.position = some p) (hr : remaining s.cfg p = .step act next) :
    (State.atPosition { p with answers := p.answers ++ [(act s).1] } (act s).2).Inv := by
  have hk := (atom_of_remaining hr).kept s
  have hu := hi.underway p hp
  rw [hr] at hu
  obtain ⟨ha, he⟩ := hu s (.refl s) hi.always
  refine ⟨ha.reframe _ _ _ _, nofun, ?_, fun e => ⟨_, rfl, ?_⟩⟩
  · rintro _ ⟨⟩
    rw [State.atPosition_cfg, hk.cfg, remaining_snoc hr]
    exact he.disturbed ⟨rfl⟩ fun _ _ _ hs => hs.disturbed
  · -- only `BOOT` writes the phase
    by_contra hb
    obtain ⟨q, hq, hqb⟩ := hi.booting ((hk.seq (by simpa using hb)).2.symm.trans e)
    cases hp.symm.trans hq
    exact hb hqb

/-- One step of the sequencer keeps the invariant: issuing an operation, an atomic step, or the return. -/
theorem State.Inv.advance (hi : s.Inv) (h : advance s = .next t) : t.Inv := by
  rcases advance_cases h with ⟨hp, i, u, hf, rfl⟩ | ⟨p, act, next, hp, hr, rfl⟩ | ⟨p, r, hp, hr, rfl⟩
  · have hs := hi.settled hp
    obtain ⟨hu, -⟩ := fetch_ok hf
    have ht := hs.reframe s.moves u.port (some { instr := i, answers := [] }) s.result
    rw [hu]
    refine ⟨hi.always.reframe _ _ _ _, nofun, ?_, fun e => (ht.phase_ne_booting e).elim⟩
    rintro _ ⟨⟩
    exact program_ends i ht
  · exact hi.atomicStep hp hr
  · have hs := hi.underway p hp
    rw [hr] at hs
    exact State.Settled.inv (State.Settled.reframe hs s.moves s.port none (some r)) (hi.always.reframe _ _ _ _) rfl

/-! ## The environment -/

/-- With interrupts enabled an edge sets the latch, if it is attached, and is not held. -/
theorem takeEdge_enabled (h : s.irq.enabled = true) :
    takeEdge s = { s with pfl := { latch := s.pfl.latch || s.irq.attached } } := by
  cases ha : s.irq.attached <;> simp [takeEdge, h, ha]

/-- An arrival keeps what holds at every moment. -/
theorem State.Always.arrive (h : s.Always) (a : Arrival) : (arrive a s).Always := by
  cases a with
  | edge =>
    rw [Machine.arrive, takeEdge_enabled h.irq.1]
    exact ⟨h.memory, h.memoryWithin, h.stored, h.tag, h.tagCap, h.simCap, h.simLine, h.irq,
      fun e => (Bool.or_eq_true_iff.mp e).elim h.latch id⟩
  | second | char => exact h.buffers _ h.tag h.tagCap h.simCap h.simLine

/-- An arrival leaves the step position alone (60_exceptions.md R374). -/
theorem arrive_position (a : Arrival) (s : State) : (arrive a s).seq.position = s.seq.position := by
  cases a with
  | edge => simp only [arrive, takeEdge]; split_ifs <;> rfl
  | second | char => rfl

/-- A power loss leaves storage, which keeps its form, and nothing loaded. -/
theorem State.Always.powerUp_inv (h : s.Always) (chars : List Byte) : (State.powerUp chars s).Inv :=
  State.Settled.inv ⟨nofun, nofun, fun _ => ⟨rfl, rfl⟩, rfl, rfl⟩
    ⟨h.memory, h.memoryWithin, nofun, nofun, Nat.zero_le _, Nat.zero_le _, nofun, ⟨rfl, rfl⟩, nofun⟩ rfl

/-- Whichever agent moves, the step keeps the invariant. -/
theorem State.Inv.step (hi : s.Inv) (h : step s = .next t) : t.Inv := by
  rcases step_cases h with ⟨ms, -, h⟩ | ⟨ms, -, h⟩ | ⟨ms, a, -, rfl⟩ | ⟨ms, chars, -, rfl⟩
  · exact (hi.withMoves ms).runSequencer h
  · exact (hi.withMoves ms).advance h
  · have hm := hi.withMoves ms
    exact hm.disturbed (.arrive a _) (hm.always.arrive a) (arrive_position a _)
  · exact (hi.withMoves ms).always.powerUp_inv chars

/-! ## The statements -/

/-- Settles O50: nothing is loaded, buffered or recorded at reset. -/
theorem resetKeepsInvariants : Obligations.ResetKeepsInvariants :=
  State.Settled.inv ⟨nofun, nofun, fun _ => ⟨rfl, rfl⟩, rfl, rfl⟩
    ⟨rfl, rfl, nofun, nofun, Nat.zero_le _, Nat.zero_le _, nofun, ⟨rfl, rfl⟩, nofun⟩ rfl

/-- Settles O51, agent by agent. -/
theorem stepKeepsInvariants : Obligations.StepKeepsInvariants := fun _ _ => State.Inv.step

end Sys2Proof.Machine
end

section
/-! SUPPORT. Taking an operation one pseudocode step at a time (10_state.md R38; O56, O58), and the environment's own moves
(O48, O49). -/

namespace Sys2Proof.Machine

variable {w : Writes} {s t u : State}

/-! ## One move -/

@[simp] theorem step_advance (s : State) (ms : List Move) :
    step { s with moves := .advance :: ms } = advance { s with moves := ms } := rfl

@[simp] theorem step_sequencer (s : State) (ms : List Move) :
    step { s with moves := .sequencer :: ms } = runSequencer { s with moves := ms } := rfl

/-- One step is one run. -/
theorem run_one (s : State) : Host.Core.run Sys2Proof.core 1 s = step s := by
  simp only [Host.Core.run, Host.Check.core_step]
  cases step s <;> rfl

/-- A run whose first step answers goes on from there. -/
theorem run_advance_of_next {n : Nat} {ms : List Move} (h : advance { s with moves := ms } = .next t) :
    Host.Core.run Sys2Proof.core (n + 1) { s with moves := .advance :: ms } = Host.Core.run Sys2Proof.core n t := by
  simp only [Host.Core.run, Host.Check.core_step, step_advance, h]

/-- What issuing an operation finds does not depend on the schedule. -/
theorem fetch_moves (s : State) (ms : List Move) :
    fetch { s with moves := ms } = (fetch s).map fun x => (x.1, { x.2 with moves := ms }) := by
  simp only [fetch]
  split
  · rfl
  · split <;> rfl

/-- With nothing on the port the sequencer issues its own operation. -/
theorem fetch_own (h : s.port.bytes = []) : fetch s = .ok (ownOperation s, s) := by
  simp only [fetch, h]

theorem advance_issue {i : Instr} (hp : s.seq.position = none) (h : fetch s = .ok (i, u)) :
    advance s = .next (State.atPosition { instr := i, answers := [] } u) := by
  simp only [advance, hp, h]

theorem advance_refused {why : Reject} (hp : s.seq.position = none) (h : fetch s = .error why) :
    advance s = .fault (.refused why) := by
  simp only [advance, hp, h]

theorem runSequencer_refused {why : Reject} (hp : s.seq.position = none) (h : fetch s = .error why) :
    runSequencer s = .fault (.refused why) := by
  simp only [runSequencer, hp, h]

theorem advance_inside {p : Position} (hp : s.seq.position = some p) : advance s = takeStep p s (remaining s.cfg p) := by
  simp only [advance, hp]

theorem advance_atomic {p : Position} {act : State → Answer × State} {next : Answer → Prog OpResult}
    (hp : s.seq.position = some p) (hr : remaining s.cfg p = .step act next) :
    advance s = .next (State.atPosition { p with answers := p.answers ++ [(act s).1] } (act s).2) := by
  rw [advance_inside hp, hr]; rfl

/-- The sequencer's single steps use up no second of the schedule. -/
@[simp] theorem Move.seconds_advances (n : Nat) (ms : List Move) :
    Move.seconds (List.replicate n .advance ++ ms) = Move.seconds ms := by
  induction n with
  | zero => rfl
  | succ n ih => exact ih

/-- An atomic step does the same under another schedule of as many seconds. -/
theorem Atom.withMoves {f : State → Answer × State} (h : Atom w f) (s : State) {ms : List Move}
    (hm : Move.seconds ms = Move.seconds s.moves) : f { s with moves := ms } = ((f s).1, { (f s).2 with moves := ms }) := by
  refine (h.schedule s ms s.seq.position s.result hm).trans ?_
  rw [← (h.kept s).position, ← (h.kept s).result]

/-- An atomic step does the same when no position is noted. -/
theorem Atom.idle {f : State → Answer × State} (h : Atom w f) (s : State) : f s.idle = ((f s).1, (f s).2.idle) := by
  refine (h.schedule s s.moves none s.result rfl).trans ?_
  rw [← (h.kept s).moves, ← (h.kept s).result]
  rfl

/-- One atomic step of a whole operation. -/
theorem perform_step (act : State → Answer × State) (next : Answer → Prog OpResult) (s : State) :
    perform (.step act next) s = perform (next (act s).1) (act s).2 := rfl

/-! ## Many single moves -/

/-- What is left of an operation comes, one step at a time, to what it comes to as a whole. -/
theorem run_advances_eq_perform {q : Prog OpResult} {p : Position} (hr : remaining s.cfg p = q)
    (hp : s.seq.position = some p) :
    ∃ n, Host.Core.run Sys2Proof.core n { s with moves := List.replicate n .advance ++ s.moves } = perform q s.idle := by
  induction q generalizing s p with
  | ret r => exact ⟨1, by rw [run_one]; exact (advance_inside hp).trans (congrArg _ hr)⟩
  | raise f => exact ⟨1, by rw [run_one]; exact (advance_inside hp).trans (congrArg _ hr)⟩
  | step act next ih =>
    have ha := atom_of_remaining hr
    have hk := ha.kept s
    obtain ⟨n, hn⟩ := ih (act s).1 (s := State.atPosition { p with answers := p.answers ++ [(act s).1] } (act s).2)
      (by rw [State.atPosition_cfg, hk.cfg]; exact remaining_snoc hr _) rfl
    refine ⟨n + 1, ?_⟩
    have hstep := advance_atomic (s := { s with moves := List.replicate n .advance ++ s.moves }) hp hr
    rw [ha.withMoves s (Move.seconds_advances n _)] at hstep
    rw [perform_step, ha.idle]
    rw [State.atPosition_moves, hk.moves] at hn
    exact (run_advance_of_next hstep).trans hn

/-- Noting a position and taking the note back. -/
theorem State.idle_atPosition {p : Position} (h : s.seq.position = none) : (State.atPosition p s).idle = s := by
  change { s with seq := { s.seq with position := none } } = s
  rw [← h]

/-- Issuing the next operation, and then taking it step by step. -/
theorem run_issue_eq_exec {i : Instr} (hp : s.seq.position = none) (hf : fetch s = .ok (i, u)) :
    ∃ n, Host.Core.run Sys2Proof.core n { s with moves := List.replicate n .advance ++ s.moves } = exec i u := by
  obtain ⟨n, hn⟩ := run_advances_eq_perform (s := State.atPosition { instr := i, answers := [] } u) rfl rfl
  obtain ⟨hu, -⟩ := fetch_ok hf
  have hm : u.moves = s.moves := by rw [hu]
  have hpu : u.seq.position = none := by rw [hu]; exact hp
  have hissue := advance_issue (s := { s with moves := List.replicate n .advance ++ s.moves }) hp
    ((fetch_moves s _).trans (congrArg _ hf))
  refine ⟨n + 1, (run_advance_of_next hissue).trans ?_⟩
  rw [exec_eq_perform]
  rw [State.idle_atPosition hpu, State.atPosition_moves, hm] at hn
  exact hn

/-- Settles O56: the operation in progress, or the one that the first single step issues, is taken to its end. -/
theorem stepsMakeTheWhole : Obligations.StepsMakeTheWhole := by
  intro s ms
  rw [step_sequencer]
  cases hp : s.seq.position with
  | some p =>
    have hwhole : runSequencer { s with moves := ms } = perform (remaining s.cfg p) ({ s with moves := ms } : State).idle := by
      simp only [runSequencer, hp]
    rw [hwhole]
    exact run_advances_eq_perform (s := { s with moves := ms }) rfl hp
  | none =>
    cases hf : fetch { s with moves := ms } with
    | error why =>
      exact ⟨1, (run_one _).trans ((advance_refused (s := { s with moves := ms }) hp hf).trans
        (runSequencer_refused (s := { s with moves := ms }) hp hf).symm)⟩
    | ok x =>
      have hwhole : runSequencer { s with moves := ms } = exec x.1 x.2 := by simp only [runSequencer, hp, hf]
      rw [hwhole]
      exact run_issue_eq_exec (s := { s with moves := ms }) hp hf

/-! ## From power-on -/

/-- The first step of `BOOT` tests `seq.booted` (46_lockout_policy.md R330). -/
theorem advance_boot_test (hp : s.seq.position = some { instr := .boot, answers := [] }) (hb : s.seq.booted = false) :
    advance s = .next (State.atPosition { instr := .boot, answers := [.bit false] } s) := by
  rw [← hb]; exact (advance_inside hp).trans rfl

/-- The second step of `BOOT` writes the phase. -/
theorem advance_boot_phase (hp : s.seq.position = some { instr := .boot, answers := [.bit false] }) :
    advance s = .next (State.atPosition { instr := .boot, answers := [.bit false, .unit] } (State.setPhase .booting s)) :=
  (advance_inside hp).trans rfl

/-- Settles O58: `BOOT` is issued, tests `seq.booted`, and writes the phase. -/
theorem bootingPhase : Obligations.BootingPhase := by
  intro s ms hp hb hbo
  have hown : ownOperation s = .boot := by simp [ownOperation, hbo]
  have hissue : advance { s with moves := .advance :: .advance :: ms } =
      .next (State.atPosition { instr := ownOperation s, answers := [] } { s with moves := .advance :: .advance :: ms }) :=
    advance_issue hp (fetch_own hb)
  rw [hown] at hissue
  calc _ = _ := run_advance_of_next hissue
    _ = _ := run_advance_of_next (s := State.atPosition { instr := .boot, answers := [] } s) (advance_boot_test rfl hbo)
    _ = _ := run_advance_of_next (s := State.atPosition { instr := .boot, answers := [.bit false] } s)
      (advance_boot_phase rfl)

/-! ## The environment's moves, and the state after reset -/

/-- Settles O49: each move is `arrive`, with its entry taken off the schedule. -/
theorem environmentMoves : Obligations.EnvironmentMoves := by
  intro s c ms
  refine ⟨fun h => ?_, fun h => ?_⟩ <;> simp only [step, h] <;> rfl

/-- Settles O48, field by field of the reset state. -/
theorem resetState : Obligations.ResetState := by
  unfold Obligations.ResetState
  exact ⟨rfl, rfl, rfl, rfl, rfl, rfl, rfl, rfl, rfl, rfl, rfl, rfl, rfl⟩

end Sys2Proof.Machine
end

section
/-! SUPPORT. The power-fail edge before and after what the sequencer does (20_memory.md R74; O37, O57): one atomic step, a
whole operation, and one single step of the sequencer at any position but the one of `LTAKE`. -/

namespace Sys2Proof

open Machine

/-- Only what contains `LTAKE` may write the latch. -/
theorem Instr.mayWriteLatch_of_ordersEdge {i : Instr} (h : i.ordersEdge = false) : i.mayWriteLatch = false := by
  cases i <;> first | rfl | cases h

theorem Instr.ne_boot_of_ordersEdge {i : Instr} (h : i.ordersEdge = false) : i ≠ .boot := by
  rintro rfl; cases h

end Sys2Proof

namespace Sys2Proof.Machine

variable {w : Writes} {s t : State} {α β : Type}

/-! ## What an edge leaves alone -/

/-- An edge sets the latch, or is held, or is lost (R371), and changes nothing else. -/
theorem takeEdge_eq (s : State) : takeEdge s = { s with
    pfl := { latch := s.pfl.latch || (s.irq.attached && s.irq.enabled) }
    irq := { s.irq with pending := s.irq.pending || (s.irq.attached && !s.irq.enabled) } } := by
  obtain ⟨cfg, rc, ld, tag, sim, pfl, ⟨att, en, pend⟩, lk, eng, act, seq, inp, dur, wr, port, mv, dr, res⟩ := s
  cases att <;> cases en <;> simp [takeEdge]

@[simp] theorem takeEdge_cfg (s : State) : (takeEdge s).cfg = s.cfg := by rw [takeEdge_eq]
@[simp] theorem takeEdge_seq (s : State) : (takeEdge s).seq = s.seq := by rw [takeEdge_eq]

theorem takeEdge_withMoves (s : State) (ms : List Move) :
    takeEdge { s with moves := ms } = { takeEdge s with moves := ms } := by rw [takeEdge_eq, takeEdge_eq]

theorem takeEdge_returning (r : OpResult) (s : State) :
    takeEdge (State.returning r s) = State.returning r (takeEdge s) := by rw [takeEdge_eq, takeEdge_eq]; rfl

theorem takeEdge_atPosition (p : Position) (s : State) :
    takeEdge (State.atPosition p s) = State.atPosition p (takeEdge s) := by rw [takeEdge_eq, takeEdge_eq]; rfl

theorem takeEdge_idle (s : State) : takeEdge s.idle = (takeEdge s).idle := by rw [takeEdge_eq, takeEdge_eq]; rfl

/-! ## Whole operations -/

/-- The outcome with the next state changed; a fault stays what it is. -/
def onNext (g : State → State) : Host.Outcome State Fault Refusal → Host.Outcome State Fault Refusal
  | .next t => .next (g t)
  | .fault f => .fault f
  | .refused r => .refused r

@[simp] theorem onNext_next (g : State → State) (t : State) : onNext g (.next t) = .next (g t) := rfl
theorem onNext_onNext (g h : State → State) (o : Host.Outcome State Fault Refusal) :
    onNext h (onNext g o) = onNext (fun t => h (g t)) o := by cases o <;> rfl
@[simp] theorem onNext_fault (g : State → State) (f : Fault) : onNext g (.fault f) = .fault f := rfl

/-- A program that never writes the latch or the attachment takes its course whether the edge falls before it or after. -/
theorem Prog.Each.commutes (hl : w.latch = false) (ha : w.attach = false) {p : Prog α} (hp : p.Each (Atom w)) (s : State) :
    p.run (takeEdge s) = (p.run s).map fun x => (x.1, takeEdge x.2) := by
  induction p generalizing s with
  | ret a => rfl
  | raise f => rfl
  | step act next ih =>
    simp only [Prog.run, Atom.commutes hl ha hp.1 s]
    exact ih _ (hp.2 _) _

/-- Such an operation comes to the same outcome whether the edge falls before it or after. -/
theorem exec_takeEdge {i : Instr} (hi : i.ordersEdge = false) (s : State) :
    exec i (takeEdge s) = onNext takeEdge (exec i s) := by
  have hrun := (program_lawful s.cfg i).each.commutes
    (by simpa using Instr.mayWriteLatch_of_ordersEdge hi) (by simpa using Instr.ne_boot_of_ordersEdge hi) s
  rw [exec_eq_perform, exec_eq_perform, takeEdge_cfg]
  cases hx : (program s.cfg i).run s with
  | ok x =>
    rw [hx] at hrun
    rw [perform_ok hx, perform_ok hrun, onNext_next, takeEdge_returning]
  | error f =>
    rw [hx] at hrun
    rw [perform_error hx, perform_error hrun, onNext_fault]

/-- Settles O37: no step of such an operation writes the latch or the attachment. -/
theorem edgeCommutes : Obligations.EdgeCommutes := by
  intro i s hi
  rw [exec_takeEdge hi]
  exact ⟨fun t h => by rw [h, onNext_next], fun f h => by rw [h, onNext_fault]⟩

/-! ## One atomic step -/

/-- The one step that attaches the edge, apart from those that do not. -/
theorem Atom.attach_or {f : State → Answer × State} (h : Atom w f) :
    f = (fun s => (.unit, State.attach s)) ∨ Atom { w with attach := false } f := by
  cases h with
  | attach ha => exact .inl rfl
  | look g hl hs => exact .inr (.look g hl hs)
  | _ => right; constructor <;> assumption

/-- Attaching an edge that is attached changes nothing. -/
theorem State.attach_of_attached (h : s.irq.attached = true) : State.attach s = s := by
  unfold State.attach; rw [← h]

/-- A step that leaves the latch alone, and the attachment as it is, commutes with the edge. -/
theorem Atom.commutes_of_attached {f : State → Answer × State} (h : Atom w f) (hl : w.latch = false)
    (ha : (f s).2.irq.attached = s.irq.attached) : f (takeEdge s) = ((f s).1, takeEdge (f s).2) := by
  obtain rfl | h := h.attach_or
  · have hs : s.irq.attached = true := ha.symm
    have he : (takeEdge s).irq.attached = true := (Disturbed.arrive .edge s).attached.trans hs
    simp only [State.attach_of_attached hs, State.attach_of_attached he]
  · exact Atom.commutes (w := { w with attach := false }) hl rfl h s

/-! ## Where the step of `LTAKE` stands -/

/-- An atomic step that does not write the latch. -/
def Unlatched (f : State → Answer × State) : Prop := ∃ w : Writes, w.latch = false ∧ Atom w f

theorem Lawful.unlatched {p : Prog α} (h : Lawful w p) (hl : w.latch = false) : p.Each Unlatched :=
  h.each.mono fun _ hf => ⟨w, hl, hf⟩

/-- The only step of the program that may write the latch is the one after `n` others. -/
def Prog.LatchOnlyAt : Prog α → Nat → Prop
  | .ret _, _ => True
  | .raise _, _ => True
  | .step _ next, 0 => ∀ a, (next a).Each Unlatched
  | .step act next, n + 1 => Unlatched act ∧ ∀ a, (next a).LatchOnlyAt n

theorem Prog.Each.latchOnlyAt {p : Prog α} (h : p.Each Unlatched) (n : Nat) : p.LatchOnlyAt n := by
  induction p generalizing n with
  | ret a => trivial
  | raise f => trivial
  | step act next ih =>
    cases n with
    | zero => exact h.2
    | succ n => exact ⟨h.1, fun a => ih a (h.2 a) n⟩

theorem Prog.LatchOnlyAt.bind {n : Nat} {p : Prog α} {k : α → Prog β} (hp : p.LatchOnlyAt n)
    (hk : ∀ a, (k a).Each Unlatched) : (p.bind k).LatchOnlyAt n := by
  induction p generalizing n with
  | ret a => exact (hk a).latchOnlyAt n
  | raise f => trivial
  | step act next ih =>
    cases n with
    | zero => exact fun a => (hp a).bind hk
    | succ n => exact ⟨hp.1, fun a => ih a (hp.2 a)⟩

/-- What follows the test of `seq.booted` stands one step later. -/
theorem Prog.LatchOnlyAt.whenBooted {n : Nat} {p : Prog α} (hp : p.LatchOnlyAt n) :
    (whenBooted p).LatchOnlyAt (n + 1) := by
  refine ⟨((Lawful.testBooted (w := {})).unlatched rfl).1, fun a => ?_⟩
  change (if a.toBit = true then p else .raise .notBooted).LatchOnlyAt n
  split
  · exact hp
  · trivial

theorem Prog.LatchOnlyAt.takeLatch : (Prog.askBit takeLatch).LatchOnlyAt 0 := fun _ => trivial

theorem Prog.LatchOnlyAt.checkPowerFail (c : Config) : (checkPowerFail c).LatchOnlyAt 1 :=
  .whenBooted (Prog.LatchOnlyAt.takeLatch.bind fun _ =>
    (Lawful.andThen (.ite (Lawful.persist (w := { store := true }) rfl c) (.ret _)) (.ret _)).unlatched rfl)

/-- The poll of the detector at the end of `LOOP`, and what it leads to. -/
theorem Lawful.pollTag {c : Config} (hd : c.backend = .live → (c.level = .b → w.cs = true) ∧ w.hist = true ∧ w.eng = true)
    (hsim : c.backend = .sim → w.sim = true)
    (h : w.store = true ∧ w.lock = true ∧ w.counts = true ∧ w.act = true ∧ w.tag = true) : Lawful w (pollTag c) := by
  obtain ⟨hs, hl, hc, ha, ht⟩ := h
  have hacq : Lawful w (acquire c) :=
    (Lawful.tagAvailable hd ht hsim).bind fun _ => .ite ((Lawful.readTag ht _).bind fun id =>
      .ite ((Lawful.evaluate hs hl hc ha c id).bind fun _ => .ret _) (.ret _)) (.ret _)
  exact Lawful.heldRecord.bind fun _ => .ite hacq (.discardTag hd ht hsim)

/-- What `LOOP` may write after the power-fail check: everything it may write but the latch. -/
def afterLatch : Writes :=
  { store := true, lock := true, counts := true, act := true, tag := true, sim := true, cs := true, hist := true
    eng := true, ticks := true }

/-- After the power-fail check `LOOP` does not write the latch again. -/
theorem Prog.LatchOnlyAt.controlLoop (c : Config) : (controlLoop c).LatchOnlyAt 2 := by
  refine .whenBooted ((Prog.LatchOnlyAt.checkPowerFail c).bind fun _ => ?_)
  have hcount : Lawful afterLatch (Prog.askCount State.secondsAhead) :=
    .ask (.look (fun s => .count (State.secondsAhead s).1) (fun _ _ _ => rfl)
      fun s ms p r h => by simp only [State.secondsAhead, h]) fun _ => rfl
  have hpoll : Lawful afterLatch (pollTag c) :=
    .pollTag (fun _ => ⟨fun _ => rfl, rfl, rfl⟩) (fun _ => rfl) ⟨rfl, rfl, rfl, rfl, rfl⟩
  exact (hcount.bind fun n => (Lawful.drainTicks rfl rfl rfl c n).andThen hpoll).unlatched rfl

/-- Away from that step, the next step of what is left does not write the latch. -/
theorem Prog.LatchOnlyAt.unlatched_of_resume {n : Nat} {as : List Answer} {p : Prog α} {act : State → Answer × State}
    {next : Answer → Prog α} (hp : p.LatchOnlyAt n) (hn : as.length ≠ n) (h : Prog.resume as p = .step act next) :
    Unlatched act := by
  induction as generalizing n p with
  | nil =>
    cases h
    cases n with
    | zero => exact (hn rfl).elim
    | succ n => exact hp.1
  | cons a as ih =>
    cases p with
    | ret x => cases h
    | raise f => cases h
    | step act' next' =>
      cases n with
      | zero =>
        have he := (hp a).resume as
        rw [show Prog.resume as (next' a) = .step act next from h] at he
        exact he.1
      | succ n => exact ih (hp.2 a) (by simpa using hn) h

/-- Where `LTAKE`'s step is not the next one, the next one does not write the latch. -/
theorem unlatched_of_remaining {c : Config} {p : Position} {act : State → Answer × State} {next : Answer → Prog OpResult}
    (hp : p.takesLatch = false) (h : remaining c p = .step act next) : Unlatched act := by
  by_cases hl : p.instr.mayWriteLatch = false
  · exact ⟨_, by simpa using hl, atom_of_remaining h⟩
  have hret : ∀ r : OpResult, (Prog.ret r).Each Unlatched := fun _ => trivial
  obtain ⟨i, as⟩ := p
  cases i with
  | ltake =>
    exact (Prog.LatchOnlyAt.takeLatch.bind fun _ => hret _).unlatched_of_resume
      (by simpa [Position.takesLatch] using hp) h
  | pfcheck =>
    exact ((Prog.LatchOnlyAt.checkPowerFail c).bind fun _ => hret _).unlatched_of_resume
      (by simpa [Position.takesLatch] using hp) h
  | loop =>
    exact ((Prog.LatchOnlyAt.controlLoop c).bind fun _ => hret _).unlatched_of_resume
      (by simpa [Position.takesLatch] using hp) h
  | _ => exact (hl rfl).elim

/-! ## One single step of the sequencer -/

/-- What issuing an operation finds does not depend on the edge. -/
theorem fetch_takeEdge (s : State) : fetch (takeEdge s) = (fetch s).map fun x => (x.1, takeEdge x.2) := by
  simp only [takeEdge_eq, fetch]
  split
  · rfl
  · split <;> rfl

/-- A change of the state that issuing, an atomic step and the return do not see may come after the single step as well as
before it. -/
theorem advance_onNext {g : State → State} (hc : (g s).cfg = s.cfg) (hq : (g s).seq.position = s.seq.position)
    (hfetch : fetch (g s) = (fetch s).map fun x => (x.1, g x.2))
    (hat : ∀ p t, g (State.atPosition p t) = State.atPosition p (g t))
    (hret : ∀ r t, g (State.returning r t.idle) = State.returning r (g t).idle)
    (hact : ∀ p act next, s.seq.position = some p → remaining s.cfg p = .step act next →
      act (g s) = ((act s).1, g (act s).2)) : advance (g s) = onNext g (advance s) := by
  cases hp : s.seq.position with
  | none =>
    cases hf : fetch s with
    | error why =>
      rw [advance_refused hp hf, advance_refused (hq.trans hp) (by rw [hfetch, hf]; rfl), onNext_fault]
    | ok x => rw [advance_issue hp hf, advance_issue (hq.trans hp) (by rw [hfetch, hf]; rfl), onNext_next, hat]
  | some p =>
    rw [advance_inside hp, advance_inside (hq.trans hp), hc]
    cases hr : remaining s.cfg p with
    | ret r => exact congrArg _ (hret r s).symm
    | raise f => rfl
    | step act next =>
      simp only [takeStep, hact p act next hp hr, onNext_next, hat]

/-- The single step of the sequencer comes to the same outcome whether the edge falls before it or after, if it is not that
of `LTAKE` and does not attach the edge. -/
theorem advance_takeEdge (hlatch : ∀ p, s.seq.position = some p → p.takesLatch = false)
    (hatt : ∀ t, advance s = .next t → t.irq.attached = s.irq.attached) :
    advance (takeEdge s) = onNext takeEdge (advance s) := by
  refine advance_onNext (takeEdge_cfg s) (by rw [takeEdge_seq]) (fetch_takeEdge s) takeEdge_atPosition
    (fun r t => by rw [takeEdge_returning, takeEdge_idle]) fun p act next hp hr => ?_
  obtain ⟨w, hw, ha⟩ := unlatched_of_remaining (hlatch p hp) hr
  have hs := hatt _ (advance_atomic hp hr)
  rw [State.atPosition_irq] at hs
  exact ha.commutes_of_attached hw hs

/-- The single step of the sequencer sees nothing of the schedule but the seconds it holds. -/
theorem advance_withMoves {ms : List Move} (hm : Move.seconds ms = Move.seconds s.moves) :
    advance { s with moves := ms } = onNext (fun t => { t with moves := ms }) (advance s) :=
  advance_onNext (g := fun t => { t with moves := ms }) rfl rfl (fetch_moves s ms) (fun _ _ => rfl) (fun _ _ => rfl)
    fun _ _ _ _ hr => (atom_of_remaining hr).withMoves s hm

/-- The sequencer's single step leaves the rest of the schedule. -/
theorem advance_moves (h : advance s = .next t) : t.moves = s.moves := by
  rcases advance_cases h with ⟨-, i, u, hf, rfl⟩ | ⟨p, act, next, -, hr, rfl⟩ | ⟨p, r, -, -, rfl⟩
  · rw [State.atPosition_moves, (fetch_ok hf).1]
  · exact ((atom_of_remaining hr).kept s).moves
  · rfl

/-- A run whose first step answers goes on from there, whichever agent moves. -/
theorem run_of_next {n : Nat} (h : step s = .next t) :
    Host.Core.run Sys2Proof.core (n + 1) s = Host.Core.run Sys2Proof.core n t := by
  simp only [Host.Core.run, Host.Check.core_step, h]

/-- An edge before the single step. -/
theorem run_edge_advance (s : State) (ms : List Move) :
    Host.Core.run Sys2Proof.core 2 { s with moves := .arrive .edge :: .advance :: ms } =
      advance (takeEdge { s with moves := ms }) := by
  have hedge : step { s with moves := .arrive .edge :: .advance :: ms } = .next { takeEdge s with moves := .advance :: ms } :=
    congrArg _ (takeEdge_withMoves s _)
  exact (run_of_next hedge).trans ((run_one _).trans (by rw [step_advance, takeEdge_withMoves s ms]))

/-- An edge after the single step. -/
theorem run_advance_edge (s : State) (ms : List Move) :
    Host.Core.run Sys2Proof.core 2 { s with moves := .advance :: .arrive .edge :: ms } =
      onNext (fun t => takeEdge { t with moves := ms }) (advance { s with moves := .arrive .edge :: ms }) := by
  simp only [Host.Core.run, Host.Check.core_step, step_advance]
  cases h : advance { s with moves := .arrive .edge :: ms } with
  | next t => simp only [step, advance_moves h]; rfl
  | fault f => rfl
  | refused r => rfl

/-- Settles O57: the single step sees neither the edge nor the edge's entry on the schedule. -/
theorem edgeBetweenSteps : Obligations.EdgeBetweenSteps := by
  intro s ms hlatch hatt
  have hedge : advance (takeEdge { s with moves := ms }) = _ := advance_takeEdge (s := { s with moves := ms }) hlatch hatt
  have hmoves : advance { s with moves := ms } = _ := advance_withMoves (s := { s with moves := .arrive .edge :: ms }) rfl
  rw [run_edge_advance, run_advance_edge, hedge, hmoves, onNext_onNext]

end Sys2Proof.Machine
end

section
/-! SUPPORT. The places an operation reaches (20_memory.md R61, R63; O59): the addresses of its transfers, and the five bytes
of the record. `Inside` says it of one step, `Confined` of every step of a program. -/

namespace Sys2Proof.Machine

/-! ## The record's bytes alone -/

/-- Two storages that read alike at the offsets of the record. -/
def Memory.AgreeOnRecord (m n : Memory) : Prop := ∀ off < Config.recordSize, Memory.read m off = Memory.read n off

theorem Memory.readBytes_congr {m n : Memory} {off k : Nat}
    (h : ∀ a, off ≤ a → a < off + k → Memory.read m a = Memory.read n a) :
    Memory.readBytes m off k = Memory.readBytes n off k := by
  induction k generalizing off with
  | zero => rfl
  | succ k ih =>
    rw [Memory.readBytes, Memory.readBytes, h off le_rfl (by omega), ih fun a _ _ => h a (by omega) (by omega)]

/-- Where two storages read alike they do so after the same write. -/
theorem Memory.read_writeBytes_congr (bs : List Byte) {m n : Memory} (off : Nat) {a : Nat}
    (h : Memory.read m a = Memory.read n a) :
    Memory.read (Memory.writeBytes off bs m) a = Memory.read (Memory.writeBytes off bs n) a := by
  induction bs generalizing m n off with
  | nil => exact h
  | cons b bs ih => exact ih _ (by rw [Memory.read_write, Memory.read_write, h])

/-- A read of the record sees no other byte. -/
theorem State.recordBytes_congr {s : State} {m : Memory} (h : Memory.AgreeOnRecord m s.durable) :
    ({ s with durable := m } : State).recordBytes = s.recordBytes :=
  Memory.readBytes_congr fun a _ ha => h a (by simpa [Config.recordOffset] using ha)

/-! ## One step -/

variable {A : Addr → Prop} {α β : Type} {c : Config}

/-- The step makes its transfers at the addresses of `A`, and what it finds and does depends on no stored byte but the
record's. -/
structure Inside (A : Addr → Prop) (f : State → Answer × State) : Prop where
  reaches : ∀ s, ∃ h, (f s).2.link.hist = s.link.hist ++ h ∧ ∀ e ∈ h, ∀ a, e.address = some a → A a
  record : ∀ s m, Memory.AgreeOnRecord m s.durable → ∃ n,
    f { s with durable := m } = ((f s).1, { (f s).2 with durable := n }) ∧ Memory.AgreeOnRecord n (f s).2.durable

/-- The step neither sees nor changes storage. -/
def Apart (f : State → Answer × State) : Prop :=
  ∀ s m, f { s with durable := m } = ((f s).1, { (f s).2 with durable := m })

theorem Apart.record {f : State → Answer × State} (h : Apart f) (s : State) (m : Memory)
    (hm : Memory.AgreeOnRecord m s.durable) : ∃ n,
      f { s with durable := m } = ((f s).1, { (f s).2 with durable := n }) ∧ Memory.AgreeOnRecord n (f s).2.durable := by
  have hd : (f s).2.durable = s.durable := congrArg (fun x => x.2.durable) (h s s.durable)
  exact ⟨m, h s m, by rwa [hd]⟩

/-- A step that leaves the link history alone. -/
theorem Inside.still {f : State → Answer × State} (hf : Apart f) (hl : ∀ s, (f s).2.link.hist = s.link.hist) : Inside A f :=
  ⟨fun s => ⟨[], by rw [hl, List.append_nil], nofun⟩, hf.record⟩

/-- A step that records one event. -/
theorem Inside.event {f : State → Answer × State} (hf : Apart f) (e : State → LinkEvent)
    (hl : ∀ s, (f s).2.link.hist = s.link.hist ++ [e s]) (he : ∀ s a, (e s).address = some a → A a) : Inside A f :=
  ⟨fun s => ⟨[e s], hl s, fun _ hx a ha => he s a (by rwa [List.mem_singleton.mp hx] at ha)⟩, hf.record⟩

/-- A step that records one event that is no transfer. -/
theorem Inside.line {f : State → Answer × State} (hf : Apart f) (e : State → LinkEvent)
    (hl : ∀ s, (f s).2.link.hist = s.link.hist ++ [e s]) (he : ∀ s, (e s).address = none) : Inside A f :=
  .event hf e hl fun s a ha => by rw [he s] at ha; cases ha

/-- A step that looks at nothing stored beyond the record. -/
theorem Inside.look {g : State → Answer} (hg : ∀ s m, Memory.AgreeOnRecord m s.durable → g { s with durable := m } = g s) :
    Inside A (fun s => (g s, s)) :=
  ⟨fun s => ⟨[], (List.append_nil _).symm, nofun⟩, fun s m hm => ⟨m, by rw [hg s m hm], hm⟩⟩

/-- A step that writes bytes. -/
theorem Inside.memWrite (off : Nat) (b : State → List Byte) (hb : ∀ s m, b { s with durable := m } = b s) :
    Inside A (fun s => (.unit, State.memWrite off (b s) s)) :=
  ⟨fun s => ⟨[], (List.append_nil _).symm, nofun⟩, fun s m hm => ⟨Memory.writeBytes off (b s) m, by rw [hb]; rfl,
    fun a ha => Memory.read_writeBytes_congr (b s) off (hm a ha)⟩⟩

/-! ## Programs -/

/-- Every step of the program is inside. -/
def Confined (A : Addr → Prop) (p : Prog α) : Prop := p.Each (Inside A)

theorem Confined.ret (a : α) : Confined A (.ret a) := trivial
theorem Confined.raise (f : Fault) : Confined A (.raise f : Prog α) := trivial

theorem Confined.bind {p : Prog α} {k : α → Prog β} (hp : Confined A p) (hk : ∀ a, Confined A (k a)) :
    Confined A (p.bind k) := Prog.Each.bind hp hk

theorem Confined.andThen {p : Prog Unit} {q : Prog β} (hp : Confined A p) (hq : Confined A q) : Confined A (p.andThen q) :=
  hp.bind fun _ => hq

theorem Confined.ite {d : Prop} [Decidable d] {p q : Prog α} (hp : Confined A p) (hq : Confined A q) :
    Confined A (if d then p else q) := by
  split
  · exact hp
  · exact hq

/-- A change of the state that touches neither storage nor the link history. -/
theorem Confined.tell (f : State → State)
    (hf : ∀ s m, f { s with durable := m } = { f s with durable := m } := by intros; rfl)
    (hl : ∀ s, (f s).link.hist = s.link.hist := by intros; rfl) : Confined A (.tell f) :=
  ⟨.still (fun s m => congrArg _ (hf s m)) hl, fun _ => trivial⟩

theorem Confined.ask {put : α → Answer} {get : Answer → α} {f : State → α × State}
    (h : Inside A (fun s => (put (f s).1, (f s).2))) : Confined A (.ask put get f) := ⟨h, fun _ => trivial⟩

theorem Confined.look {put : α → Answer} {get : Answer → α} {g : State → α}
    (hg : ∀ s m, Memory.AgreeOnRecord m s.durable → g { s with durable := m } = g s) :
    Confined A (.ask put get fun s => (g s, s)) :=
  .ask (.look fun s m hm => congrArg put (hg s m hm))

/-- Run on a storage that agrees on the record, a confined program takes the same course. -/
theorem Confined.run_agree {p : Prog α} (hp : Confined A p) {s t : State} {a : α} {m : Memory}
    (hm : Memory.AgreeOnRecord m s.durable) (h : p.run s = .ok (a, t)) :
    ∃ n, p.run { s with durable := m } = .ok (a, { t with durable := n }) ∧ Memory.AgreeOnRecord n t.durable := by
  induction p generalizing s m with
  | ret b => cases h; exact ⟨m, rfl, hm⟩
  | raise f => cases h
  | step act next ih =>
    obtain ⟨k, hk, hka⟩ := hp.1.record s m hm
    rw [Prog.run, hk]
    exact ih _ (hp.2 _) hka h

/-- From `s` to `t` the link history grew by transfers at the addresses of `A`, and other events. -/
def ReachedOnly (A : Addr → Prop) (s t : State) : Prop :=
  ∃ h, t.link.hist = s.link.hist ++ h ∧ ∀ e ∈ h, ∀ a, e.address = some a → A a

theorem ReachedOnly.trans {s t u : State} (h : ReachedOnly A s t) (k : ReachedOnly A t u) : ReachedOnly A s u := by
  obtain ⟨x, hx, ax⟩ := h
  obtain ⟨y, hy, ay⟩ := k
  exact ⟨x ++ y, by rw [hy, hx, List.append_assoc], fun e he => (List.mem_append.mp he).elim (ax e) (ay e)⟩

theorem Confined.run_reaches {p : Prog α} (hp : Confined A p) {s t : State} {a : α} (h : p.run s = .ok (a, t)) :
    ReachedOnly A s t :=
  (hp.mono fun _ hf => hf.reaches).run (fun _ => ⟨[], (List.append_nil _).symm, nofun⟩) (fun _ _ _ => .trans) h

/-- Atomic steps write no byte beyond the record. -/
theorem Atom.beyond {w : Writes} {f : State → Answer × State} (h : Atom w f) (s : State) {off : Nat}
    (ho : Config.recordSize ≤ off) : Memory.read (f s).2.durable off = Memory.read s.durable off := by
  rcases h.written s with ⟨hd, -⟩ | ⟨r, hd, -⟩
  · rw [hd]
  · rw [hd, Memory.read_writeBytes_other _ _ _ _ (.inr (by rwa [Record.length_bytes, Config.recordOffset, Nat.zero_add]))]

theorem Prog.Each.beyond {w : Writes} {p : Prog α} (hp : p.Each (Atom w)) {s t : State} {a : α} (h : p.run s = .ok (a, t))
    {off : Nat} (ho : Config.recordSize ≤ off) : Memory.read t.durable off = Memory.read s.durable off :=
  (hp.mono fun _ hf s => hf.beyond s ho).run (R := fun s t => Memory.read t.durable off = Memory.read s.durable off)
    (fun _ => rfl) (fun _ _ _ h k => k.trans h) h

/-! ## The link -/

theorem Confined.driveCs (l : Line) : Confined A (.tell (State.driveCs l)) :=
  ⟨.line (fun _ _ => rfl) (fun _ => .cs l) (fun _ => rfl) fun _ => rfl, fun _ => trivial⟩

theorem Confined.driveRst (l : Line) : Confined A (.tell (State.driveRst l)) :=
  ⟨.line (fun _ _ => rfl) (fun _ => .rst l) (fun _ => rfl) fun _ => rfl, fun _ => trivial⟩

theorem Confined.emit (e : LinkEvent) (he : ∀ a, e.address = some a → A a) : Confined A (.tell (State.emit e)) :=
  ⟨.event (fun _ _ => rfl) (fun _ => e) (fun _ => rfl) fun _ => he, fun _ => trivial⟩

theorem Confined.claimLink {body : Prog α} (hb : Confined A body) : Confined A (claimLink body) :=
  (Confined.driveCs _).andThen (hb.bind fun _ => (Confined.driveCs _).andThen (.ret _))

theorem Confined.linkWrite {a : Addr} (ha : A a) (d : Byte) : Confined A (linkWrite a d) :=
  .claimLink (.emit _ (by rintro _ ⟨⟩; exact ha))

theorem Confined.claimedRead {a : Addr} (ha : A a) (v : Byte) : Confined A (Machine.claimLink (.tell (State.emit (.r a v)))) :=
  .claimLink (.emit _ (by rintro _ ⟨⟩; exact ha))

theorem Confined.linkRead {a : Addr} (ha : A a) : Confined A (linkRead a) :=
  .claimLink (.ask (.event (fun _ _ => rfl) (fun s => .r a s.draws.byte.1) (fun _ => rfl) (by rintro _ _ ⟨⟩; exact ha)))

theorem Confined.settleDelay (t : Millis) : Confined A (settleDelay t) :=
  ⟨.line (fun _ _ => rfl) (fun _ => .delay t) (fun _ => rfl) fun _ => rfl, fun _ => trivial⟩

theorem Confined.resetPulse (t : Millis) : Confined A (resetPulse t) :=
  (Confined.driveRst _).andThen ((Confined.settleDelay t).andThen (.driveRst _))

theorem Confined.setBits {a : Addr} (ha : A a) (m : Byte) : Confined A (setBits a m) :=
  (Confined.linkRead ha).bind fun _ => .ite (.ret ()) (.linkWrite ha _)

theorem Confined.clearBits {a : Addr} (ha : A a) (m : Byte) : Confined A (clearBits a m) :=
  (Confined.linkRead ha).bind fun _ => .linkWrite ha _

theorem Confined.pollFlag {a : Addr} (ha : A a) (m : Byte) (n : Nat) : Confined A (pollFlag a m n) := by
  induction n with
  | zero => exact (Confined.linkRead ha).bind fun _ => .ret _
  | succ n ih => exact (Confined.linkRead ha).bind fun _ => .ite (.ret _) ih

theorem Confined.setLast (r : ResultCode) : Confined A (.tell (State.setLast r)) := .tell _

theorem Confined.waitFlag {a : Addr} (ha : A a) (m : Byte) : Confined A (waitFlag a m) :=
  (Confined.ask (.still (fun _ _ => rfl) fun _ => rfl)).bind fun _ => (Confined.pollFlag ha m _).bind fun _ =>
    (Confined.setLast _).andThen (.ret _)

theorem Confined.writeAll {a : Addr} (ha : A a) (bs : List Byte) : Confined A (writeAll a bs) := by
  induction bs with
  | nil => exact .ret ()
  | cons b bs ih => exact (Confined.linkWrite ha b).andThen ih

theorem Confined.readAll {a : Addr} (ha : A a) (n : Nat) : Confined A (readAll a n) := by
  induction n with
  | zero => exact .ret []
  | succ n ih => exact (Confined.linkRead ha).bind fun _ => ih.bind fun _ => .ret _

/-! ## The engine, which names its registers (30_encoding.md R112, R119) -/

theorem Confined.antennaOn (hn : ∀ r, A (c.regs.addr r)) : Confined A (antennaOn c) := .setBits (hn _) _

theorem Confined.writeTable {m : RegMap} (hn : ∀ r, A (m.addr r)) (ps : List (ReaderReg × Byte)) :
    Confined A (writeTable m ps) := by
  induction ps with
  | nil => exact .ret ()
  | cons p ps ih => exact (Confined.linkWrite (hn p.1) p.2).andThen ih

theorem Confined.initReader (hn : ∀ r, A (c.regs.addr r)) : Confined A (initReader c) :=
  (Confined.resetPulse _).andThen ((Confined.linkWrite (hn .command) _).andThen ((Confined.settleDelay _).andThen
    ((Confined.writeTable hn _).andThen (.antennaOn hn))))

theorem Confined.runSeqStep (hn : ∀ r, A (c.regs.addr r)) (x : Exchange) (g : Gathered) (st : SeqStep) :
    Confined A (runSeqStep c x g st) := by
  cases st with
  | write r d => exact (Confined.linkWrite (hn r) _).andThen (.ret _)
  | load r => exact (Confined.writeAll (hn r) _).andThen (.ret _)
  | frame r shift => exact (Confined.linkWrite (hn r) _).andThen (.ret _)
  | setBits r m => exact (Confined.setBits (hn r) _).andThen (.ret _)
  | clearBits r m => exact (Confined.clearBits (hn r) _).andThen (.ret _)
  | wait r m => exact (Confined.waitFlag (hn r) _).bind fun _ => .ret _
  | check r m => exact (Confined.linkRead (hn r)).bind fun _ => .ret _
  | count r m => exact (Confined.linkRead (hn r)).bind fun _ => .ret _
  | collect r => exact (Confined.readAll (hn r) _).bind fun _ => .ret _
  | readByte r => exact (Confined.linkRead (hn r)).bind fun _ => .ret _
  | lastBits r shift => exact (Confined.linkRead (hn r)).bind fun _ => .ret _

theorem Confined.runSequence (hn : ∀ r, A (c.regs.addr r)) (x : Exchange) (sts : List SeqStep) (g : Gathered) :
    Confined A (runSequence c x sts g) := by
  induction sts generalizing g with
  | nil => exact .ret _
  | cons st sts ih =>
    exact (Confined.runSeqStep hn x g st).bind fun r => by
      cases r with
      | error why => exact .ret _
      | ok g => exact ih g

theorem Confined.transceive (hn : ∀ r, A (c.regs.addr r)) (tx : List Byte) (lb : BitVec 3) (cap t : Byte) :
    Confined A (transceive c tx lb cap t) := by
  unfold Machine.transceive
  refine Confined.bind ?_ fun _ => (Confined.setLast _).andThen (.ret _)
  split
  · exact .ask (.line (fun _ _ => rfl) (fun s => .xcv tx lb cap t (capResult cap s.draws.xcv.1)) (fun _ => rfl) fun _ => rfl)
  · exact (Confined.runSequence hn _ _ _).bind fun _ => .ret _

theorem Confined.computeCrc (hn : ∀ r, A (c.regs.addr r)) (data : List Byte) : Confined A (computeCrc c data) := by
  unfold Machine.computeCrc
  refine Confined.bind ?_ fun _ => (Confined.setLast _).andThen (.ret _)
  split
  · exact .ask (.line (fun _ _ => rfl) (fun s => .crc data s.draws.crc.1) (fun _ => rfl) fun _ => rfl)
  · exact (Confined.runSequence hn _ _ _).bind fun _ => .ret _

theorem Confined.checked {p : Prog XcvResult} (hp : Confined A p) (check : XcvResult → Except ResultCode (List Byte)) :
    Confined A (checked p check) :=
  hp.bind fun _ => (Confined.setLast _).andThen (.ret _)

theorem Confined.requestA (hn : ∀ r, A (c.regs.addr r)) : Confined A (requestA c) := .checked (.transceive hn _ _ _ _) _
theorem Confined.anticollide (hn : ∀ r, A (c.regs.addr r)) : Confined A (anticollide c) :=
  .checked (.transceive hn _ _ _ _) _

/-! ## The detector -/

theorem Confined.testTag : Confined A (.askBit State.testTag) := .look (g := fun s => s.tag.valid) fun _ _ _ => rfl

theorem Confined.setTagValid (b : Bool) : Confined A (.tell (State.setTagValid b)) := .tell _

theorem Confined.bufferTag (bs : List Byte) : Confined A (bufferTag bs) :=
  (Confined.tell (State.fillTag bs)).andThen (.setTagValid true)

theorem Confined.tagAvailLive (hn : ∀ r, A (c.regs.addr r)) : Confined A (tagAvailLive c) :=
  Confined.testTag.bind fun _ => .ite (.ret _) ((Confined.requestA hn).bind fun r => by
    cases r with
    | error => exact .ret _
    | ok =>
      refine (Confined.anticollide hn).bind fun r => ?_
      cases r with
      | error => exact .ret _
      | ok uid => exact (Confined.bufferTag uid).andThen (.ret _))

theorem Confined.completeLine : Confined A completeLine :=
  (Confined.look (g := fun s => decodeLine s.sim.line) fun _ _ _ => rfl).bind fun _ =>
    (Confined.tell (State.setLine [])).andThen (.ite (.ret _) (.bufferTag _))

theorem Confined.popChar : Confined A popChar :=
  .ask (.still (fun s m => by cases h : s.inp.chars <;> simp [State.takeChar, h]) fun s => by rw [takeChar_link])

theorem Confined.accumulate (ch : Byte) : Confined A (.tell (State.accumulate ch)) :=
  .tell _ (fun s m => by simp only [State.accumulate]; split <;> rfl) fun s => by rw [accumulate_link]

theorem Confined.tagAvailSim : Confined A tagAvailSim :=
  Confined.testTag.bind fun _ => .ite (.ret _) (Confined.popChar.bind fun cs => by
    cases cs with
    | nil => exact .ret _
    | cons ch cs => exact Confined.andThen (.ite .completeLine (.accumulate ch)) .testTag)

theorem Confined.tagAvailable (hn : ∀ r, A (c.regs.addr r)) : Confined A (tagAvailable c) := by
  unfold Machine.tagAvailable
  split
  · exact .tagAvailLive hn
  · exact .tagAvailSim

theorem Confined.readTag (n : Nat) : Confined A (readTag n) :=
  Confined.testTag.bind fun _ => .ite (.ret _) ((Confined.look (g := fun s => s.tag.bytes.take n) fun _ _ _ => rfl).bind
    fun _ => (Confined.setTagValid false).andThen (.ret _))

/-! ## The record -/

/-- A load sees the five bytes of the record, and writes them or nothing (44_state_record.md R274). -/
theorem Confined.loadRecord : Confined A (loadRecord c) :=
  (Confined.look (g := State.recordBytes) fun _ _ hm => State.recordBytes_congr hm).bind fun _ => .ite
    ((Confined.tell (State.loadCopy _)).andThen (.ret _))
    (Confined.andThen ⟨.memWrite _ (fun _ => (defaultRecord c.magic).bytes) fun _ _ => rfl, fun _ => trivial⟩
      ((Confined.tell (State.loadCopy _)).andThen (.ret _)))

theorem Confined.heldRecord : Confined A heldRecord :=
  (Confined.look (g := State.held) fun _ _ _ => rfl).bind fun r => by
    cases r with
    | none => exact .raise _
    | some r => exact .ret r

theorem Confined.editRecord (f : Record → Record) : Confined A (.tell (State.editRecord f)) := .tell _

/-- A save writes the five bytes of the record (R276). -/
theorem Confined.persist : Confined A (persist c) :=
  Confined.heldRecord.bind fun _ => (Confined.editRecord _).andThen ((Confined.editRecord _).andThen
    ⟨.memWrite _ (fun s => s.record.bytes) fun _ _ => rfl, fun _ => trivial⟩)

theorem Confined.takeLatch : Confined A (.askBit takeLatch) :=
  .ask (.still (fun s m => by simp only [takeLatch_snd, takeLatch_fst]) fun s => by rw [takeLatch_snd])

/-! ## The policy -/

theorem Confined.testBooted : Confined A (.askBit State.testBooted) :=
  .look (g := fun s => s.seq.booted) fun _ _ _ => rfl

theorem Confined.whenBooted {p : Prog α} (hp : Confined A p) : Confined A (whenBooted p) :=
  Confined.testBooted.bind fun _ => .ite hp (.raise _)

theorem Confined.command (a : ActCommand) : Confined A (.tell (State.command a)) := .tell _

theorem Confined.mismatch (r : Record) : Confined A (mismatch c r) :=
  .ite ((Confined.editRecord _).andThen ((Confined.editRecord _).andThen ((Confined.editRecord _).andThen
      ((Confined.command _).andThen (Confined.persist.andThen (.ret _))))))
    ((Confined.editRecord _).andThen (Confined.persist.andThen (.ret _)))

theorem Confined.evaluate (id : List Byte) : Confined A (evaluate c id) :=
  .whenBooted (Confined.heldRecord.bind fun r => .ite (.ret _) (.ite
    ((Confined.editRecord _).andThen ((Confined.editRecord _).andThen ((Confined.command _).andThen
      (Confined.persist.andThen (.ret _)))))
    (.mismatch r)))

theorem Confined.tickSecond : Confined A (tickSecond c) :=
  .whenBooted (Confined.heldRecord.bind fun _ => .ite (.ret _) ((Confined.editRecord _).andThen
    (Confined.andThen (.ite (.editRecord _) (.ret _)) .persist)))

theorem Confined.checkPowerFail : Confined A (checkPowerFail c) :=
  .whenBooted (Confined.takeLatch.bind fun _ => Confined.andThen (.ite .persist (.ret _)) (.ret _))

theorem Confined.drainTicks (n : Nat) : Confined A (drainTicks c n) := by
  induction n with
  | zero => exact .ret _
  | succ n ih =>
    exact (Confined.look (g := fun s => decide (0 < s.inp.ticks)) fun _ _ _ => rfl).bind fun _ =>
      .ite ((Confined.tell State.takeSecond).andThen (Confined.tickSecond.andThen ih)) (.ret _)

theorem Confined.acquire (hn : ∀ r, A (c.regs.addr r)) : Confined A (acquire c) :=
  (Confined.tagAvailable hn).bind fun _ => .ite ((Confined.readTag _).bind fun id =>
    .ite ((Confined.evaluate id).bind fun _ => .ret _) (.ret _)) (.ret _)

theorem Confined.discardTag (hn : ∀ r, A (c.regs.addr r)) : Confined A (discardTag c) := by
  unfold Machine.discardTag
  split
  · exact (Confined.tagAvailable hn).bind fun _ => .ite ((Confined.readTag _).bind fun _ => .ret _) (.ret _)
  · exact .ret _

theorem Confined.controlLoop (hn : ∀ r, A (c.regs.addr r)) : Confined A (controlLoop c) :=
  .whenBooted (Confined.checkPowerFail.bind fun _ =>
    (Confined.look (g := fun s => (State.secondsAhead s).1) fun _ _ _ => rfl).bind fun n =>
      (Confined.drainTicks n).andThen (Confined.heldRecord.bind fun _ => .ite (.acquire hn) (.discardTag hn)))

theorem Confined.bootDrive : Confined A (bootDrive c) :=
  .ite (Confined.heldRecord.bind fun r => .command r.decision) (.ret ())

theorem Confined.bootUp (hn : ∀ r, A (c.regs.addr r)) : Confined A (bootUp c) := by
  refine Confined.testBooted.bind fun _ => .ite (.raise _) ((Confined.tell (State.setPhase _)).andThen
    (Confined.loadRecord.bind fun _ => (Confined.tell State.attach).andThen (Confined.bootDrive.andThen
      (Confined.andThen ?reader ((Confined.tell State.setBooted).andThen (.tell (State.setPhase _)))))))
  case reader =>
    split
    · exact .initReader hn
    · exact .ret ()

end Sys2Proof.Machine

namespace Sys2Proof

open Machine

/-- The addresses the transfers of an operation may be at: its own operand, or, for an operation that has none, those of
the named registers (20_memory.md R63). -/
def Instr.mayReach (c : Config) (i : Instr) (a : Addr) : Prop :=
  i.address = some a ∨ (i.address = none ∧ ∃ r, a = c.regs.addr r)

end Sys2Proof

namespace Sys2Proof.Machine

/-! ## Every operation -/

/-- The pseudocode of every operation is confined to its own address, or to the named registers. -/
theorem program_confined (c : Config) (i : Instr) : Confined (i.mayReach c) (program c i) := by
  have hn {j : Instr} (hj : j.address = none) (r : ReaderReg) : j.mayReach c (c.regs.addr r) := .inr ⟨hj, r, rfl⟩
  cases i with
  | xwr a d => exact (Confined.linkWrite (.inl rfl) d).andThen (.ret _)
  | xrd a => exact (Confined.linkRead (.inl rfl)).bind fun _ => .ret _
  | xsetb a m => exact (Confined.setBits (.inl rfl) m).andThen (.ret _)
  | xclrb a m => exact (Confined.clearBits (.inl rfl) m).andThen (.ret _)
  | xwait a m t => exact (Confined.waitFlag (.inl rfl) m).bind fun _ => .ret _
  | xdelay t => exact (Confined.settleDelay t).andThen (.ret _)
  | xrst t => exact (Confined.resetPulse t).andThen (.ret _)
  | pinit => exact (Confined.initReader (hn rfl)).andThen (.ret _)
  | panton => exact (Confined.antennaOn (hn rfl)).andThen (.ret _)
  | pxcv lb cap t tx => exact (Confined.transceive (hn rfl) tx lb cap t).bind fun _ => .ret _
  | preqa => exact (Confined.requestA (hn rfl)).bind fun _ => .ret _
  | panticoll => exact (Confined.anticollide (hn rfl)).bind fun _ => .ret _
  | pcrc data => exact (Confined.computeCrc (hn rfl) data).bind fun _ => .ret _
  | tagavail => exact (Confined.tagAvailable (hn rfl)).bind fun _ => .ret _
  | readtag n => exact (Confined.readTag n.toNat).bind fun _ => .ret _
  | sload => exact Confined.loadRecord.bind fun _ => .ret _
  | ssave => exact Confined.persist.andThen (.ret _)
  | ltake => exact Confined.takeLatch.bind fun _ => .ret _
  | boot => exact (Confined.bootUp (hn rfl)).andThen (.ret _)
  | eval id => exact (Confined.evaluate id).bind fun _ => .ret _
  | tick => exact Confined.tickSecond.andThen (.ret _)
  | pfcheck => exact Confined.checkPowerFail.bind fun _ => .ret _
  | loop => exact (Confined.controlLoop (hn rfl)).andThen (.ret _)
  | linkWrite a d => exact (Confined.linkWrite (.inl rfl) d).andThen (.ret _)
  | linkRead a v => exact (Confined.claimedRead (.inl rfl) v).andThen (.ret _)
  | reqa => exact (Confined.transceive (hn rfl) _ _ _ _).bind fun _ => .ret _
  | anticollCl1 => exact (Confined.transceive (hn rfl) _ _ _ _).bind fun _ => .ret _
  | pcdIdle => exact (Confined.linkWrite (hn rfl .command) _).andThen (.ret _)
  | pcdCalcCrc => exact (Confined.linkWrite (hn rfl .command) _).andThen (.ret _)
  | pcdTransceive => exact (Confined.linkWrite (hn rfl .command) _).andThen (.ret _)
  | pcdSoftReset => exact (Confined.linkWrite (hn rfl .command) _).andThen (.ret _)

/-- Settles O59: every step of the operation is inside, and none writes beyond the record. -/
theorem accessedPlaces : Obligations.AccessedPlaces := by
  intro i s t ht
  rw [exec_eq_perform] at ht
  obtain ⟨r, u, hu, rfl⟩ := perform_next ht
  have hc := program_confined s.cfg i
  have hreach : ReachedOnly (i.mayReach s.cfg) s u := hc.run_reaches hu
  refine ⟨hreach, fun off ho => (program_lawful s.cfg i).each.beyond hu ho, fun m hm => ?_⟩
  obtain ⟨n, hrun, hn⟩ := hc.run_agree hm hu
  refine ⟨n, ?_, hn⟩
  rw [exec_eq_perform]
  exact perform_ok hrun

end Sys2Proof.Machine
end

section
/-! SUPPORT. The bytes of an encoding (30_encoding.md R101, R121 to R123; O6, O7): addresses, delays, counts and
opcodes, each assembly of bytes and its inverse. -/

namespace Sys2Proof

/-! ## Address bytes -/

/-- Bit 7 of a byte weighs 128. -/
theorem getLsbD_seven (x : Byte) : x.getLsbD 7 = decide (0x80 ≤ x.toNat) := BitVec.msb_eq_decide x

@[simp] theorem byteOfAddr_toNat (a : Addr) : (byteOfAddr a).toNat = a.toNat := by
  simp only [byteOfAddr, BitVec.toNat_setWidth]; omega

@[simp] theorem addrOfByte_toNat (x : Byte) : (addrOfByte x).toNat = x.toNat % 128 := by
  simp only [addrOfByte, BitVec.toNat_setWidth, Nat.reducePow]

@[simp] theorem readAddressByte_toNat (a : Addr) : (0x80#8 ||| byteOfAddr a).toNat = 128 + a.toNat := by
  rw [BitVec.toNat_or, byteOfAddr_toNat]
  exact (Nat.two_pow_add_eq_or_of_lt (i := 7) a.isLt 1).symm

/-- The bytes with bit 7 clear are the address bytes of write transfers (R101). -/
theorem eq_byteOfAddr_iff {x : Byte} {a : Addr} : x = byteOfAddr a ↔ x.getLsbD 7 = false ∧ addrOfByte x = a := by
  have := a.isLt
  simp only [← BitVec.toNat_inj, getLsbD_seven, byteOfAddr_toNat, addrOfByte_toNat, decide_eq_false_iff_not]
  omega

/-- The bytes with bit 7 set are the address bytes of read transfers (R101). -/
theorem eq_readAddressByte_iff {x : Byte} {a : Addr} :
    x = 0x80#8 ||| byteOfAddr a ↔ x.getLsbD 7 = true ∧ addrOfByte x = a := by
  have := a.isLt
  simp only [← BitVec.toNat_inj, getLsbD_seven, readAddressByte_toNat, addrOfByte_toNat, decide_eq_true_eq]
  omega

@[simp] theorem byteOfAddr_bit7 (a : Addr) : (byteOfAddr a)[7] = false := (eq_byteOfAddr_iff.mp rfl).1
@[simp] theorem addrOfByte_byteOfAddr (a : Addr) : addrOfByte (byteOfAddr a) = a := (eq_byteOfAddr_iff.mp rfl).2

@[simp] theorem readAddressByte_bit7 (a : Addr) : (0x80#8 ||| byteOfAddr a)[7] = true :=
  (eq_readAddressByte_iff.mp rfl).1

@[simp] theorem addrOfByte_readAddressByte (a : Addr) : addrOfByte (0x80#8 ||| byteOfAddr a) = a :=
  (eq_readAddressByte_iff.mp rfl).2

theorem byteOfAddr_addrOfByte {x : Byte} (h : x.getLsbD 7 = false) : byteOfAddr (addrOfByte x) = x :=
  (eq_byteOfAddr_iff.mpr ⟨h, rfl⟩).symm

/-! ## Delays, counts and shifts -/

/-- A delay is its low byte plus 256 times its high byte (R122). -/
theorem millisOfBytes_toNat (tl th : Byte) : (millisOfBytes tl th).toNat = tl.toNat + 256 * th.toNat := by
  have hl := tl.isLt
  have hh := th.isLt
  have hor : 2 ^ 8 * th.toNat + tl.toNat = 2 ^ 8 * th.toNat ||| tl.toNat := Nat.two_pow_add_eq_or_of_lt hl _
  have hlow : tl.toNat % 2 ^ 16 = tl.toNat := by omega
  have hhigh : th.toNat % 2 ^ 16 * 2 ^ 8 % 2 ^ 16 = 2 ^ 8 * th.toNat := by omega
  simp only [millisOfBytes, BitVec.toNat_or, BitVec.toNat_shiftLeft, BitVec.toNat_setWidth, Nat.shiftLeft_eq,
    hlow, hhigh]
  rw [Nat.or_comm]
  omega

/-- Two bytes are those of a delay exactly when they assemble to it. -/
theorem bytes_eq_bytesOfMillis_iff {tl th : Byte} {t : Millis} :
    [tl, th] = bytesOfMillis t ↔ millisOfBytes tl th = t := by
  have := t.isLt
  have := tl.isLt
  have := th.isLt
  simp only [bytesOfMillis, List.cons.injEq, and_true, ← BitVec.toNat_inj, millisOfBytes_toNat, BitVec.toNat_setWidth,
    BitVec.toNat_ushiftRight, Nat.shiftRight_eq_div_pow]
  omega

theorem countByte_toNat {bs : List Byte} (h : bs.length < 256) : (countByte bs).toNat = bs.length := by
  simp only [countByte, BitVec.toNat_ofNat]; omega

/-- The count byte of the first `n` bytes of a stream that has as many. -/
theorem countByte_take {n : Byte} {bs : List Byte} (h : n.toNat ≤ bs.length) : countByte (bs.take n.toNat) = n := by
  rw [countByte, List.length_take_of_le h, BitVec.ofNat_toNat, BitVec.setWidth_eq]

/-- A byte below 8 loses nothing in 3 bits. -/
theorem setWidth_shift_of_lt {x : Byte} (h : x.toNat < 8) : ((x.setWidth 3 : BitVec 3).setWidth 8 : Byte) = x := by
  simp only [← BitVec.toNat_inj, BitVec.toNat_setWidth]; omega

/-! ## Opcodes -/

/-- Every opcode stands in `Opcode.all`, which has one entry for each byte. -/
@[simp] theorem Opcode.ofByte_byte (o : Opcode) : Opcode.ofByte o.byte = some o := by cases o <;> decide

/-- A byte is the opcode of at most one operation (R123). -/
theorem Opcode.ofByte_eq_some_iff {b : Byte} {o : Opcode} : Opcode.ofByte b = some o ↔ b = o.byte := by
  refine ⟨fun h => ?_, fun h => h ▸ o.ofByte_byte⟩
  have hfound := List.find?_some h
  exact (of_decide_eq_true hfound).symm

/-- The ranges of the map of R123: the bytes outside them are reserved (R124). -/
theorem Opcode.byte_ranges (o : Opcode) :
    (0x10 ≤ o.byte.toNat ∧ o.byte.toNat ≤ 0x16) ∨ (0x20 ≤ o.byte.toNat ∧ o.byte.toNat ≤ 0x27) ∨
      (0x30 ≤ o.byte.toNat ∧ o.byte.toNat ≤ 0x31) ∨ o.byte.toNat = 0x40 ∨
      (0x50 ≤ o.byte.toNat ∧ o.byte.toNat ≤ 0x54) := by
  cases o <;> decide

/-- The reserved opcodes of R124 belong to no operation. -/
theorem Opcode.ofByte_reserved {b : Byte}
    (h : b.toNat ≤ 0x0F ∨ (0x17 ≤ b.toNat ∧ b.toNat ≤ 0x1F) ∨ (0x28 ≤ b.toNat ∧ b.toNat ≤ 0x2F) ∨
      (0x32 ≤ b.toNat ∧ b.toNat ≤ 0x3F) ∨ (0x41 ≤ b.toNat ∧ b.toNat ≤ 0x4F) ∨ 0x55 ≤ b.toNat) :
    Opcode.ofByte b = none := by
  refine Option.eq_none_iff_forall_ne_some.mpr fun o ho => ?_
  obtain rfl := Opcode.ofByte_eq_some_iff.mp ho
  have := o.byte_ranges
  omega

/-! ## The statements -/

/-- Settles O6: both address bytes are characterised by their bit 7 and their bits 6:0. -/
theorem addressByte : Obligations.AddressByte := fun a _ =>
  ⟨rfl, byteOfAddr_bit7 a, addrOfByte_byteOfAddr a, fun _ => rfl, readAddressByte_bit7 a, addrOfByte_readAddressByte a,
    fun _ => eq_byteOfAddr_iff⟩

/-- Settles O7, with the delay the decoder assembles. -/
theorem delayOperand : Obligations.DelayOperand := fun _ tl th _ =>
  ⟨millisOfBytes tl th, millisOfBytes_toNat tl th, rfl, rfl⟩

end Sys2Proof
end

section
/-! SUPPORT. The decoder (30_encoding.md R120 to R125; O1, O2, O4): what each format accepts, each operation's operands, and
the four encoding spaces, each as the inverse of `encode`. -/

namespace Sys2Proof

variable {op fifoCap : Byte} {bs rest : List Byte} {i : Instr}

/-! ## What each format accepts (R121, R122) -/

theorem decodeFA_ok_iff {mk : Addr → Instr} :
    decodeFA op mk bs = .ok (i, rest) ↔ ∃ a, i = mk a ∧ bs = byteOfAddr a :: rest := by
  constructor
  · fun_cases decodeFA op mk bs with
    | case2 x rest' hx => rintro ⟨⟩; exact ⟨_, rfl, by rw [byteOfAddr_addrOfByte (by simpa using hx)]⟩
    | _ => nofun
  · rintro ⟨a, rfl, rfl⟩; simp [decodeFA]

theorem decodeFAD_ok_iff {mk : Addr → Byte → Instr} :
    decodeFAD op mk bs = .ok (i, rest) ↔ ∃ a d, i = mk a d ∧ bs = byteOfAddr a :: d :: rest := by
  constructor
  · fun_cases decodeFAD op mk bs with
    | case2 x d rest' hx => rintro ⟨⟩; exact ⟨_, _, rfl, by rw [byteOfAddr_addrOfByte (by simpa using hx)]⟩
    | _ => nofun
  · rintro ⟨a, d, rfl, rfl⟩; simp [decodeFAD]

theorem decodeFAMT_ok_iff {mk : Addr → Byte → Byte → Instr} : decodeFAMT op mk bs = .ok (i, rest) ↔
    ∃ a m t, t ≠ 0#8 ∧ i = mk a m t ∧ bs = byteOfAddr a :: m :: t :: rest := by
  constructor
  · fun_cases decodeFAMT op mk bs with
    | case3 x m t rest' hx ht => rintro ⟨⟩; exact ⟨_, _, _, ht, rfl, by rw [byteOfAddr_addrOfByte (by simpa using hx)]⟩
    | _ => nofun
  · rintro ⟨a, m, t, ht, rfl, rfl⟩; simp [decodeFAMT, ht]

theorem decodeFT16_ok_iff {mk : Millis → Instr} :
    decodeFT16 op mk bs = .ok (i, rest) ↔ ∃ t, i = mk t ∧ bs = bytesOfMillis t ++ rest := by
  constructor
  · fun_cases decodeFT16 op mk bs with
    | case1 tl th rest' => rintro ⟨⟩; exact ⟨_, rfl, by rw [← bytes_eq_bytesOfMillis_iff.mpr rfl]; rfl⟩
    | _ => nofun
  · rintro ⟨t, rfl, rfl⟩
    have ht := bytes_eq_bytesOfMillis_iff.mp (show [_, _] = bytesOfMillis t from rfl)
    simp only [bytesOfMillis, List.cons_append, List.nil_append, decodeFT16, ht]

theorem decodeFL_ok_iff {mk : Byte → Instr} : decodeFL op mk bs = .ok (i, rest) ↔ ∃ n, i = mk n ∧ bs = n :: rest := by
  constructor
  · fun_cases decodeFL op mk bs with
    | case1 n rest' => rintro ⟨⟩; exact ⟨_, rfl, rfl⟩
    | _ => nofun
  · rintro ⟨n, rfl, rfl⟩; rfl

/-- A counted list is cut where its count says, if the count byte can hold its bound. -/
theorem decodeFN_ok_iff {cap : Nat} (hcap : cap < 256) {mk : List Byte → Instr} :
    decodeFN op cap mk bs = .ok (i, rest) ↔ ∃ data, data.length ≤ cap ∧ i = mk data ∧ bs = countByte data :: (data ++ rest) := by
  constructor
  · fun_cases decodeFN op cap mk bs with
    | case3 n rest' hlen hn =>
      rintro ⟨⟩
      have hlen := Nat.le_of_not_lt hlen
      refine ⟨_, ?_, rfl, ?_⟩
      · rw [List.length_take_of_le hlen]; omega
      · rw [countByte_take hlen, List.take_append_drop]
    | _ => nofun
  · rintro ⟨data, hd, rfl, rfl⟩
    have hn := countByte_toNat (show data.length < 256 by omega)
    simp [decodeFN, hn, hd]

theorem decodeFX_ok_iff {cap : Nat} (hcap : cap < 256) {mk : BitVec 3 → Byte → Byte → List Byte → Instr} :
    decodeFX op cap mk bs = .ok (i, rest) ↔ ∃ lb c t tx,
      (1 ≤ tx.length ∧ tx.length ≤ cap ∧ 1 ≤ c.toNat ∧ c.toNat ≤ cap ∧ t ≠ 0#8) ∧ i = mk lb c t tx ∧
      bs = countByte tx :: lb.setWidth 8 :: c :: t :: 0x00#8 :: (tx ++ rest) := by
  constructor
  · fun_cases decodeFX op cap mk bs with
    | case7 n lb c t z rest' hlen hn hlb hc ht hz =>
      rintro ⟨⟩
      have hlen := Nat.le_of_not_lt hlen
      refine ⟨_, _, _, _, ?_, rfl, ?_⟩
      · rw [List.length_take_of_le hlen]
        exact ⟨by omega, by omega, by omega, by omega, ht⟩
      · rw [countByte_take hlen, setWidth_shift_of_lt (by omega), List.take_append_drop, not_not.mp hz]
    | _ => nofun
  · rintro ⟨lb, c, t, tx, ⟨hpos, hle, hc, hc', ht⟩, rfl, rfl⟩
    have hn := countByte_toNat (show tx.length < 256 by omega)
    have hlb : (lb.setWidth 8 : Byte).toNat < 8 := by rw [BitVec.toNat_setWidth]; omega
    have hlen : ¬ (tx ++ rest).length < tx.length := by rw [List.length_append]; omega
    rw [decodeFX, hn, if_neg hlen, if_neg (by omega), if_neg (by omega), if_neg (by omega), if_neg ht,
      if_neg (not_not.mpr rfl)]
    simp

/-! ## The operands of each operation -/

/-- The operation an instruction of the operation port begins with (R123). -/
def Instr.opcode : Instr → Option Opcode
  | .xwr _ _ => some .xwr
  | .xrd _ => some .xrd
  | .xsetb _ _ => some .xsetb
  | .xclrb _ _ => some .xclrb
  | .xwait _ _ _ => some .xwait
  | .xdelay _ => some .xdelay
  | .xrst _ => some .xrst
  | .pinit => some .pinit
  | .panton => some .panton
  | .pxcv _ _ _ _ => some .pxcv
  | .preqa => some .preqa
  | .panticoll => some .panticoll
  | .pcrc _ => some .pcrc
  | .tagavail => some .tagavail
  | .readtag _ => some .readtag
  | .sload => some .sload
  | .ssave => some .ssave
  | .ltake => some .ltake
  | .boot => some .boot
  | .eval _ => some .eval
  | .tick => some .tick
  | .pfcheck => some .pfcheck
  | .loop => some .loop
  | .linkWrite _ _ | .linkRead _ _ | .reqa | .anticollCl1 => none
  | .pcdIdle | .pcdCalcCrc | .pcdTransceive | .pcdSoftReset => none

/-- The operation port holds the instructions that have an opcode. -/
theorem Instr.space_eq_operation_iff : i.space = .operation ↔ ∃ o, i.opcode = some o := by
  cases i <;> simp [Instr.space, Instr.opcode]

/-- An operation's encoding begins with its opcode. -/
theorem encode_eq_cons {o : Opcode} (h : i.opcode = some o) : encode i = o.byte :: (encode i).tail := by
  cases i <;> cases h <;> rfl

theorem encode_ne_nil (i : Instr) : encode i ≠ [] := by cases i <;> exact List.cons_ne_nil _ _

/-- What the operands of an operation decode to is well formed, and they are its encoding. -/
theorem decodeOperands_sound {o : Opcode} (h : decodeOperands fifoCap o bs = .ok (i, rest)) :
    i.wellFormed fifoCap = true ∧ i.opcode = some o ∧ bs = (encode i).tail ++ rest := by
  cases o with
  | xrd =>
    obtain ⟨a, rfl, rfl⟩ := decodeFA_ok_iff.mp h
    exact ⟨rfl, rfl, rfl⟩
  | xwr | xsetb | xclrb =>
    obtain ⟨a, d, rfl, rfl⟩ := decodeFAD_ok_iff.mp h
    exact ⟨rfl, rfl, rfl⟩
  | xwait =>
    obtain ⟨a, m, t, ht, rfl, rfl⟩ := decodeFAMT_ok_iff.mp h
    exact ⟨bne_iff_ne.mpr ht, rfl, rfl⟩
  | xdelay | xrst =>
    obtain ⟨t, rfl, rfl⟩ := decodeFT16_ok_iff.mp h
    exact ⟨rfl, rfl, rfl⟩
  | readtag =>
    obtain ⟨n, rfl, rfl⟩ := decodeFL_ok_iff.mp h
    exact ⟨rfl, rfl, rfl⟩
  | pcrc =>
    obtain ⟨data, hd, rfl, rfl⟩ := (decodeFN_ok_iff fifoCap.isLt).mp h
    exact ⟨decide_eq_true hd, rfl, rfl⟩
  | eval =>
    obtain ⟨id, hd, rfl, rfl⟩ := (decodeFN_ok_iff (by decide)).mp h
    exact ⟨decide_eq_true hd, rfl, rfl⟩
  | pxcv =>
    obtain ⟨lb, c, t, tx, hw, rfl, rfl⟩ := (decodeFX_ok_iff fifoCap.isLt).mp h
    exact ⟨decide_eq_true hw, rfl, rfl⟩
  | _ => cases h; exact ⟨rfl, rfl, rfl⟩

/-- The operands of a well-formed operation decode to it. -/
theorem decodeOperands_complete {o : Opcode} (ho : i.opcode = some o) (hw : i.wellFormed fifoCap = true)
    (hbs : bs = (encode i).tail ++ rest) : decodeOperands fifoCap o bs = .ok (i, rest) := by
  cases i with
  | xrd a => cases ho; exact decodeFA_ok_iff.mpr ⟨a, rfl, hbs⟩
  | xwr a d | xsetb a d | xclrb a d => cases ho; exact decodeFAD_ok_iff.mpr ⟨a, d, rfl, hbs⟩
  | xwait a m t => cases ho; exact decodeFAMT_ok_iff.mpr ⟨a, m, t, bne_iff_ne.mp hw, rfl, hbs⟩
  | xdelay t | xrst t => cases ho; exact decodeFT16_ok_iff.mpr ⟨t, rfl, hbs⟩
  | readtag n => cases ho; exact decodeFL_ok_iff.mpr ⟨n, rfl, hbs⟩
  | pcrc data => cases ho; exact (decodeFN_ok_iff fifoCap.isLt).mpr ⟨data, of_decide_eq_true hw, rfl, hbs⟩
  | eval id => cases ho; exact (decodeFN_ok_iff (by decide)).mpr ⟨id, of_decide_eq_true hw, rfl, hbs⟩
  | pxcv lb c t tx => cases ho; exact (decodeFX_ok_iff fifoCap.isLt).mpr ⟨lb, c, t, tx, of_decide_eq_true hw, rfl, hbs⟩
  | _ => cases ho <;> exact hbs ▸ rfl

/-! ## The operation port -/

theorem decode_reserved {b : Byte} (h : Opcode.ofByte b = none) :
    decode fifoCap .operation (b :: bs) = .error (.opcode b) := by
  simp only [decode, decodeOperation, h]

@[simp] theorem decode_opcode_cons (o : Opcode) :
    decode fifoCap .operation (o.byte :: bs) = decodeOperands fifoCap o bs := by
  simp only [decode, decodeOperation, Opcode.ofByte_byte]

/-- Settles O1: the first byte names the operation, and its operands decode exactly to the rest of its encoding. -/
theorem operationDecodeIffEncode : Obligations.OperationDecodeIffEncode := by
  intro cap bs rest i
  constructor
  · intro h
    cases bs with
    | nil => cases h
    | cons b bs =>
      cases hb : Opcode.ofByte b with
      | none => rw [decode_reserved hb] at h; cases h
      | some o =>
        obtain rfl := Opcode.ofByte_eq_some_iff.mp hb
        rw [decode_opcode_cons] at h
        obtain ⟨hw, ho, hbs⟩ := decodeOperands_sound h
        exact ⟨hw, Instr.space_eq_operation_iff.mpr ⟨o, ho⟩, by rw [encode_eq_cons ho, hbs]; rfl⟩
  · rintro ⟨hw, hs, rfl⟩
    obtain ⟨o, ho⟩ := Instr.space_eq_operation_iff.mp hs
    rw [encode_eq_cons ho, List.cons_append, decode_opcode_cons]
    exact decodeOperands_complete ho hw rfl

/-! ## The other encoding spaces -/

theorem decodeLink_sound (h : decodeLink bs = .ok (i, rest)) : i.space = .link ∧ bs = encode i ++ rest := by
  revert h
  fun_cases decodeLink bs with
  | case1 x y rest' hx =>
    rintro ⟨⟩
    exact ⟨rfl, congrArg (· :: y :: rest) (eq_readAddressByte_iff.mpr ⟨hx, rfl⟩)⟩
  | case2 x y rest' hx =>
    rintro ⟨⟩
    exact ⟨rfl, congrArg (· :: y :: rest) (eq_byteOfAddr_iff.mpr ⟨by simpa using hx, rfl⟩)⟩
  | _ => nofun

theorem decodeCard_sound (h : decodeCard bs = .ok (i, rest)) : i.space = .card ∧ bs = encode i ++ rest := by
  revert h
  fun_cases decodeCard bs with
  | case2 rest' | case4 rest' => rintro ⟨⟩; exact ⟨rfl, rfl⟩
  | _ => nofun

theorem decodeCommand_sound (h : decodeCommand bs = .ok (i, rest)) : i.space = .command ∧ bs = encode i ++ rest := by
  revert h
  fun_cases decodeCommand bs with
  | case2 | case3 | case4 | case5 => rintro ⟨⟩; exact ⟨rfl, rfl⟩
  | _ => nofun

/-- Outside the operation port every instruction's encoding decodes to it. -/
theorem decode_encode_wire (h : i.space ≠ .operation) : decode fifoCap i.space (encode i ++ rest) = .ok (i, rest) := by
  cases i with
  | linkWrite a d | linkRead a v => simp [decode, Instr.space, encode, decodeLink]
  | reqa | anticollCl1 | pcdIdle | pcdCalcCrc | pcdTransceive | pcdSoftReset => rfl
  | _ => exact absurd rfl h

/-- Settles O2, space by space. -/
theorem wireDecodeIffEncode : Obligations.WireDecodeIffEncode := by
  intro cap sp bs rest i hsp
  constructor
  · intro h
    cases sp with
    | operation => exact absurd rfl hsp
    | link => exact decodeLink_sound h
    | card => exact decodeCard_sound h
    | command => exact decodeCommand_sound h
  · rintro ⟨rfl, rfl⟩
    exact decode_encode_wire hsp

/-! ## All spaces -/

/-- A well-formed instruction's encoding decodes to it in its own space, and leaves what follows it. -/
theorem decode_encode (h : i.wellFormed fifoCap = true) :
    decode fifoCap i.space (encode i ++ rest) = .ok (i, rest) := by
  by_cases hs : i.space = .operation
  · rw [hs]; exact (operationDecodeIffEncode _ _ _ _).mpr ⟨h, hs, rfl⟩
  · exact decode_encode_wire hs

/-- Settles O4: each word is the encoding of the operation it stands for. -/
theorem knownWords : Obligations.KnownWords :=
  ⟨decode_encode (i := .xwr 0x02#7 0x0F#8) rfl, decode_encode (i := .xwait 0x08#7 0x30#8 50#8) rfl,
    decode_encode (i := .xdelay 500#16) rfl, decode_encode (i := .pxcv 7#3 2#8 50#8 [0x26#8]) rfl,
    decode_encode (i := .eval [0x04#8, 0xAB#8, 0x10#8, 0x9F#8]) rfl, decode_encode (i := .linkRead 0x02#7 0x30#8) rfl,
    decode_encode (i := .reqa) rfl, decode_encode (i := .anticollCl1) rfl⟩

end Sys2Proof
end

section
/-! SUPPORT. What the decoder refuses, and with which byte (30_encoding.md R122, R124; O3): each format's bounds in their
order, streams that end inside an operation, and the offending byte's place in the stream. -/

namespace Sys2Proof

variable {op fifoCap : Byte} {bs : List Byte} {i : Instr} {why : Reject}

/-! ## Operands out of range, format by format -/

section
variable (op)

section
variable {a : Byte} (ha : 0x80 ≤ a.toNat)
include ha

theorem decodeFA_refuses_bit7 {mk : Addr → Instr} : decodeFA op mk (a :: bs) = .error (.operand a) := by
  simp only [decodeFA, getLsbD_seven, decide_eq_true ha, if_true]

theorem decodeFAD_refuses_bit7 {mk : Addr → Byte → Instr} {x : Byte} :
    decodeFAD op mk (a :: x :: bs) = .error (.operand a) := by
  simp only [decodeFAD, getLsbD_seven, decide_eq_true ha, if_true]

theorem decodeFAMT_refuses_bit7 {mk : Addr → Byte → Byte → Instr} {x y : Byte} :
    decodeFAMT op mk (a :: x :: y :: bs) = .error (.operand a) := by
  simp only [decodeFAMT, getLsbD_seven, decide_eq_true ha, if_true]

end

/-- A wait bound of 0 is refused once the address is in range. -/
theorem decodeFAMT_refuses_zero {mk : Addr → Byte → Byte → Instr} {a m : Byte} (ha : a.toNat < 0x80) :
    decodeFAMT op mk (a :: m :: 0x00#8 :: bs) = .error (.operand 0x00#8) := by
  simp only [decodeFAMT, getLsbD_seven, decide_eq_false (Nat.not_le.mpr ha), Bool.false_eq_true, if_true, if_false]

theorem decodeFN_refuses_count {cap : Nat} {mk : List Byte → Instr} {n : Byte} (hlen : n.toNat ≤ bs.length)
    (hn : cap < n.toNat) : decodeFN op cap mk (n :: bs) = .error (.operand n) := by
  simp only [decodeFN, if_neg (Nat.not_lt.mpr hlen), if_pos hn]

/-! The bounds of `PXCV`, each tested once those before it are met. -/

section
variable {cap : Nat} {mk : BitVec 3 → Byte → Byte → List Byte → Instr} {n lb c t z : Byte} (hlen : n.toNat ≤ bs.length)
include hlen

theorem decodeFX_refuses_count (hn : ¬ (1 ≤ n.toNat ∧ n.toNat ≤ cap)) :
    decodeFX op cap mk (n :: lb :: c :: t :: z :: bs) = .error (.operand n) := by
  rw [decodeFX, if_neg (by omega), if_pos (by omega)]

variable (hn : 1 ≤ n.toNat ∧ n.toNat ≤ cap)
include hn

theorem decodeFX_refuses_shift (hlb : 8 ≤ lb.toNat) :
    decodeFX op cap mk (n :: lb :: c :: t :: z :: bs) = .error (.operand lb) := by
  rw [decodeFX, if_neg (by omega), if_neg (by omega), if_pos hlb]

variable (hlb : lb.toNat < 8)
include hlb

theorem decodeFX_refuses_capacity (hc : ¬ (1 ≤ c.toNat ∧ c.toNat ≤ cap)) :
    decodeFX op cap mk (n :: lb :: c :: t :: z :: bs) = .error (.operand c) := by
  rw [decodeFX, if_neg (by omega), if_neg (by omega), if_neg (by omega), if_pos (by omega)]

variable (hc : 1 ≤ c.toNat ∧ c.toNat ≤ cap)
include hc

theorem decodeFX_refuses_bound (ht : t = 0x00#8) :
    decodeFX op cap mk (n :: lb :: c :: t :: z :: bs) = .error (.operand t) := by
  rw [decodeFX, if_neg (by omega), if_neg (by omega), if_neg (by omega), if_neg (by omega), if_pos ht]

theorem decodeFX_refuses_reserved (ht : t ≠ 0x00#8) (hz : z ≠ 0x00#8) :
    decodeFX op cap mk (n :: lb :: c :: t :: z :: bs) = .error (.operand z) := by
  rw [decodeFX, if_neg (by omega), if_neg (by omega), if_neg (by omega), if_neg (by omega), if_neg ht, if_pos hz]

end

end

/-! ## Truncated streams -/

/-- A stream shorter than the format is refused before any operand is looked at. -/
theorem decodeOperands_truncated {o : Opcode} (h : bs.length + 1 < o.fixedLength) :
    decodeOperands fifoCap o bs = .error (.truncated o.byte) := by
  cases o with
  | xrd | readtag | pcrc | eval =>
    match bs, h with
    | [], _ => rfl
    | _ :: _, h => simp only [Opcode.fixedLength, List.length_cons] at h; omega
  | xwr | xsetb | xclrb | xdelay | xrst =>
    match bs, h with
    | [], _ | [_], _ => rfl
    | _ :: _ :: _, h => simp only [Opcode.fixedLength, List.length_cons] at h; omega
  | xwait =>
    match bs, h with
    | [], _ | [_], _ | [_, _], _ => rfl
    | _ :: _ :: _ :: _, h => simp only [Opcode.fixedLength, List.length_cons] at h; omega
  | pxcv =>
    match bs, h with
    | [], _ | [_], _ | [_, _], _ | [_, _, _], _ | [_, _, _, _], _ => rfl
    | _ :: _ :: _ :: _ :: _ :: _, h => simp only [Opcode.fixedLength, List.length_cons] at h; omega
  | _ => simp [Opcode.fixedLength] at h

theorem decodeFN_truncated {cap : Nat} {mk : List Byte → Instr} {n : Byte} (h : bs.length < n.toNat) :
    decodeFN op cap mk (n :: bs) = .error (.truncated op) := if_pos h

theorem decodeFX_truncated {cap : Nat} {mk : BitVec 3 → Byte → Byte → List Byte → Instr} {n lb c t z : Byte}
    (h : bs.length < n.toNat) : decodeFX op cap mk (n :: lb :: c :: t :: z :: bs) = .error (.truncated op) := if_pos h

/-! ## The offending byte stands in the stream -/

/-- The refusal records a byte of this stream. -/
def Reject.Within (bs : List Byte) : Reject → Prop
  | .opcode b | .operand b | .truncated b => b ∈ bs
  | .empty => False

theorem decodeFA_within {mk : Addr → Instr} (h : decodeFA op mk bs = .error why) : why.Within (op :: bs) := by
  revert h
  fun_cases decodeFA op mk bs <;> rintro ⟨⟩ <;> simp [Reject.Within]

theorem decodeFAD_within {mk : Addr → Byte → Instr} (h : decodeFAD op mk bs = .error why) : why.Within (op :: bs) := by
  revert h
  fun_cases decodeFAD op mk bs <;> rintro ⟨⟩ <;> simp [Reject.Within]

theorem decodeFAMT_within {mk : Addr → Byte → Byte → Instr} (h : decodeFAMT op mk bs = .error why) :
    why.Within (op :: bs) := by
  revert h
  fun_cases decodeFAMT op mk bs <;> rintro ⟨⟩ <;> simp [Reject.Within]

theorem decodeFT16_within {mk : Millis → Instr} (h : decodeFT16 op mk bs = .error why) : why.Within (op :: bs) := by
  revert h
  fun_cases decodeFT16 op mk bs <;> rintro ⟨⟩; simp [Reject.Within]

theorem decodeFL_within {mk : Byte → Instr} (h : decodeFL op mk bs = .error why) : why.Within (op :: bs) := by
  revert h
  fun_cases decodeFL op mk bs <;> rintro ⟨⟩; simp [Reject.Within]

theorem decodeFN_within {cap : Nat} {mk : List Byte → Instr} (h : decodeFN op cap mk bs = .error why) :
    why.Within (op :: bs) := by
  revert h
  fun_cases decodeFN op cap mk bs <;> rintro ⟨⟩ <;> simp [Reject.Within]

theorem decodeFX_within {cap : Nat} {mk : BitVec 3 → Byte → Byte → List Byte → Instr}
    (h : decodeFX op cap mk bs = .error why) : why.Within (op :: bs) := by
  revert h
  fun_cases decodeFX op cap mk bs <;> rintro ⟨⟩ <;> simp [Reject.Within]

theorem decodeOperands_within {o : Opcode} (h : decodeOperands fifoCap o bs = .error why) :
    why.Within (o.byte :: bs) := by
  cases o with
  | xrd => exact decodeFA_within h
  | xwr | xsetb | xclrb => exact decodeFAD_within h
  | xwait => exact decodeFAMT_within h
  | xdelay | xrst => exact decodeFT16_within h
  | readtag => exact decodeFL_within h
  | pcrc | eval => exact decodeFN_within h
  | pxcv => exact decodeFX_within h
  | _ => cases h

/-- A refused stream on the operation port is refused with one of its bytes. -/
theorem decode_operation_within {b : Byte} (h : decode fifoCap .operation (b :: bs) = .error why) :
    why.Within (b :: bs) := by
  cases hb : Opcode.ofByte b with
  | none =>
    rw [decode_reserved hb] at h
    cases h
    exact List.mem_cons_self
  | some o =>
    obtain rfl := Opcode.ofByte_eq_some_iff.mp hb
    rw [decode_opcode_cons] at h
    exact decodeOperands_within h

end Sys2Proof
end

section
/-! SUPPORT. The port as the step sees it (30_encoding.md R124, R125; 70_reset_and_hazards.md R402; O3, O5), and the reader
commands (30_encoding.md R113; O14). -/

namespace Sys2Proof.Machine

variable {s : State} {i : Instr} {bs rest : List Byte} {sp : Space} {why : Reject}

/-! ## The sequencer's move -/

/-- With no schedule, or with the sequencer named by it, the sequencer moves and the entry is used up. -/
theorem step_eq_runSequencer (hm : s.moves = [] ∨ ∃ ms, s.moves = .sequencer :: ms) :
    step s = runSequencer { s with moves := s.moves.tail } := by
  obtain hm | ⟨ms, hm⟩ := hm
  · have hs : ({ s with moves := s.moves.tail } : State) = s := by rw [hm, List.tail_nil, ← hm]
    rw [hs]; simp only [step, hm]
  · simp only [step, hm, runMove, List.tail_cons]

theorem fetch_of_port (hp : s.port = { space := sp, bytes := bs }) (hne : bs ≠ []) :
    fetch s = (decode s.cfg.fifoCap sp bs).map fun p => (p.1, { s with port := { space := sp, bytes := p.2 } }) := by
  obtain ⟨b, bs, rfl⟩ := List.exists_cons_of_ne_nil hne
  simp only [fetch, hp]
  cases decode s.cfg.fifoCap sp (b :: bs) <;> rfl

/-- What the decoder refuses stops the step (60_exceptions.md R368). -/
theorem step_refused (hq : s.seq.position = none) (hm : s.moves = [] ∨ ∃ ms, s.moves = .sequencer :: ms)
    (hp : s.port = { space := sp, bytes := bs }) (hne : bs ≠ []) (h : decode s.cfg.fifoCap sp bs = .error why) :
    step s = .fault (.refused why) := by
  rw [step_eq_runSequencer hm]
  refine runSequencer_refused hq ((fetch_of_port (s := { s with moves := s.moves.tail }) hp hne).trans ?_)
  rw [h]; rfl

/-- What the decoder accepts is run, at the state whose port holds what follows it. -/
theorem step_decoded (hq : s.seq.position = none) (hm : s.moves = [] ∨ ∃ ms, s.moves = .sequencer :: ms)
    (hp : s.port = { space := sp, bytes := bs }) (hne : bs ≠ []) (h : decode s.cfg.fifoCap sp bs = .ok (i, rest)) :
    step s = exec i { s with moves := s.moves.tail, port := { space := sp, bytes := rest } } := by
  have hf := fetch_of_port (s := { s with moves := s.moves.tail }) hp hne
  rw [h] at hf
  rw [step_eq_runSequencer hm]
  simp only [runSequencer, hq, hf, Except.map]

/-- With nothing on the port the sequencer issues its own operation. -/
theorem step_own (hq : s.seq.position = none) (hm : s.moves = []) (hb : s.port.bytes = []) :
    step s = exec (ownOperation s) s := by
  simp only [step, hm, runSequencer, hq, fetch_own hb]

/-! ## The statements -/

/-- Settles O3: each clause is what the decoder refuses. -/
theorem refusedStops : Obligations.RefusedStops := by
  intro s hq hm cap refuses
  have hstep {b bs why} (hd : decode s.cfg.fifoCap .operation (b :: bs) = .error why) : refuses (b :: bs) why :=
    fun hp => step_refused hq hm hp (List.cons_ne_nil _ _) hd
  have hop (o : Opcode) {bs why} (h : decodeOperands s.cfg.fifoCap o bs = .error why) : refuses (o.byte :: bs) why :=
    hstep ((decode_opcode_cons o).trans h)
  refine ⟨fun b bs hb => ?reserved, fun a x y bs ha => ?address, fun a m bs ha => ?bound, fun n bs hlen => ?count,
    fun n lb c t z bs hlen => ?exchange, fun o bs h => ?truncated, fun b bs hp hne => ?unencoded⟩
  case reserved => exact hstep (decode_reserved (Opcode.ofByte_reserved hb))
  case address =>
    refine ⟨hop .xrd (decodeFA_refuses_bit7 0x11#8 ha), hop .xwait (decodeFAMT_refuses_bit7 0x14#8 ha), fun o ho => ?_⟩
    simp only [List.mem_cons, List.not_mem_nil, or_false] at ho
    obtain rfl | rfl | rfl := ho
    · exact hop .xwr (decodeFAD_refuses_bit7 0x10#8 ha)
    · exact hop .xsetb (decodeFAD_refuses_bit7 0x12#8 ha)
    · exact hop .xclrb (decodeFAD_refuses_bit7 0x13#8 ha)
  case bound => exact hop .xwait (decodeFAMT_refuses_zero 0x14#8 ha)
  case count =>
    exact ⟨fun hn => hop .pcrc (decodeFN_refuses_count 0x25#8 hlen hn),
      fun hn => hop .eval (decodeFN_refuses_count 0x51#8 hlen hn)⟩
  case exchange =>
    exact ⟨fun hn => hop .pxcv (decodeFX_refuses_count 0x22#8 hlen hn),
      fun hn hlb => hop .pxcv (decodeFX_refuses_shift 0x22#8 hlen hn hlb),
      fun hn hlb hc => hop .pxcv (decodeFX_refuses_capacity 0x22#8 hlen hn hlb hc),
      fun hn hlb hc ht => hop .pxcv (decodeFX_refuses_bound 0x22#8 hlen hn hlb hc ht),
      fun hn hlb hc ht hz => hop .pxcv (decodeFX_refuses_reserved 0x22#8 hlen hn hlb hc ht hz)⟩
  case truncated =>
    obtain h | ⟨rfl | rfl, n, ds, rfl, h⟩ | ⟨rfl, n, lb, c, t, z, ds, rfl, h⟩ := h
    · exact hop o (decodeOperands_truncated h)
    · exact hop .pcrc (decodeFN_truncated h)
    · exact hop .eval (decodeFN_truncated h)
    · exact hop .pxcv (decodeFX_truncated h)
  case unencoded =>
    cases hd : decode s.cfg.fifoCap .operation (b :: bs) with
    | ok x => exact absurd ⟨x.1, x.2, (operationDecodeIffEncode _ _ _ _).mp hd⟩ hne
    | error why =>
      have hx := decode_operation_within hd
      have hfault := hstep hd hp
      cases why with
      | opcode x => exact ⟨x, hx, .inl hfault⟩
      | operand x => exact ⟨x, hx, .inr (.inl hfault)⟩
      | truncated x => exact ⟨x, hx, .inr (.inr hfault)⟩
      | empty => exact hx.elim

/-- Settles O5: the encoding decodes to its instruction, and an empty port leaves the sequencer its own operation. -/
theorem stepRunsDecoded : Obligations.StepRunsDecoded := by
  refine ⟨fun s i rest hq hw hp => ?_, fun s hq hm hb => ⟨fun hbo => ?_, fun hbo => ?_⟩⟩
  · have hne : encode i ++ rest ≠ [] := List.append_ne_nil_of_left_ne_nil (encode_ne_nil i) rest
    have hd := decode_encode (rest := rest) hw
    refine ⟨fun hm => ?_, fun ms hm => ?_⟩
    · rw [step_decoded hq (.inl hm) hp hne hd, hm, List.tail_nil]
    · rw [step_decoded hq (.inr ⟨ms, hm⟩) hp hne hd, hm, List.tail_cons]
  · rw [step_own hq hm hb, ownOperation, hbo]; rfl
  · rw [step_own hq hm hb, ownOperation, hbo]; rfl

/-- A reader command is one claimed write to `CommandReg`. -/
theorem perform_readerCommand (d : Byte) (s : State) : perform (readerCommand s.cfg d) s = .next { s with
    link := { s.link with cs := .deasserted, hist := s.link.hist ++ writeEvents s.cfg.regs.command d }
    result := some .unit } := by
  have hrun := Prog.run_andThen_ok (run_linkWrite s.cfg.regs.command d s) (.ret OpResult.unit)
  exact perform_ok hrun

/-- Settles O14, command by command. -/
theorem readerCommands : Obligations.ReaderCommands := fun s =>
  ⟨perform_readerCommand _ s, perform_readerCommand _ s, perform_readerCommand _ s, perform_readerCommand _ s⟩

end Sys2Proof.Machine
end

section
/-! SUPPORT. The ProtocolTransport operations (41_transport.md R144 to R151; O8 to O13, O55): each runs the closed form of
its transfers, and every operation's whole framed items. -/

namespace Sys2Proof.Machine

/-! ## The framing of every operation -/

/-- A lawful program that runs from a released link adds whole framed items, and no reset event unless it may drive the reset line. -/
theorem Lawful.run_framed {α : Type} {w : Writes} {p : Prog α} {s t : State} {a : α} (hp : Lawful w p)
    (hc : s.link.cs = .deasserted) (h : p.run s = .ok (a, t)) :
    ∃ k, t.link.hist = s.link.hist ++ k ∧ framed k = true ∧ t.link.cs = .deasserted ∧
      (w.rst = false → (∀ l, LinkEvent.rst l ∉ k) ∧ t.link.rst = s.link.rst) := by
  have hk : Kept w s t := hp.each.kept h
  obtain ⟨-, hcs, k, hh, hf⟩ := (hp.framing s hc).run trivial h
  refine ⟨k, hh, hf, hcs, fun hr => ⟨?_, hk.rst hr⟩⟩
  obtain ⟨l, hl, hn⟩ := hk.grown
  have hkl : k = l := List.append_cancel_left (hh.symm.trans hl)
  exact hkl ▸ noReset_mem (hn hr)

/-! ## Whole operations from closed forms -/

/-- An operation that runs a program and then returns a given result. -/
theorem perform_andThen_ret {p : Prog Unit} {s t : State} (h : p.run s = .ok ((), t)) (r : OpResult) :
    perform (p.andThen (.ret r)) s = .next (State.returning r t) :=
  perform_ok (Prog.run_andThen_ok h _)

/-- An operation that returns what it made of a program's answer. -/
theorem perform_bind_ret {α : Type} {p : Prog α} {s t : State} {a : α} (h : p.run s = .ok (a, t)) (f : α → OpResult) :
    perform (p.bind fun a => .ret (f a)) s = .next (State.returning (f a) t) :=
  perform_ok (Prog.run_bind_ok h _)

/-- The wire form of a read transfer records the value it is given, and draws none. -/
theorem run_claimedRead (a : Addr) (v : Byte) (s : State) : (claimLink (.tell (State.emit (.r a v)))).run s =
    .ok ((), { s with link := { s.link with cs := .deasserted, hist := s.link.hist ++ readEvents a v } }) := by
  simp [claimLink, Prog.andThen, Prog.run_bind, State.driveCs, State.emit, readEvents, claimed]

end Sys2Proof.Machine

namespace Sys2Proof.Transport

/-! ## The statements, in a namespace of their own: `Machine.setBits` and `Machine.clearBits` are programs -/

open Machine

/-- Settles O55: the program of every operation is lawful, and returning from it leaves the link alone. -/
theorem linkFraming : Obligations.LinkFraming := by
  intro i s t hc ht
  obtain ⟨r, u, hu, rfl, -⟩ := exec_kept ht
  obtain ⟨k, hh, hf, hcs, hr⟩ := (program_lawful s.cfg i).run_framed hc hu
  exact ⟨k, hh, hf, hcs, fun hi => hr (by simp [hi])⟩

/-- Settles O10: `PANTON` is `XSETB` of the configured antenna register and mask. -/
theorem setBits : Obligations.SetBits := fun a m s =>
  ⟨perform_andThen_ret (run_setBits a m s) .unit,
    perform_andThen_ret (run_setBits (s.cfg.regs.addr s.cfg.antennaReg) s.cfg.antennaMask s) .unit⟩

/-- Settles O11: the write follows the read on every path, so its closed form has no case. -/
theorem clearBits : Obligations.ClearBits := fun a m s => perform_andThen_ret (run_clearBits a m s) .unit

/-- Settles O13: the polls of the wait, and by its last one the result. -/
theorem timedWait : Obligations.TimedWait := by
  intro a m t s
  obtain ⟨vs, last, hdrawn, hclear, hbound, hrun⟩ := run_waitFlag a m s
  have hlen : (vs ++ [last]).length = vs.length + 1 := List.length_append
  have hexec := perform_bind_ret hrun waitResult
  refine ⟨vs, last, ?_, hclear, ?_⟩
  · rw [hlen]; exact hdrawn
  · simp only [hlen]
    rcases hbound with ⟨hseen, hle⟩ | ⟨hnone, heq⟩
    · rw [if_neg hseen, if_neg hseen] at hexec
      exact .inl ⟨hseen, fun hm => hseen (by rw [hm, BitVec.and_zero]), Nat.succ_le_succ hle, hexec⟩
    · rw [if_pos hnone, if_pos hnone] at hexec
      exact .inr ⟨hnone, congrArg Nat.succ heq, hexec⟩

/-- Settles O8: both operations run the same transfer. -/
theorem registerWrite : Obligations.RegisterWrite := fun a d s =>
  ⟨perform_andThen_ret (run_linkWrite a d s) .unit, perform_andThen_ret (run_linkWrite a d s) .unit⟩

/-- Settles O9: `XRD` draws the byte it returns, `LINK_READ` is given it. -/
theorem registerRead : Obligations.RegisterRead := fun a w s =>
  ⟨perform_bind_ret (run_linkRead a s) .byte, perform_andThen_ret (run_claimedRead a w s) (.byte w)⟩

/-- Settles O12: one recorded delay, and the pulse around one. -/
theorem delayAndPulse : Obligations.DelayAndPulse := fun t s =>
  ⟨perform_andThen_ret (run_settleDelay t s) .unit, perform_andThen_ret (run_resetPulse t s) .unit⟩

end Sys2Proof.Transport
end

section
/-! SUPPORT. The level-B register sequences (42_anticollision_engine.md R187, R193): what each line of a configured sequence does,
and the standard sequences put together from those lines. -/

namespace Sys2Proof.Machine

/-! ## A block of claimed transfers -/

/-- The state after the claimed transfers `h`, with the draws `d` left: chip-select is released, and nothing else of the core
changed. -/
def State.transferred (h : List LinkEvent) (d : Draws) (s : State) : State :=
  { s with draws := d, link := { s.link with cs := .deasserted, hist := s.link.hist ++ h } }

@[simp] theorem State.transferred_draws (h : List LinkEvent) (d : Draws) (s : State) :
    (State.transferred h d s).draws = d := rfl

@[simp] theorem State.transferred_transferred (h k : List LinkEvent) (d e : Draws) (s : State) :
    State.transferred k e (State.transferred h d s) = State.transferred (h ++ k) e s := by
  simp [State.transferred]

/-- Transfers do not touch the result status. -/
theorem State.transferred_setLast (h : List LinkEvent) (d : Draws) (q : ResultCode) (s : State) :
    State.transferred h d (State.setLast q s) = State.setLast q (State.transferred h d s) := rfl

/-- Once the link is released, writing any number of bytes is a block of transfers. -/
theorem run_writeAll_transferred (a : Addr) (bs : List Byte) (h : List LinkEvent) (d : Draws) (s : State) :
    (writeAll a bs).run (s.transferred h d) = .ok ((), s.transferred (h ++ writesAt a bs) d) := by
  simp [run_writeAll, State.transferred]

/-- Once the link is released, reading any number of bytes is a block of transfers. -/
theorem run_readAll_transferred (a : Addr) (n : Nat) (h : List LinkEvent) (d : Draws) (s : State) :
    ∃ rx e, rx.length = n ∧ (readAll a n).run (s.transferred h d) = .ok (rx, s.transferred (h ++ readsAt a rx) e) := by
  obtain ⟨rx, e, hn, hrun⟩ := run_readAll a n (s.transferred h d)
  refine ⟨rx, e, hn, hrun.trans ?_⟩
  simp [State.transferred]

/-! ## One line of a sequence -/

section Lines

variable (c : Config) (x : Exchange) (sts : List SeqStep) (g : Gathered) (s : State)

variable {c x g s} in
/-- A line that ends without a failure leaves the rest of the sequence to run. -/
theorem runSequence_cons_ok {st : SeqStep} {g' : Gathered} {t : State} (h : (runSeqStep c x g st).run s = .ok (.ok g', t)) :
    (runSequence c x (st :: sts) g).run s = (runSequence c x sts g').run t := by
  rw [runSequence, Prog.run_bind_ok h]

variable {c x g s} in
/-- A line that fails ends the sequence. -/
theorem runSequence_cons_error {st : SeqStep} {why : XcvFailure} {t : State}
    (h : (runSeqStep c x g st).run s = .ok (.error why, t)) :
    (runSequence c x (st :: sts) g).run s = .ok (.fail why, t) := by
  rw [runSequence, Prog.run_bind_ok h]; rfl

theorem runSequence_write (r : ReaderReg) (d : SeqByte) : (runSequence c x (.write r d :: sts) g).run s =
    (runSequence c x sts g).run (s.transferred (writeEvents (c.regs.addr r) (c.seqByte d)) s.draws) :=
  runSequence_cons_ok sts (Prog.run_andThen_ok (run_linkWrite _ _ s) _)

theorem runSequence_frame (r : ReaderReg) (k : Nat) : (runSequence c x (.frame r k :: sts) g).run s =
    (runSequence c x sts g).run (s.transferred (writeEvents (c.regs.addr r) (x.lb.setWidth 8 <<< k)) s.draws) :=
  runSequence_cons_ok sts (Prog.run_andThen_ok (run_linkWrite _ _ s) _)

theorem runSequence_load (r : ReaderReg) (h : List LinkEvent) (d : Draws) :
    (runSequence c x (.load r :: sts) g).run (s.transferred h d) =
      (runSequence c x sts g).run (s.transferred (h ++ writesAt (c.regs.addr r) x.tx) d) :=
  runSequence_cons_ok sts (Prog.run_andThen_ok (run_writeAll_transferred _ _ h d s) _)

theorem runSequence_setBits (r : ReaderReg) (m : SeqByte) : (runSequence c x (.setBits r m :: sts) g).run s =
    (runSequence c x sts g).run
      (s.transferred (setBitsEvents (c.regs.addr r) (c.seqByte m) s.draws.byte.1) s.draws.byte.2) :=
  runSequence_cons_ok sts (Prog.run_andThen_ok (run_setBits _ _ s) _)

/-- A wait (R148) goes on after the poll that shows the flag, and fails if none does. -/
theorem runSequence_wait (r : ReaderReg) (m : SeqByte) : ∃ (vs : List Byte) (last : Byte) (d : Draws),
    (∀ v ∈ vs, v &&& c.seqByte m = 0#8) ∧ (runSequence c x (.wait r m :: sts) g).run s =
      let t := s.transferred (readsAt (c.regs.addr r) (vs ++ [last])) d
      if last &&& c.seqByte m = 0#8 then .ok (.fail .timeout, State.setLast .timeout t)
      else (runSequence c x sts g).run (State.setLast .ok t) := by
  obtain ⟨vs, last, -, hclear, -, hrun⟩ := run_waitFlag (c.regs.addr r) (c.seqByte m) s
  refine ⟨vs, last, (Draws.takeBytes (vs.length + 1) s.draws.polls.2).2, hclear, ?_⟩
  by_cases hl : last &&& c.seqByte m = 0#8
  · simp only [hl, if_true] at hrun ⊢
    exact runSequence_cons_error sts (Prog.run_bind_ok hrun _)
  · simp only [hl, if_false] at hrun ⊢
    exact runSequence_cons_ok sts (Prog.run_bind_ok hrun _)

/-- A check goes on if the register read shows no bit of the mask. -/
theorem runSequence_check (r : ReaderReg) (m : SeqByte) : (runSequence c x (.check r m :: sts) g).run s =
    let t := s.transferred (readEvents (c.regs.addr r) s.draws.byte.1) s.draws.byte.2
    if s.draws.byte.1 &&& c.seqByte m = 0#8 then (runSequence c x sts g).run t else .ok (.fail .pcdError, t) := by
  have hrun := run_linkRead (c.regs.addr r) s
  by_cases h : s.draws.byte.1 &&& c.seqByte m = 0#8
  · simp only [h, if_true]
    exact runSequence_cons_ok sts (g' := g) ((Prog.run_bind_ok hrun _).trans (by simp [anySet, h]; rfl))
  · simp only [h, if_false]
    exact runSequence_cons_error sts ((Prog.run_bind_ok hrun _).trans (by simp [anySet, h]; rfl))

/-- A count goes on if the bytes counted fit the capacity. -/
theorem runSequence_count (r : ReaderReg) (m : SeqByte) : (runSequence c x (.count r m :: sts) g).run s =
    let t := s.transferred (readEvents (c.regs.addr r) s.draws.byte.1) s.draws.byte.2
    let k := (s.draws.byte.1 &&& c.seqByte m).toNat
    if x.cap.toNat < k then .ok (.fail .noRoom, t) else (runSequence c x sts { g with k := k }).run t := by
  have hrun := run_linkRead (c.regs.addr r) s
  by_cases h : x.cap.toNat < (s.draws.byte.1 &&& c.seqByte m).toNat
  · simp only [h, if_true]
    exact runSequence_cons_error sts ((Prog.run_bind_ok hrun _).trans (by simp only [h, if_true]; rfl))
  · simp only [h, if_false]
    exact runSequence_cons_ok sts ((Prog.run_bind_ok hrun _).trans (by simp only [h, if_false]; rfl))

theorem runSequence_collect (r : ReaderReg) (h : List LinkEvent) (d : Draws) :
    ∃ rx e, rx.length = g.k ∧ (runSequence c x (.collect r :: sts) g).run (s.transferred h d) =
      (runSequence c x sts { g with rx := g.rx ++ rx }).run (s.transferred (h ++ readsAt (c.regs.addr r) rx) e) := by
  obtain ⟨rx, e, hn, hrun⟩ := run_readAll_transferred (c.regs.addr r) g.k h d s
  exact ⟨rx, e, hn, runSequence_cons_ok sts (Prog.run_bind_ok hrun _)⟩

theorem runSequence_readByte (r : ReaderReg) : (runSequence c x (.readByte r :: sts) g).run s =
    (runSequence c x sts { g with rx := g.rx ++ [s.draws.byte.1] }).run
      (s.transferred (readEvents (c.regs.addr r) s.draws.byte.1) s.draws.byte.2) :=
  runSequence_cons_ok sts (Prog.run_bind_ok (run_linkRead _ s) _)

theorem runSequence_lastBits (r : ReaderReg) (k : Nat) : (runSequence c x (.lastBits r k :: sts) g).run s =
    (runSequence c x sts { g with lastBits := (s.draws.byte.1 >>> k).setWidth 3 }).run
      (s.transferred (readEvents (c.regs.addr r) s.draws.byte.1) s.draws.byte.2) :=
  runSequence_cons_ok sts (Prog.run_bind_ok (run_linkRead _ s) _)

end Lines

/-- A sequence made of lines that only transfer, a wait, and lines that only transfer once the flag is seen: its transfers
around the polls, and an outcome that is `TIMEOUT` after no further transfer or the one the last lines give. -/
theorem runSequence_around_wait {c : Config} {x : Exchange} {s : State} {pre post : List SeqStep} {sent : List LinkEvent}
    {d : Draws} {m : SeqByte} {P : Byte → List LinkEvent → XcvResult → Prop}
    (hpre : ∀ sts, (runSequence c x (pre ++ sts) .start).run s = (runSequence c x sts .start).run (s.transferred sent d))
    (htimeout : ∀ last, last &&& c.seqByte m = 0#8 → P last [] (.fail .timeout))
    (hpost : ∀ last, last &&& c.seqByte m ≠ 0#8 → ∀ t, ∃ tail r e,
      (runSequence c x post .start).run t = .ok (r, t.transferred tail e) ∧ P last tail r) (reg : ReaderReg) :
    ∃ vs last tail r e q, (runSequence c x (pre ++ .wait reg m :: post) .start).run s = .ok (r, State.setLast q
        (s.transferred (sent ++ readsAt (c.regs.addr reg) (vs ++ [last]) ++ tail) e)) ∧
      (∀ v ∈ vs, v &&& c.seqByte m = 0#8) ∧ P last tail r := by
  obtain ⟨vs, last, e, hclear, hwait⟩ := runSequence_wait c x post .start (s.transferred sent d) reg m
  have hrun := (hpre (.wait reg m :: post)).trans hwait
  simp only [State.transferred_transferred] at hrun
  by_cases hl : last &&& c.seqByte m = 0#8
  · rw [if_pos hl] at hrun
    exact ⟨vs, last, [], .fail .timeout, e, .timeout, by rw [hrun, List.append_nil], hclear, htimeout last hl⟩
  · rw [if_neg hl] at hrun
    obtain ⟨tail, r, f, htail, hP⟩ := hpost last hl
      (State.setLast .ok (s.transferred (sent ++ readsAt (c.regs.addr reg) (vs ++ [last])) e))
    rw [State.transferred_setLast, State.transferred_transferred] at htail
    exact ⟨vs, last, tail, r, f, .ok, hrun.trans htail, hclear, hP⟩

/-! ## The standard transceive (R187) -/

/-- The lines of the standard `XcvB` before its wait. -/
def sendLines : List SeqStep := standardXcv.take 7

/-- The lines of the standard `XcvB` after its wait. -/
def receiveLines : List SeqStep := standardXcv.drop 8

theorem standardXcv_eq : standardXcv = sendLines ++ .wait .comIrq .completionMask :: receiveLines := rfl

theorem run_sendLines (c : Config) (x : Exchange) (sts : List SeqStep) (g : Gathered) (s : State) :
    (runSequence c x (sendLines ++ sts) g).run s = (runSequence c x sts g).run
      (s.transferred (sendEvents c x.tx x.lb s.draws.byte.1) s.draws.byte.2) := by
  simp [sendLines, standardXcv, runSequence_write, runSequence_load, runSequence_frame, runSequence_setBits, sendEvents,
    Config.seqByte, RegMap.addr]

/-- The mask of the level register (R117) keeps its low seven bits. -/
theorem toNat_and_sevenBits (k : Byte) : (k &&& 0x7F#8).toNat = (k.setWidth 7).toNat := by
  rw [BitVec.toNat_and, BitVec.toNat_setWidth]
  exact Nat.and_two_pow_sub_one_eq_mod k.toNat 7

/-- Once completion is seen, the reads that follow give one of the three other outcomes. -/
theorem run_receiveLines (c : Config) (x : Exchange) {last : Byte} (hl : last &&& c.completionMask ≠ 0#8) (s : State) :
    ∃ tail r d, (runSequence c x receiveLines .start).run s = .ok (r, s.transferred tail d) ∧
      xcvEnding c x.cap last tail r := by
  simp only [receiveLines, standardXcv, List.drop_succ_cons, List.drop_zero, runSequence_check, runSequence_count,
    State.transferred_transferred, State.transferred_draws, Config.seqByte, RegMap.addr]
  by_cases he : s.draws.byte.1 &&& c.errMask = 0#8
  · rw [if_pos he]
    by_cases hk : x.cap.toNat < (s.draws.byte.2.byte.1 &&& 0x7F#8).toNat
    · rw [if_pos hk]
      exact ⟨_, _, _, rfl, hl, _, _, he, toNat_and_sevenBits _ ▸ hk, rfl⟩
    · rw [if_neg hk]
      obtain ⟨rx, e, hn, hrun⟩ := runSequence_collect c x [.lastBits .control 0]
        { Gathered.start with k := (s.draws.byte.2.byte.1 &&& 0x7F#8).toNat } s .fifoData
        (readEvents c.regs.error s.draws.byte.1 ++ readEvents c.regs.fifoLevel s.draws.byte.2.byte.1) s.draws.byte.2.byte.2
      rw [hrun, runSequence_lastBits]
      simp only [State.transferred_transferred, State.transferred_draws, RegMap.addr]
      refine ⟨_, _, _, rfl, hl, _, _, _, he, hn.trans (toNat_and_sevenBits _), ?_, ?_, rfl⟩
      · exact hn.le.trans (Nat.le_of_not_lt hk)
      · rfl
  · rw [if_neg he]
    exact ⟨_, _, _, rfl, hl, _, he, rfl⟩

/-- An outcome the standard `XcvB` ends in fits its capacity. -/
theorem capResult_of_xcvEnding {c : Config} {cap last : Byte} {tail : List LinkEvent} {r : XcvResult}
    (h : xcvEnding c cap last tail r) : capResult cap r = r := by
  cases r with
  | fail why => rfl
  | ok rx lastBits =>
    obtain ⟨-, e, k, v, -, -, hfit, -, -⟩ := h
    rw [capResult, List.take_of_length_le hfit]

/-- The standard `XcvB`: its transfers, and the outcome they give. -/
theorem run_xcvB_standard {c : Config} (hs : c.xcvSteps = standardXcv) (tx : List Byte) (lb : BitVec 3) (cap : Byte) (s : State) :
    ∃ b last vs tail r d q, (xcvB c tx lb cap).run s = .ok (r, State.setLast q
        (s.transferred (sendEvents c tx lb b ++ readsAt c.regs.comIrq (vs ++ [last]) ++ tail) d)) ∧
      (∀ v ∈ vs, v &&& c.completionMask = 0#8) ∧ xcvEnding c cap last tail r := by
  obtain ⟨vs, last, tail, r, d, q, hrun, hclear, hend⟩ := runSequence_around_wait (s := s) (m := .completionMask)
    (x := { tx := tx, lb := lb, cap := cap }) (P := xcvEnding c cap) (fun sts => run_sendLines c _ sts _ s)
    (fun _ h => ⟨h, rfl⟩) (fun _ h t => run_receiveLines c _ h t) .comIrq
  rw [← standardXcv_eq, ← hs] at hrun
  refine ⟨s.draws.byte.1, last, vs, tail, r, d, q, ?_, hclear, hend⟩
  rw [xcvB, Prog.run_bind_ok hrun, Prog.run_ret, capResult_of_xcvEnding hend]; rfl

/-! ## The standard CRC computation (R193) -/

/-- The lines of the standard `CrcB` before its wait. -/
def crcStartLines : List SeqStep := standardCrc.take 5

/-- The lines of the standard `CrcB` after its wait. -/
def crcReadLines : List SeqStep := standardCrc.drop 6

theorem standardCrc_eq : standardCrc = crcStartLines ++ .wait .divIrq .crcDoneMask :: crcReadLines := rfl

theorem run_crcStartLines (c : Config) (x : Exchange) (sts : List SeqStep) (g : Gathered) (s : State) :
    (runSequence c x (crcStartLines ++ sts) g).run s =
      (runSequence c x sts g).run (s.transferred (crcEvents c x.tx) s.draws) := by
  simp [crcStartLines, standardCrc, runSequence_write, runSequence_load, crcEvents, Config.seqByte, RegMap.addr]

/-- How the standard `CrcB` ends, by its last poll of `DivIrqReg`. -/
def crcEnding (c : Config) (last : Byte) (tail : List LinkEvent) (r : CrcResult) : Prop :=
  (last &&& c.crcDoneMask = 0#8 ∧ tail = [] ∧ r = .timeout) ∨
    (∃ lo hi, last &&& c.crcDoneMask ≠ 0#8 ∧ r = .ok lo hi ∧
      tail = writeEvents c.regs.command c.cmds.idle ++ readEvents c.regs.crcResultL lo ++ readEvents c.regs.crcResultH hi)

/-- Once completion is seen, the reads that follow give the two bytes, the low one first. -/
theorem run_crcReadLines (c : Config) (x : Exchange) {last : Byte} (hl : last &&& c.crcDoneMask ≠ 0#8) (s : State) :
    ∃ tail r d, (runSequence c x crcReadLines .start).run s = .ok (r, s.transferred tail d) ∧
      crcEnding c last tail (crcOfSequence r) := by
  simp only [crcReadLines, standardCrc, List.drop_succ_cons, List.drop_zero, runSequence_write, runSequence_readByte,
    State.transferred_transferred, State.transferred_draws]
  exact ⟨_, _, _, rfl, .inr ⟨_, _, hl, rfl, rfl⟩⟩

/-- The standard `CrcB`: its transfers, and the outcome they give. -/
theorem run_crcB_standard {c : Config} (hs : c.crcSteps = standardCrc) (data : List Byte) (s : State) :
    ∃ last vs tail r d q, (crcB c data).run s = .ok (r, State.setLast q
        (s.transferred (crcEvents c data ++ readsAt c.regs.divIrq (vs ++ [last]) ++ tail) d)) ∧
      (∀ v ∈ vs, v &&& c.crcDoneMask = 0#8) ∧ crcEnding c last tail r := by
  obtain ⟨vs, last, tail, r, d, q, hrun, hclear, hend⟩ := runSequence_around_wait (s := s) (m := .crcDoneMask)
    (x := { tx := data, lb := 0#3, cap := 0xFF#8 }) (P := fun last tail r => crcEnding c last tail (crcOfSequence r))
    (fun sts => run_crcStartLines c _ sts _ s) (fun _ h => .inl ⟨h, rfl, rfl⟩)
    (fun _ h t => run_crcReadLines c _ h t) .divIrq
  rw [← standardCrc_eq, ← hs] at hrun
  refine ⟨last, vs, tail, crcOfSequence r, d, q, ?_, hclear, hend⟩
  rw [crcB, Prog.run_bind_ok hrun]; rfl

end Sys2Proof.Machine
end

section
/-! SUPPORT. The anticollision engine (42_anticollision_engine.md R180 to R197; O15 to O24, O28): the exchange at both levels,
the operations that carry it, the checks over its outcome, and the Live poll. -/

namespace Sys2Proof.Machine

/-! ## The exchange -/

/-- A transceive records the code of the outcome its level gives. -/
theorem run_transceive_levelA {c : Config} (h : c.level = .a) (tx : List Byte) (lb : BitVec 3) (cap t : Byte) (s : State) :
    (transceive c tx lb cap t).run s = .ok (capResult cap s.draws.xcv.1, { s with
      draws := s.draws.xcv.2
      link := { s.link with hist := s.link.hist ++ [.xcv tx lb cap t (capResult cap s.draws.xcv.1)] }
      eng := { lastResult := codeOfXcv (capResult cap s.draws.xcv.1) } }) := by
  simp only [transceive, h]; rfl

theorem run_transceive_levelB {c : Config} (h : c.level = .b) {tx : List Byte} {lb : BitVec 3} {cap : Byte} {s u : State}
    {r : XcvResult} (hrun : (xcvB c tx lb cap).run s = .ok (r, u)) (t : Byte) :
    (transceive c tx lb cap t).run s = .ok (r, State.setLast (codeOfXcv r) u) := by
  simp only [transceive, h]
  rw [Prog.run_bind_ok hrun]; rfl

/-- The standard exchange at level B: its transfers, and the outcome they give. -/
theorem run_transceive_standard {c : Config} (hb : c.level = .b) (hs : c.xcvSteps = standardXcv) (tx : List Byte)
    (lb : BitVec 3) (cap t : Byte) (s : State) : ∃ b last vs tail r d,
      (transceive c tx lb cap t).run s = .ok (r, State.setLast (codeOfXcv r) (s.transferred
        (sendEvents c tx lb b ++ readsAt c.regs.comIrq (vs ++ [last]) ++ tail) d)) ∧
      (∀ v ∈ vs, v &&& c.completionMask = 0#8) ∧ xcvEnding c cap last tail r := by
  obtain ⟨b, last, vs, tail, r, d, q, hrun, hend⟩ := run_xcvB_standard hs tx lb cap s
  exact ⟨b, last, vs, tail, r, d, run_transceive_levelB hb hrun t, hend⟩

theorem length_le_of_capResult {cap : Byte} {r : XcvResult} {rx : List Byte} {lastBits : BitVec 3}
    (h : capResult cap r = .ok rx lastBits) : rx.length ≤ cap.toNat := by
  cases r with
  | fail why => cases h
  | ok all bits => cases h; exact List.length_take_le _ _

/-- An `Ok` outcome fits the capacity, at either level and for any configured sequence (R185). -/
theorem transceive_ok_length {c : Config} {tx rx : List Byte} {lb lastBits : BitVec 3} {cap t : Byte} {s u : State}
    (h : (transceive c tx lb cap t).run s = .ok (.ok rx lastBits, u)) : rx.length ≤ cap.toNat := by
  cases hl : c.level with
  | a =>
    rw [run_transceive_levelA hl] at h
    exact length_le_of_capResult (Prod.mk.inj (Except.ok.inj h)).1
  | b =>
    obtain ⟨r, v, hv⟩ := (Prog.Quiet.runSequence c { tx := tx, lb := lb, cap := cap } c.xcvSteps .start).run s
    have hx : (xcvB c tx lb cap).run s = .ok (capResult cap r, v) := by rw [xcvB, Prog.run_bind_ok hv]; rfl
    rw [run_transceive_levelB hl hx] at h
    exact length_le_of_capResult (Prod.mk.inj (Except.ok.inj h)).1

/-- Before a standard exchange ends in `Ok`, a poll showed completion and the read after it no error (R187). -/
theorem transceive_ok_completed {c : Config} (hb : c.level = .b) (hs : c.xcvSteps = standardXcv) {tx rx : List Byte}
    {lb lastBits : BitVec 3} {cap t : Byte} {s u : State} (h : (transceive c tx lb cap t).run s = .ok (.ok rx lastBits, u)) :
    ∃ (v e : Byte) (before after : List LinkEvent), v &&& c.completionMask ≠ 0#8 ∧ e &&& c.errMask = 0#8 ∧
      u.link.hist = s.link.hist ++ before ++ readEvents c.regs.comIrq v ++ readEvents c.regs.error e ++ after := by
  obtain ⟨b, last, vs, tail, r, d, hstd, -, hend⟩ := run_transceive_standard hb hs tx lb cap t s
  obtain ⟨rfl, rfl⟩ := Prod.mk.inj (Except.ok.inj (h.symm.trans hstd))
  obtain ⟨hl, e, k, x, he, -, -, -, rfl⟩ := hend
  refine ⟨last, e, sendEvents c tx lb b ++ readsAt c.regs.comIrq vs, readEvents c.regs.fifoLevel k
    ++ readsAt c.regs.fifoData rx ++ readEvents c.regs.control x, hl, he, ?_⟩
  simp [State.transferred, readsAt, List.append_assoc]

/-- An exchange changes the link, the draws and the result status, and nothing else. -/
theorem transceive_kept {c : Config} {tx : List Byte} {lb : BitVec 3} {cap t : Byte} {s u : State} {r : XcvResult}
    (h : (transceive c tx lb cap t).run s = .ok (r, u)) : Kept { cs := true, hist := true, eng := true } s u :=
  (Lawful.transceive (fun _ => rfl) rfl rfl tx lb cap t).each.kept h

/-! ## The CRC computation -/

/-- A CRC computation records the code of the outcome its level gives. -/
theorem run_computeCrc_levelA {c : Config} (h : c.level = .a) (data : List Byte) (s : State) :
    (computeCrc c data).run s = .ok (s.draws.crc.1, { s with
      draws := s.draws.crc.2
      link := { s.link with hist := s.link.hist ++ [.crc data s.draws.crc.1] }
      eng := { lastResult := codeOfCrc s.draws.crc.1 } }) := by
  simp only [computeCrc, h]; rfl

theorem run_computeCrc_levelB {c : Config} (h : c.level = .b) {data : List Byte} {s u : State} {r : CrcResult}
    (hrun : (crcB c data).run s = .ok (r, u)) :
    (computeCrc c data).run s = .ok (r, State.setLast (codeOfCrc r) u) := by
  simp only [computeCrc, h]
  rw [Prog.run_bind_ok hrun]; rfl

/-! ## The operations that carry an exchange -/

/-- The instruction is the exchange with these operands (R104, R106, R184; notes/assumptions/10.md). -/
def CarriesExchange (i : Instr) (lb : BitVec 3) (cap t : Byte) (tx : List Byte) : Prop :=
  ∀ s, exec i s = perform ((transceive s.cfg tx lb cap t).bind fun r => .ret (xcvReturn r)) s

theorem carries_pxcv (lb : BitVec 3) (cap t : Byte) (tx : List Byte) : CarriesExchange (.pxcv lb cap t tx) lb cap t tx :=
  fun _ => rfl

theorem carries_reqa : CarriesExchange .reqa 7#3 2#8 50#8 [0x26#8] := fun _ => rfl

theorem carries_anticollCl1 : CarriesExchange .anticollCl1 0#3 5#8 50#8 [0x93#8, 0x20#8] := fun _ => rfl

section Carried

variable {i : Instr} {lb : BitVec 3} {cap t : Byte} {tx : List Byte}

theorem CarriesExchange.exec_eq (hi : CarriesExchange i lb cap t tx) {s u : State} {r : XcvResult}
    (h : (transceive s.cfg tx lb cap t).run s = .ok (r, u)) : exec i s = .next (State.returning (xcvReturn r) u) :=
  (hi s).trans (perform_bind_ret h xcvReturn)

/-- The standard exchange at level B, from the initial state to the value returned. -/
theorem CarriesExchange.exec_levelB (hi : CarriesExchange i lb cap t tx) {s : State} (hb : s.cfg.level = .b)
    (hs : s.cfg.xcvSteps = standardXcv) : ∃ b last vs tail r d,
      exec i s = .next (State.returning (xcvReturn r) (State.setLast (codeOfXcv r) (s.transferred
        (sendEvents s.cfg tx lb b ++ readsAt s.cfg.regs.comIrq (vs ++ [last]) ++ tail) d))) ∧
      (∀ v ∈ vs, v &&& s.cfg.completionMask = 0#8) ∧ xcvEnding s.cfg cap last tail r := by
  obtain ⟨b, last, vs, tail, r, d, hrun, hend⟩ := run_transceive_standard hb hs tx lb cap t s
  exact ⟨b, last, vs, tail, r, d, hi.exec_eq hrun, hend⟩

end Carried

/-! ## The check byte (R191) -/

theorem xorFold_cons (b : Byte) (l : List Byte) : xorFold (b :: l) = b ^^^ xorFold l := rfl

/-- A flipped bit is flipped in the fold. -/
theorem xorFold_flipBit {i : Nat} {l : List Byte} (h : i < l.length) (k : Nat) :
    xorFold (flipBit i k l) = xorFold l ^^^ (1#8 <<< k) := by
  unfold flipBit
  induction l generalizing i with
  | nil => simp at h
  | cons b l ih =>
    cases i with
    | zero =>
      rw [List.set_cons_zero, List.getD_cons_zero, xorFold_cons, xorFold_cons, BitVec.xor_assoc, BitVec.xor_assoc,
        BitVec.xor_comm (1#8 <<< k)]
    | succ i =>
      rw [List.set_cons_succ, List.getD_cons_succ, xorFold_cons, xorFold_cons, ih (Nat.lt_of_succ_lt_succ h),
        BitVec.xor_assoc]

@[simp] theorem length_flipBit (i k : Nat) (l : List Byte) : (flipBit i k l).length = l.length := List.length_set

theorem bccOk_iff (u0 u1 u2 u3 u4 : Byte) : bccOk [u0, u1, u2, u3, u4] = true ↔ u4 = u0 ^^^ u1 ^^^ u2 ^^^ u3 :=
  beq_iff_eq

/-- The check holds exactly when the five bytes fold to zero. -/
theorem bccOk_iff_xorFold {rx : List Byte} (h : rx.length = 5) : bccOk rx = true ↔ xorFold rx = 0x00#8 := by
  obtain ⟨u0, u1, u2, u3, u4, rfl⟩ : ∃ u0 u1 u2 u3 u4, rx = [u0, u1, u2, u3, u4] := by
    match rx, h with
    | [u0, u1, u2, u3, u4], _ => exact ⟨u0, u1, u2, u3, u4, rfl⟩
  have hfold : xorFold [u0, u1, u2, u3, u4] = (u0 ^^^ u1 ^^^ u2 ^^^ u3) ^^^ u4 := by
    simp only [xorFold, List.foldr_cons, List.foldr_nil, BitVec.xor_zero, BitVec.xor_assoc]
  rw [bccOk_iff, hfold, BitVec.xor_eq_zero_iff, eq_comm]

/-- A bit within the byte is no zero mask. -/
theorem one_shiftLeft_ne_zero {k : Nat} (h : k < 8) : (1#8 <<< k) ≠ 0x00#8 := by
  intro hz
  have hbit : (1#8 <<< k).getLsbD k = true := by simp [h]
  rw [hz] at hbit; simp at hbit

/-! ## The checks of an answer (R188, R190) -/

/-- What `checked` makes of an outcome, and the code it records. -/
theorem run_checked {p : Prog XcvResult} {s t : State} {r : XcvResult} (h : p.run s = .ok (r, t))
    (check : XcvResult → Except ResultCode (List Byte)) :
    (checked p check).run s = .ok (check r, State.setLast (codeOfCheck (check r)) t) := by
  rw [checked, Prog.run_bind_ok h]; rfl

section Checks

variable {rx : List Byte} {lastBits : BitVec 3}

theorem checkAtqa_badLength (hlen : rx.length ≠ 2) : checkAtqa (.ok rx lastBits) = .error .badLength := if_pos hlen

theorem checkAtqa_badLastBits (hlen : rx.length = 2) (hbits : lastBits ≠ 0#3) :
    checkAtqa (.ok rx lastBits) = .error .badLastBits :=
  (if_neg (not_not_intro hlen)).trans (if_pos hbits)

theorem checkAtqa_ok (hlen : rx.length = 2) (hbits : lastBits = 0#3) : checkAtqa (.ok rx lastBits) = .ok rx :=
  (if_neg (not_not_intro hlen)).trans (if_neg (not_not_intro hbits))

theorem checkUid_badLength (hlen : rx.length ≠ 5) : checkUid (.ok rx lastBits) = .error .badLength := if_pos hlen

/-- Of five bytes the check byte decides, and the last bits do not. -/
theorem checkUid_five (u0 u1 u2 u3 bcc : Byte) (lastBits : BitVec 3) : checkUid (.ok [u0, u1, u2, u3, bcc] lastBits) =
    if bcc = u0 ^^^ u1 ^^^ u2 ^^^ u3 then .ok [u0, u1, u2, u3] else .error .bccMismatch :=
  if_congr (bccOk_iff u0 u1 u2 u3 bcc) rfl rfl

end Checks

/-! ## The detector (R196, R197) -/

/-- No program depends on the last result. -/
theorem Prog.Each.run_returning {α : Type} {w : Writes} {p : Prog α} (hp : p.Each (Atom w)) {s t : State} {a : α}
    (h : p.run s = .ok (a, t)) (o : OpResult) : p.run (State.returning o s) = .ok (a, State.returning o t) := by
  have hk := hp.kept h
  have hrun := hp.schedule s s.moves s.seq.position (some o) rfl
  rw [h] at hrun
  exact hrun.trans (by rw [← hk.moves, ← hk.position]; rfl)

section Poll

variable {c : Config} {s t u : State}

theorem requestA_returns (c : Config) (s : State) : ∃ q t, (requestA c).run s = .ok (q, t) :=
  (Prog.Quiet.checked (.transceive c _ _ _ _) checkAtqa).run s

/-- `PANTICOLL` answers, and an identifier it accepts has four bytes. -/
theorem anticollide_returns (c : Config) (s : State) :
    ∃ q t, (anticollide c).run s = .ok (q, t) ∧ ∀ uid, q = .ok uid → uid.length = 4 := by
  obtain ⟨r, t, hrun⟩ := (Prog.Quiet.transceive c [0x93#8, 0x20#8] 0#3 5#8 Config.anticollBound).run s
  exact ⟨checkUid r, _, run_checked hrun checkUid, checkUid_length r⟩

theorem run_testTag_bind {α : Type} (k : Bool → Prog α) (s : State) :
    ((Prog.askBit State.testTag).bind k).run s = (k s.tag.valid).run s := rfl

theorem run_tagAvailLive_buffered (hv : s.tag.valid = true) : (tagAvailLive c).run s = .ok (true, s) := by
  rw [tagAvailLive, run_testTag_bind, if_pos hv, Prog.run_ret]

theorem run_tagAvailLive_unanswered {q : ResultCode} (hv : s.tag.valid = false)
    (hreq : (requestA c).run s = .ok (.error q, t)) : (tagAvailLive c).run s = .ok (false, t) := by
  rw [tagAvailLive, run_testTag_bind, if_neg (Bool.eq_false_iff.mp hv)]
  exact Prog.run_bind_ok hreq _

theorem run_tagAvailLive_rejected {atqa : List Byte} {q : ResultCode} (hv : s.tag.valid = false)
    (hreq : (requestA c).run s = .ok (.ok atqa, t)) (hanti : (anticollide c).run t = .ok (.error q, u)) :
    (tagAvailLive c).run s = .ok (false, u) := by
  rw [tagAvailLive, run_testTag_bind, if_neg (Bool.eq_false_iff.mp hv)]
  exact (Prog.run_bind_ok hreq _).trans (Prog.run_bind_ok hanti _)

theorem run_tagAvailLive_found {atqa uid : List Byte} (hv : s.tag.valid = false)
    (hreq : (requestA c).run s = .ok (.ok atqa, t)) (hanti : (anticollide c).run t = .ok (.ok uid, u)) :
    (tagAvailLive c).run s = .ok (true, { u with tag := { valid := true, bytes := uid } }) := by
  rw [tagAvailLive, run_testTag_bind, if_neg (Bool.eq_false_iff.mp hv)]
  exact (Prog.run_bind_ok hreq _).trans (Prog.run_bind_ok hanti _)

/-- The Live poll is what `TAGAVAIL` runs, and it cannot fail. -/
theorem exec_tagavail_live {b : Bool} (hl : s.cfg.backend = .live) (h : (tagAvailLive s.cfg).run s = .ok (b, t)) :
    exec .tagavail s = .next (State.returning (.bit b) t) := by
  refine perform_bind_ret (Eq.trans ?_ h) OpResult.bit
  rw [tagAvailable, hl]

/-- An exchange and its checks do not touch the configuration. -/
theorem requestA_cfg {q : Except ResultCode (List Byte)} (h : (requestA c).run s = .ok (q, t)) : t.cfg = s.cfg :=
  ((Lawful.requestA (w := { cs := true, hist := true, eng := true }) (fun _ => rfl) rfl rfl).each.kept h).cfg

theorem anticollide_each : (anticollide c).Each (Atom { cs := true, hist := true, eng := true }) :=
  (Lawful.anticollide (fun _ => rfl) rfl rfl).each

theorem exec_readtag_nothing {n : Byte} (h : s.tag.valid = false ∨ n.toNat = 0) :
    exec (.readtag n) s = .next (State.returning (.copied 0 []) s) :=
  perform_bind_ret ((run_readTag n.toNat s).trans (if_pos h)) fun out => .copied out.length out

theorem exec_readtag_copies {n : Byte} (h : ¬ (s.tag.valid = false ∨ n.toNat = 0)) : exec (.readtag n) s =
    .next (State.returning (.copied (s.tag.bytes.take n.toNat).length (s.tag.bytes.take n.toNat))
      { s with tag := { s.tag with valid := false } }) :=
  perform_bind_ret ((run_readTag n.toNat s).trans (if_neg h)) fun out => .copied out.length out

end Poll

end Sys2Proof.Machine

namespace Sys2Proof.Anticollision

/-! ## The statements, in a namespace of their own: `Machine.readTag` is a program -/

open Machine

/-- Settles O15: the closed form of the initialisation sequence. -/
theorem initialiseReader : Obligations.InitialiseReader := fun s => perform_andThen_ret (run_initReader s.cfg s) .unit

/-- Settles O17: the three operations carry the exchange, and the standard sequence gives its transfers. -/
theorem exchangeLevelB : Obligations.ExchangeLevelB :=
  ⟨fun lb cap t tx _ hb hs => (carries_pxcv lb cap t tx).exec_levelB hb hs, fun _ hb hs => carries_reqa.exec_levelB hb hs,
    fun _ hb hs => carries_anticollCl1.exec_levelB hb hs⟩

/-- Settles O23: the transfers of the standard sequence around its wait. -/
theorem crcLevelB : Obligations.CrcLevelB := by
  intro data s hb hs
  obtain ⟨last, vs, tail, r, d, q, hrun, hclear, hend⟩ := run_crcB_standard hs data s
  exact ⟨last, vs, tail, r, d, perform_bind_ret (run_computeCrc_levelB hb hrun) crcReturn, hclear, hend⟩

/-- The laws of O18 for any operation that carries an exchange. -/
theorem carried_laws {i : Instr} {lb : BitVec 3} {cap t : Byte} {tx : List Byte} (hi : CarriesExchange i lb cap t tx)
    (s : State) :
    ∃ (u : State) (r : XcvResult), exec i s = .next u ∧ u.result = some (xcvReturn r) ∧
      u.tag = s.tag ∧ u.record = s.record ∧ u.loaded = s.loaded ∧ u.sim = s.sim ∧ u.pfl = s.pfl ∧
      ∀ rx lastBits, r = .ok rx lastBits → rx.length ≤ cap.toNat ∧
        (s.cfg.level = .b → s.cfg.xcvSteps = standardXcv → ∃ (v e : Byte) (before after : List LinkEvent),
          v &&& s.cfg.completionMask ≠ 0#8 ∧ e &&& s.cfg.errMask = 0#8 ∧
          u.link.hist = s.link.hist ++ before ++ readEvents s.cfg.regs.comIrq v
            ++ readEvents s.cfg.regs.error e ++ after) := by
  obtain ⟨r, u, hrun⟩ := (Prog.Quiet.transceive s.cfg tx lb cap t).run s
  have hk := transceive_kept hrun
  refine ⟨_, r, hi.exec_eq hrun, rfl, hk.tag rfl, (hk.store rfl).1, hk.loaded rfl, (hk.sim rfl).1, (hk.latch rfl).1, ?_⟩
  rintro rx lastBits rfl
  refine ⟨transceive_ok_length hrun, fun hb hs => ?_⟩
  have hdone := transceive_ok_completed hb hs hrun
  exact hdone

/-- Settles O18: three operations carry an exchange. -/
theorem transceiveLaws : Obligations.TransceiveLaws :=
  ⟨fun lb cap t tx => carried_laws (carries_pxcv lb cap t tx), carried_laws carries_reqa, carried_laws carries_anticollCl1⟩

/-- Settles O19: the exchange of `PXCV`, and `checkAtqa` of its outcome. -/
theorem requestAnswer : Obligations.RequestAnswer := by
  intro s
  obtain ⟨r, u, hrun⟩ := (Prog.Quiet.transceive s.cfg [0x26#8] 7#3 2#8 50#8).run s
  refine ⟨_, r, codeOfCheck (checkAtqa r), checkReturn (checkAtqa r), (carries_pxcv _ _ _ _).exec_eq hrun, rfl,
    perform_bind_ret (run_checked hrun checkAtqa) checkReturn, ?_, ?_⟩
  · rintro w rfl
    exact ⟨rfl, rfl⟩
  · rintro rx lastBits rfl
    refine ⟨fun hlen => ?_, fun hlen hbits => ?_, fun hlen hbits => ?_⟩
    · rw [checkAtqa_badLength hlen]; exact ⟨rfl, rfl⟩
    · rw [checkAtqa_badLastBits hlen hbits]; exact ⟨rfl, rfl⟩
    · rw [checkAtqa_ok hlen hbits]; exact ⟨rfl, rfl⟩

/-- Settles O20: the exchange of `PXCV`, and `checkUid` of its outcome. -/
theorem anticollisionAnswer : Obligations.AnticollisionAnswer := by
  intro s
  obtain ⟨r, u, hrun⟩ := (Prog.Quiet.transceive s.cfg [0x93#8, 0x20#8] 0#3 5#8 50#8).run s
  refine ⟨_, r, codeOfCheck (checkUid r), checkReturn (checkUid r), (carries_pxcv _ _ _ _).exec_eq hrun, rfl,
    perform_bind_ret (run_checked hrun checkUid) checkReturn, ?_, ?_, ?_⟩
  · rintro w rfl
    exact ⟨rfl, rfl⟩
  · rintro rx lastBits rfl hlen
    rw [checkUid_badLength hlen]; exact ⟨rfl, rfl⟩
  · rintro u0 u1 u2 u3 bcc lastBits rfl
    refine ⟨fun hbad => ?_, fun hgood => ?_⟩
    · rw [checkUid_five, if_neg hbad]; exact ⟨rfl, rfl⟩
    · rw [checkUid_five, if_pos hgood]; exact ⟨rfl, rfl⟩

/-- Settles O21: a flip changes the fold by its one bit, and the same bit twice by nothing. -/
theorem checkByte : Obligations.CheckByte := by
  refine ⟨fun u0 u1 u2 u3 u4 => ⟨bccOk_iff u0 u1 u2 u3 u4, bccOk_iff_xorFold rfl⟩, ?_, by decide⟩
  intro rx i j k hlen hi hj _ hk hok
  have hfold : xorFold (flipBit i k rx) = 1#8 <<< k := by
    rw [xorFold_flipBit (hlen ▸ hi), (bccOk_iff_xorFold hlen).mp hok, BitVec.zero_xor]
  refine ⟨Bool.eq_false_iff.mpr fun h => ?_, (bccOk_iff_xorFold (by simp [hlen])).mpr ?_⟩
  · exact one_shiftLeft_ne_zero hk (hfold.symm.trans ((bccOk_iff_xorFold (by simp [hlen])).mp h))
  · rw [xorFold_flipBit (by simpa [hlen] using hj), hfold, BitVec.xor_self]

/-- Settles O24: the two exchanges of the poll are those of `PREQA` and `PANTICOLL`, which do not see the last result. -/
theorem liveTagPoll : Obligations.LiveTagPoll := by
  intro s hlive
  refine ⟨fun hv => exec_tagavail_live hlive (run_tagAvailLive_buffered hv), fun hv => ?_⟩
  obtain ⟨answer, t, hreq⟩ := requestA_returns s.cfg s
  refine ⟨_, perform_bind_ret hreq checkReturn, ?_⟩
  cases answer with
  | error q =>
    have hfalse := exec_tagavail_live hlive (run_tagAvailLive_unanswered hv hreq)
    exact .inl ⟨q, rfl, hfalse⟩
  | ok atqa =>
    obtain ⟨answer, u, hanti, hlen⟩ := anticollide_returns s.cfg t
    have hexec : exec .panticoll (State.returning (.bytes atqa) t) =
        .next (State.returning (checkReturn answer) (State.returning (.bytes atqa) u)) := by
      rw [exec_eq_perform, State.returning_cfg, requestA_cfg hreq]
      exact perform_bind_ret (anticollide_each.run_returning hanti _) checkReturn
    refine .inr ⟨atqa, _, rfl, hexec, ?_⟩
    cases answer with
    | error q =>
      have hfalse := exec_tagavail_live hlive (run_tagAvailLive_rejected hv hreq hanti)
      exact .inl ⟨q, rfl, hfalse⟩
    | ok uid =>
      have hfound := exec_tagavail_live hlive (run_tagAvailLive_found hv hreq hanti)
      exact .inr ⟨uid, rfl, hlen uid rfl, hfound⟩

/-- Settles O16: at level A the exchange is its draw. -/
theorem exchangeLevelA : Obligations.ExchangeLevelA := fun lb cap t tx _ ha =>
  ⟨(carries_pxcv lb cap t tx).exec_eq (run_transceive_levelA ha ..), carries_reqa.exec_eq (run_transceive_levelA ha ..),
    carries_anticollCl1.exec_eq (run_transceive_levelA ha ..)⟩

/-- Settles O22: at level A the computation is its draw. -/
theorem crcLevelA : Obligations.CrcLevelA := fun data s ha =>
  perform_bind_ret (run_computeCrc_levelA ha data s) crcReturn

/-- Settles O28: the two branches of `READTAG`; after the second one nothing is buffered. -/
theorem readTag : Obligations.ReadTag := by
  intro n s
  have hzero : n = 0x00#8 ↔ n.toNat = 0 := BitVec.toNat_eq
  refine ⟨fun h => exec_readtag_nothing (h.imp_right hzero.mp),
    fun hv hn => ⟨_, ?_, rfl, fun m => exec_readtag_nothing (.inl rfl)⟩⟩
  have hroom : ¬ (s.tag.valid = false ∨ n.toNat = 0) := by simp [hv, ← hzero, hn]
  have htake : s.tag.bytes.take n.toNat = s.tag.bytes.take (min s.tag.len n.toNat) :=
    List.take_eq_take_iff.mpr (by rw [Tag.len]; omega)
  have hlen : (s.tag.bytes.take n.toNat).length = min s.tag.len n.toNat := by rw [List.length_take, Nat.min_comm]; rfl
  rw [← htake, ← hlen]
  exact exec_readtag_copies hroom

end Sys2Proof.Anticollision
end

section
/-! SUPPORT. The Simulated backend (43_simulated_frontend.md R241 to R248; O25 to O27): what a line decodes to, what one
`TAGAVAIL` does with the character it takes, and a whole line taken character by character. -/

namespace Sys2Proof.Machine

/-! ## Characters (R241) -/

theorem isTerm_iff (c : Byte) : isTerm c = true ↔ c = 0x0D#8 ∨ c = 0x0A#8 := by simp [isTerm]

theorem isTerm_eq_false {c : Byte} (hr : c ≠ 0x0D#8) (hn : c ≠ 0x0A#8) : isTerm c = false := by simp [isTerm, hr, hn]

/-- A digit's offset in its range, cut to four bits. -/
theorem setWidth_sub_eq_ofNat {c k : Byte} (h : k ≤ c) : (c - k).setWidth 4 = BitVec.ofNat 4 (c.toNat - k.toNat) := by
  rw [← BitVec.ofNat_toNat, BitVec.toNat_sub_of_le h]

theorem hexval_decimal {c : Byte} (h : 0x30 ≤ c.toNat ∧ c.toNat ≤ 0x39) :
    hexval c = some (BitVec.ofNat 4 (c.toNat - 0x30)) :=
  (if_pos h).trans (congrArg some (setWidth_sub_eq_ofNat (k := 0x30#8) h.1))

theorem hexval_upper {c : Byte} (h : 0x41 ≤ c.toNat ∧ c.toNat ≤ 0x46) :
    hexval c = some (BitVec.ofNat 4 (c.toNat - 0x37)) := by
  have hdec : ¬ (0x30#8 ≤ c ∧ c ≤ 0x39#8) := by bv_omega
  have hle : 0x37#8 ≤ c := by bv_omega
  rw [hexval, if_neg hdec]
  exact (if_pos h).trans (congrArg some (setWidth_sub_eq_ofNat hle))

theorem hexval_lower {c : Byte} (h : 0x61 ≤ c.toNat ∧ c.toNat ≤ 0x66) :
    hexval c = some (BitVec.ofNat 4 (c.toNat - 0x57)) := by
  have hdec : ¬ (0x30#8 ≤ c ∧ c ≤ 0x39#8) := by bv_omega
  have hupper : ¬ (0x41#8 ≤ c ∧ c ≤ 0x46#8) := by bv_omega
  have hle : 0x57#8 ≤ c := by bv_omega
  rw [hexval, if_neg hdec, if_neg hupper]
  exact (if_pos h).trans (congrArg some (setWidth_sub_eq_ofNat hle))

theorem hexval_none {c : Byte} (h : c.toNat < 0x30 ∨ (0x39 < c.toNat ∧ c.toNat < 0x41) ∨
    (0x46 < c.toNat ∧ c.toNat < 0x61) ∨ 0x66 < c.toNat) : hexval c = none := by
  have hdec : ¬ (0x30#8 ≤ c ∧ c ≤ 0x39#8) := by bv_omega
  have hupper : ¬ (0x41#8 ≤ c ∧ c ≤ 0x46#8) := by bv_omega
  have hlower : ¬ (0x61#8 ≤ c ∧ c ≤ 0x66#8) := by bv_omega
  rw [hexval, if_neg hdec, if_neg hupper, if_neg hlower]

/-! ## Lines (R243) -/

theorem length_pairDigits : ∀ ds : List (BitVec 4), (pairDigits ds).length = ds.length / 2
  | [] => rfl
  | [_] => by simp [pairDigits]
  | _ :: _ :: ds => by simp only [pairDigits, List.length_cons, length_pairDigits ds]; omega

/-- Every pair of digits is one byte, the first digit its high half. -/
theorem getElem?_pairDigits : ∀ (ds : List (BitVec 4)) (j : Nat), j < ds.length / 2 →
    ∃ hi lo, ds[2 * j]? = some hi ∧ ds[2 * j + 1]? = some lo ∧
      (pairDigits ds)[j]? = some ((hi.setWidth 8 <<< 4) ||| lo.setWidth 8)
  | [], _, hj => absurd hj (by simp)
  | [_], _, hj => absurd hj (by simp)
  | hi :: lo :: _, 0, _ => ⟨hi, lo, rfl, rfl, rfl⟩
  | _ :: _ :: ds, j + 1, hj => getElem?_pairDigits ds j (by simp only [List.length_cons] at hj; omega)

/-- Separators do not count. -/
theorem decodeLine_filter_isHex (l : List Byte) : decodeLine (l.filter isHex) = decodeLine l := by
  have hdigit : ∀ c : Byte, (if isHex c = true then hexval c else none) = hexval c := fun c => by
    cases h : hexval c <;> simp [isHex, h]
  simp only [decodeLine, List.filterMap_filter, hdigit]

/-! ## One poll (R242, R244, R246) -/

/-- The state after polls that took characters and found no identifier: `rest` still waits, and `line` has accumulated. -/
def State.awaiting (rest line : List Byte) (s : State) : State :=
  { s with inp := { s.inp with chars := rest }, sim := { line := line }, result := some (.bit false) }

section Poll

variable {s t : State} {c : Byte} {cs : List Byte}

/-- The Simulated poll is what `TAGAVAIL` runs, and it cannot fail. -/
theorem exec_tagavail_sim {b : Bool} (hb : s.cfg.backend = .sim) (h : tagAvailSim.run s = .ok (b, t)) :
    exec .tagavail s = .next (State.returning (.bit b) t) := by
  refine perform_bind_ret (Eq.trans ?_ h) OpResult.bit
  rw [tagAvailable, hb]

theorem run_tagAvailSim_buffered (hv : s.tag.valid = true) : tagAvailSim.run s = .ok (true, s) := by
  rw [tagAvailSim, run_testTag_bind, if_pos hv, Prog.run_ret]

theorem run_popChar_nil (hc : s.inp.chars = []) : popChar.run s = .ok ([], s) := by
  rw [popChar, Prog.run_askBytes, State.takeChar, hc]; rfl

theorem run_popChar_cons (hc : s.inp.chars = c :: cs) :
    popChar.run s = .ok ([c], { s with inp := { s.inp with chars := cs } }) := by
  rw [popChar, Prog.run_askBytes, State.takeChar, hc]; rfl

theorem run_tagAvailSim_empty (hv : s.tag.valid = false) (hc : s.inp.chars = []) : tagAvailSim.run s = .ok (false, s) := by
  rw [tagAvailSim, run_testTag_bind, if_neg (Bool.eq_false_iff.mp hv), Prog.run_bind_ok (run_popChar_nil hc)]; rfl

/-- A poll that takes a character handles it and then answers whether an identifier is buffered. -/
theorem run_tagAvailSim_char (hv : s.tag.valid = false) (hc : s.inp.chars = c :: cs)
    (h : (if isTerm c then completeLine else .tell (State.accumulate c)).run { s with inp := { s.inp with chars := cs } } =
      .ok ((), t)) : tagAvailSim.run s = .ok (t.tag.valid, t) := by
  rw [tagAvailSim, run_testTag_bind, if_neg (Bool.eq_false_iff.mp hv), Prog.run_bind_ok (run_popChar_cons hc)]
  exact Prog.run_andThen_ok h _

theorem exec_tagavail_terminator {b : Bool} (hb : s.cfg.backend = .sim) (hv : s.tag.valid = false)
    (hc : s.inp.chars = c :: cs) (hterm : isTerm c = true)
    (h : completeLine.run { s with inp := { s.inp with chars := cs } } = .ok ((), t)) (ht : t.tag.valid = b) :
    exec .tagavail s = .next (State.returning (.bit b) t) := by
  subst ht
  exact exec_tagavail_sim hb (run_tagAvailSim_char hv hc (by rw [if_pos hterm, h]))

theorem exec_tagavail_other {b : Bool} (hb : s.cfg.backend = .sim) (hv : s.tag.valid = false)
    (hc : s.inp.chars = c :: cs) (hterm : isTerm c = false)
    (h : State.accumulate c { s with inp := { s.inp with chars := cs } } = t) (ht : t.tag.valid = b) :
    exec .tagavail s = .next (State.returning (.bit b) t) := by
  subst ht
  exact exec_tagavail_sim hb (run_tagAvailSim_char hv hc (by rw [if_neg (Bool.eq_false_iff.mp hterm), Prog.run_tell, h]))

/-- The closed form of the line's completion (R244). -/
theorem run_completeLine (s : State) : completeLine.run s = .ok ((),
    if (decodeLine s.sim.line).length < 4 then { s with sim := { line := [] } }
    else { s with sim := { line := [] }, tag := { valid := true, bytes := (decodeLine s.sim.line).take 4 } }) := by
  by_cases h : (decodeLine s.sim.line).length < 4
  · simp [completeLine, Prog.run_bind, Prog.andThen, State.setLine, Config.simMinPairs, h]
  · simp [completeLine, bufferTag, Prog.run_bind, Prog.andThen, State.setLine, State.fillTag, State.setTagValid,
      Config.simMinPairs, Config.uidLen, h]

/-- A terminator ends a line of fewer than four pairs, which is ignored. -/
theorem exec_tagavail_ignored (hb : s.cfg.backend = .sim) (hv : s.tag.valid = false) (hc : s.inp.chars = c :: cs)
    (hterm : isTerm c = true) (hshort : (decodeLine s.sim.line).length < 4) :
    exec .tagavail s = .next (s.awaiting cs []) := by
  have hrun := run_completeLine { s with inp := { s.inp with chars := cs } }
  rw [if_pos hshort] at hrun
  exact exec_tagavail_terminator hb hv hc hterm hrun hv

/-- A terminator ends a line of at least four pairs, whose first four are the identifier. -/
theorem exec_tagavail_accepted (hb : s.cfg.backend = .sim) (hv : s.tag.valid = false) (hc : s.inp.chars = c :: cs)
    (hterm : isTerm c = true) (hlong : 4 ≤ (decodeLine s.sim.line).length) :
    exec .tagavail s = .next { s with
      inp := { s.inp with chars := cs }
      sim := { line := [] }
      tag := { valid := true, bytes := (decodeLine s.sim.line).take 4 }
      result := some (.bit true) } := by
  have hrun := run_completeLine { s with inp := { s.inp with chars := cs } }
  rw [if_neg (Nat.not_lt_of_le hlong)] at hrun
  exact exec_tagavail_terminator hb hv hc hterm hrun rfl

/-- Another character is kept while the line has room. -/
theorem exec_tagavail_accumulates (hb : s.cfg.backend = .sim) (hv : s.tag.valid = false) (hc : s.inp.chars = c :: cs)
    (hterm : isTerm c = false) (hroom : s.sim.line.length < 64) :
    exec .tagavail s = .next (s.awaiting cs (s.sim.line ++ [c])) :=
  exec_tagavail_other hb hv hc hterm (if_pos hroom) hv

/-- Without room it is lost, and the whole line with it. -/
theorem exec_tagavail_overflows (hb : s.cfg.backend = .sim) (hv : s.tag.valid = false) (hc : s.inp.chars = c :: cs)
    (hterm : isTerm c = false) (hfull : 64 ≤ s.sim.line.length) :
    exec .tagavail s = .next (s.awaiting cs []) :=
  exec_tagavail_other hb hv hc hterm (if_neg (Nat.not_lt_of_le hfull)) hv

end Poll

/-! ## Polls in a row (R248) -/

theorem repeatExec_succ {i : Instr} {s t : State} (h : exec i s = .next t) (n : Nat) :
    repeatExec i (n + 1) s = repeatExec i n t := by
  rw [repeatExec, h]

theorem repeatExec_one (i : Instr) (s : State) : repeatExec i 1 s = exec i s := by
  rw [repeatExec]
  cases exec i s <;> rfl

/-- Repetitions in two parts. -/
theorem repeatExec_add {i : Instr} {m : Nat} {s t : State} (h : repeatExec i m s = .next t) (n : Nat) :
    repeatExec i (m + n) s = repeatExec i n t := by
  induction m generalizing s with
  | zero => cases h; rw [Nat.zero_add]
  | succ m ih =>
    rw [Nat.succ_add]
    cases hexec : exec i s with
    | next u => rw [repeatExec_succ hexec] at h ⊢; exact ih h
    | fault f => rw [repeatExec, hexec] at h; cases h
    | refused r => rw [repeatExec, hexec] at h; cases h

section Lines

variable {s : State}

/-- Polls in a row take as many non-terminators, while they fit the line. -/
theorem repeatExec_tagavail_chars {l rest : List Byte} (hb : s.cfg.backend = .sim) (hv : s.tag.valid = false)
    (hc : s.inp.chars = l ++ rest) (hne : l ≠ []) (hterm : ∀ c ∈ l, isTerm c = false)
    (hfit : s.sim.line.length + l.length ≤ 64) :
    repeatExec .tagavail l.length s = .next (s.awaiting rest (s.sim.line ++ l)) := by
  induction l generalizing s with
  | nil => exact absurd rfl hne
  | cons c cs ih =>
    rw [List.length_cons] at hfit
    have hfirst := exec_tagavail_accumulates hb hv hc (hterm c List.mem_cons_self) (by omega)
    rw [List.length_cons, repeatExec_succ hfirst]
    by_cases hcs : cs = []
    · subst hcs; rfl
    · have hlen : (s.sim.line ++ [c]).length + cs.length ≤ 64 := by rw [List.length_append, List.length_singleton]; omega
      refine (ih (s := s.awaiting (cs ++ rest) (s.sim.line ++ [c])) hb hv rfl hcs
        (fun x hx => hterm x (List.mem_cons_of_mem c hx)) hlen).trans ?_
      simp [State.awaiting]

/-- The poll that takes the terminator of a line with four pairs finds its identifier, and the line buffer is as it was. -/
theorem repeatExec_tagavail_line {line rest : List Byte} {term : Byte} (hb : s.cfg.backend = .sim)
    (hv : s.tag.valid = false) (hempty : s.sim.line = []) (hc : s.inp.chars = line ++ term :: rest)
    (hchars : ∀ c ∈ line, isTerm c = false) (hterm : isTerm term = true) (hfit : line.length ≤ 64)
    (hlong : 4 ≤ (decodeLine line).length) :
    repeatExec .tagavail (line.length + 1) s = .next { s with
      inp := { s.inp with chars := rest }
      tag := { valid := true, bytes := (decodeLine line).take 4 }
      result := some (.bit true) } := by
  have hne : line ≠ [] := by rintro rfl; exact absurd hlong (by decide)
  have htaken := repeatExec_tagavail_chars hb hv hc hne hchars (by rwa [hempty, List.length_nil, Nat.zero_add])
  rw [hempty, List.nil_append] at htaken
  have hfound := exec_tagavail_accepted (s := s.awaiting (term :: rest) line) hb hv rfl hterm hlong
  have hsim : s.sim = { line := [] } := congrArg Sim.mk hempty
  rw [repeatExec_add htaken, repeatExec_one, hfound, hsim]
  rfl

/-- Four buffered bytes are read whole where there is room for them (R197). -/
theorem exec_readtag_four {n : Byte} (hv : s.tag.valid = true) (hfour : s.tag.bytes.length = 4) (hroom : 4 ≤ n.toNat) :
    exec (.readtag n) s =
      .next (State.returning (.copied 4 s.tag.bytes) { s with tag := { s.tag with valid := false } }) := by
  have hsome : ¬ (s.tag.valid = false ∨ n.toNat = 0) := not_or.mpr ⟨by simp [hv], by omega⟩
  rw [exec_readtag_copies hsome, List.take_of_length_le (hfour ▸ hroom), hfour]

end Lines

/-! ## The statements -/

/-- Settles O25: the poll without a character, and the four things that can happen to the one it takes. -/
theorem simulatedStep : Obligations.SimulatedStep := by
  intro s hb
  refine ⟨fun hv => exec_tagavail_sim hb (run_tagAvailSim_buffered hv),
    fun hv hc => exec_tagavail_sim hb (run_tagAvailSim_empty hv hc), fun c cs hv hc => ⟨?_, ?_, ?_, ?_⟩⟩
  · exact fun hterm => exec_tagavail_ignored hb hv hc ((isTerm_iff c).mpr hterm)
  · exact fun hterm => exec_tagavail_accepted hb hv hc ((isTerm_iff c).mpr hterm)
  · exact fun hr hn => exec_tagavail_accumulates hb hv hc (isTerm_eq_false hr hn)
  · exact fun hr hn => exec_tagavail_overflows hb hv hc (isTerm_eq_false hr hn)

/-- Settles O26: digits are paired by the recursion of `pairDigits`, and the separators are filtered out before it. -/
theorem lineDecoding : Obligations.LineDecoding :=
  ⟨fun l => ⟨length_pairDigits (l.filterMap hexval), getElem?_pairDigits (l.filterMap hexval)⟩,
    fun l k h => by rw [← decodeLine_filter_isHex l, h, decodeLine_filter_isHex],
    fun _ => ⟨hexval_decimal, hexval_upper, hexval_lower, hexval_none⟩⟩

/-- Settles O27: the polls before the terminator each take one character, and `READTAG` copies the four bytes once. -/
theorem simulatedLine : Obligations.SimulatedLine := by
  intro s line rest term maxLen again hb hv hempty hc hchars hterm hfit hlong hroom
  refine ⟨fun k hk hle => ?_, ?_⟩
  · have hlen : (line.take k).length = k := List.length_take_of_le hle
    have hsplit : s.inp.chars = line.take k ++ (line.drop k ++ term :: rest) := by
      rw [hc, ← List.append_assoc, List.take_append_drop]
    have hne : line.take k ≠ [] := List.ne_nil_of_length_pos (hlen.symm ▸ hk)
    have hrun := repeatExec_tagavail_chars hb hv hsplit hne (fun c hmem => hchars c (List.mem_of_mem_take hmem))
      (by rw [hempty, hlen, List.length_nil, Nat.zero_add]; exact hle.trans hfit)
    rw [hlen] at hrun
    exact ⟨_, hrun, rfl⟩
  · have hbytes : ((decodeLine line).take 4).length = 4 := List.length_take_of_le hlong
    exact ⟨_, _, _, repeatExec_tagavail_line hb hv hempty hc hchars hterm hfit hlong, rfl,
      exec_readtag_four rfl hbytes hroom, rfl, exec_readtag_nothing (.inl rfl), rfl⟩

end Sys2Proof.Machine
end

section
/-! SUPPORT. The persisted record (44_state_record.md R270 to R278; O29 to O33): what `SLOAD` and `SSAVE` do from every state
in terms of the record they leave stored, and which flips its checksum misses. -/

namespace Sys2Proof.Machine

/-! ## Storing a record whole -/

/-- The state in which one write has stored `r` and the copy holds it. -/
def State.storing (r : Record) (s : State) : State :=
  { State.memWrite Config.recordOffset r.bytes s with record := r, loaded := true }

section Storing

variable (r : Record) (s : State)

theorem State.storing_recordBytes : (State.storing r s).recordBytes = r.bytes := recordBytes_memWrite r s

/-- Storing the record touches offsets 0 to 4 alone (R66). -/
theorem State.storing_read_other {a : Nat} (h : 5 ≤ a) :
    Memory.read (State.storing r s).durable a = Memory.read s.durable a :=
  Memory.read_writeBytes_other r.bytes s.durable Config.recordOffset a (.inr (by simpa [Config.recordOffset] using h))

/-- What is stored at offsets 0 to 4 is some record, valid or not. -/
theorem State.exists_recordBytes : ∃ q : Record, s.recordBytes = q.bytes :=
  ⟨_, (Record.bytes_ofBytes _ s.length_recordBytes).symm⟩

end Storing

/-! ## Whole operations -/

section Exec

variable {s : State} {r : Record}

/-- `SLOAD` takes a valid stored record as it is (R274). -/
theorem exec_sload_stored (hstored : s.recordBytes = r.bytes) (hvalid : r.valid s.cfg = true) :
    exec .sload s = .next { s with record := r, loaded := true, result := some (.bytes r.bytes) } := by
  have hrun := run_loadRecord_valid (c := s.cfg) (s := s) (by rwa [hstored, Record.ofBytes_bytes])
  rw [hstored, Record.ofBytes_bytes] at hrun
  exact perform_bind_ret hrun .bytes

/-- `SLOAD` heals a corrupt stored record (R274). -/
theorem exec_sload_corrupt (h : (Record.ofBytes s.recordBytes).valid s.cfg = false) :
    exec .sload s = .next (State.returning (.bytes (defaultRecord s.cfg.magic).bytes)
      (State.storing (defaultRecord s.cfg.magic) s)) :=
  perform_bind_ret (run_loadRecord_corrupt h) .bytes

/-- `SSAVE` stores the sealed copy (R276). -/
theorem exec_ssave_held (h : s.held = some r) :
    exec .ssave s = .next (State.returning .unit (State.storing (r.sealed s.cfg.magic) s)) := by
  obtain ⟨hloaded, rfl⟩ := State.held_eq_some.mp h
  refine (perform_andThen_ret (run_persist_some s.cfg hloaded) .unit).trans ?_
  simp only [State.storing, State.memWrite, hloaded]

/-- `SSAVE` of a valid copy stores it as it is: its magic and its checksum are already those it would get. -/
theorem exec_ssave_valid (h : s.held = some r) (hvalid : r.valid s.cfg = true) :
    exec .ssave s = .next (State.returning .unit (State.storing r s)) := by
  rw [exec_ssave_held h, Record.sealed_of_valid s.cfg r hvalid]

theorem exec_ssave_unwritten (h : s.loaded = false) : exec .ssave s = .fault .unwritten :=
  perform_error ((Prog.run_bind (persist s.cfg) _ s).trans (by rw [run_persist_none s.cfg h]))

/-- After a write of a valid record, `SLOAD` reads it back and writes nothing. -/
theorem exec_sload_storing (hvalid : r.valid s.cfg = true) (q : OpResult) :
    exec .sload (State.returning q (State.storing r s)) =
      .next (State.returning (.bytes r.bytes) (State.storing r s)) :=
  exec_sload_stored (State.storing_recordBytes r s) hvalid

end Exec

/-! ## The checksum (R270, R278) -/

/-- The checksum is right exactly when the five bytes fold to zero. -/
theorem Record.checksum_eq_fold_iff (r : Record) : r.checksum = r.fold ↔ xorFold r.bytes = 0x00#8 :=
  (bccOk_iff r.magic r.lockState r.wrongAttempts r.lsr r.checksum).symm.trans (bccOk_iff_xorFold r.length_bytes)

/-- The record with bytes 1 to 4 changed by masks. -/
def Record.masked (x1 x2 x3 x4 : Byte) (r : Record) : Record :=
  { r with
    lockState := r.lockState ^^^ x1
    wrongAttempts := r.wrongAttempts ^^^ x2
    lsr := r.lsr ^^^ x3
    checksum := r.checksum ^^^ x4 }

/-- Masks reach the fold as their own XOR, wherever they were applied. -/
theorem Record.xorFold_masked (x1 x2 x3 x4 : Byte) (r : Record) :
    xorFold (r.masked x1 x2 x3 x4).bytes = xorFold r.bytes ^^^ (x1 ^^^ x2 ^^^ x3 ^^^ x4) := by
  simp only [Record.masked, Record.bytes, xorFold, List.foldr_cons, List.foldr_nil]
  ac_rfl

section Checksum

variable {c : Config} {r : Record}

theorem Record.xorFold_of_valid (h : r.valid c = true) : xorFold r.bytes = 0x00#8 :=
  r.checksum_eq_fold_iff.mp ((Record.valid_iff c r).mp h).2.1

/-- Masks keep a record valid exactly when they cancel, as far as its ranges are kept. -/
theorem Record.valid_masked_iff (hr : r.valid c = true) {x1 x2 x3 x4 : Byte}
    (hrange : c.loadRangeCheck = true → (r.masked x1 x2 x3 x4).inRange = true) :
    (r.masked x1 x2 x3 x4).valid c = true ↔ x1 ^^^ x2 ^^^ x3 ^^^ x4 = 0x00#8 := by
  have hmagic : (r.masked x1 x2 x3 x4).magic = c.magic := ((Record.valid_iff c r).mp hr).1
  have hfold : xorFold (r.masked x1 x2 x3 x4).bytes = x1 ^^^ x2 ^^^ x3 ^^^ x4 := by
    rw [xorFold_masked, xorFold_of_valid hr, BitVec.zero_xor]
  rw [Record.valid_iff, checksum_eq_fold_iff, hfold]
  exact ⟨fun ⟨_, hzero, _⟩ => hzero, fun hzero => ⟨hmagic, hzero, hrange⟩⟩

theorem Record.valid_of_magic_ne (h : r.magic ≠ c.magic) : r.valid c = false :=
  Bool.eq_false_iff.mpr fun hv => h ((Record.valid_iff c r).mp hv).1

/-- One flipped bit, in whichever byte, makes a valid record invalid: it stays in the fold of the five bytes. -/
theorem Record.valid_flipBit (hr : r.valid c = true) {i k : Nat} (hi : i < 5) (hk : k < 8) :
    (Record.ofBytes (flipBit i k r.bytes)).valid c = false := by
  refine Bool.eq_false_iff.mpr fun hv => one_shiftLeft_ne_zero hk ?_
  have hzero := Record.xorFold_of_valid hv
  rwa [Record.bytes_ofBytes _ (by simp), xorFold_flipBit (by simpa using hi), Record.xorFold_of_valid hr,
    BitVec.zero_xor] at hzero

end Checksum

end Sys2Proof.Machine

namespace Sys2Proof.StateRecord

/-! ## The statements, in a namespace of their own: `Machine.defaultRecord` and `Machine.loadRecord` are definitions -/

open Machine

/-- Settles O29: the zero fields leave the magic alone in the fold. -/
theorem defaultRecord : Obligations.DefaultRecord := fun c =>
  ⟨rfl, rfl, rfl, by simp [Machine.defaultRecord, Record.fold, fold4], defaultRecord_valid c⟩

/-- Settles O30: a valid record is taken, any other is replaced; five bytes 0xFF fold to 0x00, which is not the fifth. -/
theorem loadRecord : Obligations.LoadRecord := by
  intro s m l w x k hstored good d
  have hgood : (Record.ofBytes [m, l, w, x, k]).valid s.cfg = true ↔ good := by
    rw [Record.valid_iff, Record.inRange_iff]; exact Iff.rfl
  refine ⟨fun h => exec_sload_stored hstored (hgood.mpr h), fun h => ?_, ?_⟩
  · have hcorrupt : (Record.ofBytes s.recordBytes).valid s.cfg = false := by
      rw [hstored]; exact Bool.eq_false_iff.mpr fun hv => h (hgood.mp hv)
    exact ⟨_, exec_sload_corrupt hcorrupt, rfl, State.storing_recordBytes d s, fun _ => State.storing_read_other d s⟩
  · intro herased ⟨_, hfold, _⟩
    cases herased
    exact absurd hfold (by decide)

/-- Settles O31: the sealed copy is stored by one write. -/
theorem saveRecord : Obligations.SaveRecord := by
  refine fun s => ⟨exec_ssave_unwritten, ?_⟩
  intro r hr q
  obtain ⟨hloaded, -⟩ := State.held_eq_some.mp hr
  refine ⟨_, exec_ssave_held hr, ?_, State.storing_recordBytes q s, fun _ => State.storing_read_other q s⟩
  rw [hloaded]; rfl

/-- Settles O32: what `SLOAD` or `SSAVE` stored is valid, so that the next `SLOAD` reads it back. -/
theorem recordRoundTrip : Obligations.RecordRoundTrip := by
  refine fun s => ⟨fun hcorrupt => ?_, fun hvalid => ?_, fun r hr hrange => ?_⟩
  · exact ⟨_, _, exec_sload_corrupt hcorrupt, exec_sload_storing (defaultRecord_valid s.cfg) _, rfl, rfl, rfl, rfl, rfl⟩
  · obtain ⟨r, hstored⟩ := s.exists_recordBytes
    rw [hstored, Record.ofBytes_bytes] at hvalid
    rw [hstored]
    exact ⟨_, _, _, exec_sload_stored hstored hvalid, exec_ssave_valid rfl hvalid, exec_sload_storing hvalid _, rfl, rfl,
      rfl, State.storing_recordBytes r _, State.storing_recordBytes r _⟩
  · exact ⟨_, _, _, exec_ssave_held hr, exec_sload_storing (Record.valid_sealed s.cfg r hrange) _, rfl, rfl, rfl, rfl, rfl⟩

/-- Settles O33: masks and flips change the fold of the five bytes by their own XOR. -/
theorem checksumBlindness : Obligations.ChecksumBlindness := fun c r hr =>
  ⟨fun _ _ _ _ => Record.valid_masked_iff hr, fun _ => Record.valid_of_magic_ne,
    fun _ _ => Record.valid_flipBit hr, fun q => by simp [Record.fold, fold4]⟩

end Sys2Proof.StateRecord
end

section
/-! SUPPORT. The power-fail latch (45_power_fail_latch.md R300 to R302; O34 to O36): what an edge, `LTAKE` and `PFCHECK` do
from every state, and why any number of edges counts as one. -/

namespace Sys2Proof.Machine

variable {s : State} {r : Record}

/-! ## Edges -/

/-- Taken while interrupts are enabled, the edge sets the latch, whatever it was (R300). -/
theorem takeEdge_delivered (hatt : s.irq.attached = true) (hen : s.irq.enabled = true) :
    takeEdge s = { s with pfl := { latch := true } } := by
  rw [takeEdge_enabled hen, hatt, Bool.or_true]

/-- While interrupts are disabled the edge is held pending (R371). -/
theorem takeEdge_postponed (hatt : s.irq.attached = true) (hdis : s.irq.enabled = false) :
    takeEdge s = { s with irq := { s.irq with pending := true } } := by
  simp [takeEdge, hatt, hdis]

/-- Before it is attached the edge is lost (R300). -/
theorem takeEdge_unattached (h : s.irq.attached = false) : takeEdge s = s := by
  simp [takeEdge, h]

/-- The step in which the edge moves uses up its entry of the schedule and takes the edge. -/
theorem step_edge {ms : List Move} (h : s.moves = .arrive .edge :: ms) :
    step s = .next (takeEdge { s with moves := ms }) := by
  simp only [step, h, runMove, arrive]

/-- Attached and enabled, the edge sets the latch in one step and changes nothing else. -/
theorem step_edge_delivered {ms : List Move} (h : s.moves = .arrive .edge :: ms) (hatt : s.irq.attached = true)
    (hen : s.irq.enabled = true) : step s = .next { s with moves := ms, pfl := { latch := true } } :=
  (step_edge h).trans (congrArg _ (takeEdge_delivered hatt hen))

/-- Any positive number of edges leaves what one leaves: each sets the latch whatever it was (R302). -/
theorem run_edges {n : Nat} {ms : List Move} (hatt : s.irq.attached = true) (hen : s.irq.enabled = true)
    (hms : s.moves = List.replicate (n + 1) (.arrive .edge) ++ ms) :
    Host.Core.run Sys2Proof.core (n + 1) s = .next { s with moves := ms, pfl := { latch := true } } := by
  induction n generalizing s with
  | zero => exact (run_one s).trans (step_edge_delivered hms hatt hen)
  | succ n ih => exact (run_of_next (step_edge_delivered hms hatt hen)).trans (ih hatt hen rfl)

/-! ## Taking the latch -/

section Taken

variable (r : Record) (s : State)

@[simp] theorem takeLatch_seq : (takeLatch s).2.seq = s.seq := by rw [takeLatch_snd]
@[simp] theorem takeLatch_writes : (takeLatch s).2.writes = s.writes := by rw [takeLatch_snd]
@[simp] theorem takeLatch_held : (takeLatch s).2.held = s.held := by rw [takeLatch_snd]; rfl

/-- The latch is clear after it was taken, but for an edge that was held pending. -/
@[simp] theorem takeLatch_latch : (takeLatch s).2.pfl.latch = s.irq.pending := by rw [takeLatch_snd]

/-- Taking the latch leaves no edge pending. -/
@[simp] theorem takeLatch_pending : (takeLatch s).2.irq.pending = false := by rw [takeLatch_snd]

@[simp] theorem State.storing_seq : (State.storing r s).seq = s.seq := rfl
@[simp] theorem State.storing_pfl : (State.storing r s).pfl = s.pfl := rfl
@[simp] theorem State.storing_writes :
    (State.storing r s).writes = s.writes ++ [(Config.recordOffset, r.bytes)] := rfl

/-- `LTAKE` takes the latch and returns what it was (R301). -/
theorem exec_ltake : exec .ltake s = .next (State.returning (.bit s.pfl.latch) (takeLatch s).2) :=
  perform_bind_ret (Prog.run_askBit takeLatch s) .bit

end Taken

/-! ## The power-fail check -/

/-- A save stores the sealed copy (R276). -/
theorem run_persist_held (c : Config) (h : s.held = some r) :
    (persist c).run s = .ok ((), State.storing (r.sealed c.magic) s) := by
  obtain ⟨hloaded, rfl⟩ := State.held_eq_some.mp h
  rw [run_persist_some c hloaded]
  simp only [State.storing, State.memWrite, hloaded]

/-- With the latch clear `PFCHECK` only takes it (R335). -/
theorem exec_pfcheck_clear (hb : s.seq.booted = true) (hlatch : s.pfl.latch = false) :
    exec .pfcheck s = .next (State.returning (.bit false) (takeLatch s).2) := by
  refine perform_bind_ret ((run_checkPowerFail hb).trans ?_) .bit
  rw [hlatch, if_neg Bool.false_ne_true]

/-- With the latch set `PFCHECK` takes it and stores the sealed copy by one write (R335). -/
theorem exec_pfcheck_set (hb : s.seq.booted = true) (hr : s.held = some r) (hlatch : s.pfl.latch = true) :
    exec .pfcheck s =
      .next (State.returning (.bit true) (State.storing (r.sealed s.cfg.magic) (takeLatch s).2)) := by
  refine perform_bind_ret ((run_checkPowerFail hb).trans ?_) .bit
  rw [if_pos hlatch, Prog.run_andThen_ok (run_persist_held s.cfg ((takeLatch_held s).trans hr)), Prog.run_ret]

end Sys2Proof.Machine

namespace Sys2Proof.PowerFailLatch

/-! ## The statements, in a namespace of their own: `Machine.takeLatch` is a definition -/

open Machine

/-- Settles O34: attached and enabled, attached and disabled, not attached. -/
theorem edgeSetsLatch : Obligations.EdgeSetsLatch := by
  intro s ms hms
  rw [step_edge hms]
  exact ⟨fun hatt hen => congrArg _ (takeEdge_delivered hatt hen),
    fun hatt hdis => congrArg _ (takeEdge_postponed hatt hdis), fun hatt => congrArg _ (takeEdge_unattached hatt)⟩

/-- Settles O35: the first `LTAKE` leaves no edge pending, so that the second leaves the latch clear. -/
theorem takeLatch : Obligations.TakeLatch := by
  intro s
  refine ⟨_, _, exec_ltake s, ?_, exec_ltake _, ?_, fun hnone => ?_⟩
  · rw [takeLatch_snd]; rfl
  · exact (takeLatch_latch _).trans (takeLatch_pending s)
  · simp [hnone]

/-- Settles O36: however many edges came, they left one set latch and nothing pending, which the first operation takes. -/
theorem edgesCoalesce : Obligations.EdgesCoalesce := by
  intro s r k ms hirq hb hr hk hms
  obtain ⟨n, rfl⟩ := Nat.exists_eq_add_of_le' hk
  refine ⟨_, run_edges (by rw [hirq]) (by rw [hirq]) hms, rfl, ?_, ?_⟩
  · exact ⟨_, _, exec_ltake _, rfl, exec_ltake _, by simp [hirq]⟩
  · exact ⟨_, _, (Config.recordOffset, (r.sealed s.cfg.magic).bytes), exec_pfcheck_set hb hr rfl, rfl, by simp,
      exec_pfcheck_clear (by simpa using hb) (by simp [hirq]), rfl, by simp⟩

end Sys2Proof.PowerFailLatch
end

section
/-! SUPPORT. The lockout policy (46_lockout_policy.md R330 to R339; O38 to O42, O44 to O47): what each policy operation does
from a booted state as a function of that state, what `LOOP` does before it polls the tag, and what sequences of
presentations and of seconds come to. -/

namespace Sys2Proof.Machine

variable {s t : State} {c : Config} {id : List Byte}

/-! ## Booted, with a record -/

/-- What `EVAL`, `TICK`, `PFCHECK` and `LOOP` need: `BOOT` has completed, and the record is loaded (60_exceptions.md R369). -/
structure State.Ready (s : State) : Prop where
  booted : s.seq.booted = true
  loaded : s.loaded = true

theorem State.Ready.held (h : s.Ready) : s.held = some s.record := State.held_eq_some.mpr ⟨h.loaded, rfl⟩

theorem State.Ready.mode (h : s.Ready) : s.mode = some (modeOf s.record) := by rw [State.mode, h.held]; rfl

/-- What does not write the boot state keeps a ready machine ready. -/
theorem State.Ready.kept {w : Writes} (h : s.Ready) (hq : w.seq = false) (hk : Kept w s t) : t.Ready :=
  ⟨(hk.seq hq).1.trans h.booted, hk.held h.loaded⟩

/-- Between the policy operations: the record is sealed (44_state_record.md R276), and stored as it is. -/
structure State.Resting (s : State) : Prop extends State.Ready s where
  sealed : s.record.sealed s.cfg.magic = s.record
  stored : s.recordBytes = s.record.bytes

/-- R45 leaves a booted machine resting. -/
theorem State.Settled.resting (h : s.Settled) (hb : s.seq.booted = true) : s.Resting := by
  have hl := (h.booted hb).1
  obtain ⟨hvalid, hstored⟩ := h.record s.record (State.held_eq_some.mpr ⟨hl, rfl⟩)
  exact ⟨⟨hb, hl⟩, Record.sealed_of_valid s.cfg s.record hvalid, hstored⟩

@[simp] theorem Record.sealed_sealed (m : Byte) (r : Record) : (r.sealed m).sealed m = r.sealed m := rfl

/-- A save leaves a booted machine resting. -/
theorem State.resting_storing (hb : s.seq.booted = true) (r : Record) :
    (State.storing (r.sealed s.cfg.magic) s).Resting :=
  ⟨⟨hb, rfl⟩, rfl, State.storing_recordBytes _ s⟩

/-! ## Faults (R366, R367, R369) -/

theorem perform_bind_error {α : Type} {p : Prog α} {f : Fault} (h : p.run s = .error f) (k : α → Prog OpResult) :
    perform (p.bind k) s = .fault f :=
  perform_error (by rw [Prog.run_bind, h])

/-- Before `BOOT` the policy operations fault. -/
theorem perform_whenBooted_unbooted {α : Type} (hb : s.seq.booted = false) (p : Prog α) (k : α → Prog OpResult) :
    perform ((whenBooted p).bind k) s = .fault .notBooted :=
  perform_bind_error (run_whenBooted_false hb) k

/-- Without a record those that read it fault. -/
theorem perform_whenBooted_unwritten {α : Type} (hb : s.seq.booted = true) (hl : s.loaded = false) (p : Record → Prog α)
    (k : α → Prog OpResult) : perform ((whenBooted (heldRecord.bind p)).bind k) s = .fault .unwritten :=
  perform_bind_error ((run_whenBooted_true hb).trans (by rw [Prog.run_bind, run_heldRecord_none hl])) k

/-! ## The last result -/

/-- No operation sees what the one before it returned. -/
theorem exec_result (i : Instr) (s : State) (o : Option OpResult) : exec i { s with result := o } = exec i s := by
  rw [exec_eq_perform, exec_eq_perform, perform, perform]
  have hrun : (program s.cfg i).run { s with result := o } = _ :=
    (program_lawful s.cfg i).each.schedule s s.moves s.seq.position o rfl
  rw [hrun]
  cases h : (program s.cfg i).run s with
  | error f => rfl
  | ok q =>
    have hk := (program_lawful s.cfg i).each.kept h
    exact congrArg Host.Outcome.next (by rw [← hk.moves, ← hk.position]; rfl)

/-! ## Evaluation (R332, R333) -/

/-- The state in which the actuator was commanded `cs` and then `r` was sealed and saved. -/
def State.deciding (cs : List ActCommand) (r : Record) (s : State) : State :=
  State.storing (r.sealed s.cfg.magic) { s with act := { hist := s.act.hist ++ cs } }

theorem State.Ready.deciding_resting (h : s.Ready) (cs : List ActCommand) (r : Record) : (s.deciding cs r).Resting :=
  State.resting_storing (s := { s with act := { hist := s.act.hist ++ cs } }) h.booted r

/-- The record after a match. -/
def Record.unlocked (r : Record) : Record := { r with wrongAttempts := 0x00#8, lockState := 0x01#8 }

/-- The record after a mismatch below the limit. -/
def Record.counted (r : Record) : Record := { r with wrongAttempts := BitVec.ofNat 8 (r.wrongAttempts.toNat + 1) }

/-- The record after the mismatch that reaches the limit. -/
def Record.lockedOut (r : Record) : Record := { r with lsr := 30#8, wrongAttempts := 0x00#8, lockState := 0x00#8 }

/-- What evaluating `id` from `s` returns and leaves: one case for each verdict. -/
inductive Evaluated (id : List Byte) (s : State) : Verdict → State → Prop
  | skipped (hlsr : s.record.lsr ≠ 0x00#8) : Evaluated id s .skipped s
  | matched (hlsr : s.record.lsr = 0x00#8) (hauth : s.cfg.auth id = true) :
      Evaluated id s .matched (s.deciding [.unlock] s.record.unlocked)
  | mismatched (hlsr : s.record.lsr = 0x00#8) (hauth : s.cfg.auth id = false) (hwa : s.record.wrongAttempts.toNat + 1 < 3) :
      Evaluated id s .mismatched (s.deciding [] s.record.counted)
  | lockoutStarted (hlsr : s.record.lsr = 0x00#8) (hauth : s.cfg.auth id = false)
      (hwa : ¬ s.record.wrongAttempts.toNat + 1 < 3) :
      Evaluated id s .lockoutStarted (s.deciding [.lock] s.record.lockedOut)

/-- What every case has computed is what `EVAL` answers. -/
theorem Evaluated.run {v : Verdict} (he : Evaluated id s v t) (h : s.Ready) : (evaluate s.cfg id).run s = .ok (v, t) := by
  have hsave : ∀ (cs : List ActCommand) (r : Record) (v : Verdict), ((persist s.cfg).andThen (.ret v)).run
      { s with record := r, act := { hist := s.act.hist ++ cs } } = .ok (v, s.deciding cs r) := fun _ _ _ => by
    refine Prog.run_andThen_ok (run_persist_held s.cfg (State.held_eq_some.mpr ⟨?_, rfl⟩)) _
    exact h.loaded
  rw [run_evaluate id h.booted h.held]
  cases he with
  | skipped hlsr => rw [if_pos hlsr]
  | matched hlsr hauth => rw [if_neg (not_not.mpr hlsr), if_pos hauth]; exact hsave [.unlock] _ _
  | mismatched hlsr hauth hwa =>
    rw [if_neg (not_not.mpr hlsr), if_neg (Bool.eq_false_iff.mp hauth), run_mismatch h.held]
    refine (if_pos hwa).trans (Eq.trans ?_ (hsave [] _ _))
    rw [List.append_nil]; rfl
  | lockoutStarted hlsr hauth hwa =>
    rw [if_neg (not_not.mpr hlsr), if_neg (Bool.eq_false_iff.mp hauth), run_mismatch h.held]
    exact (if_neg hwa).trans (hsave [.lock] _ _)

/-- There is no other case. -/
theorem exists_evaluated (id : List Byte) (s : State) : ∃ v t, Evaluated id s v t := by
  by_cases hlsr : s.record.lsr = 0x00#8
  · cases hauth : s.cfg.auth id
    · by_cases hwa : s.record.wrongAttempts.toNat + 1 < 3
      · exact ⟨_, _, .mismatched hlsr hauth hwa⟩
      · exact ⟨_, _, .lockoutStarted hlsr hauth hwa⟩
    · exact ⟨_, _, .matched hlsr hauth⟩
  · exact ⟨_, _, .skipped hlsr⟩

theorem Evaluated.exec_eval {v : Verdict} (he : Evaluated id s v t) (h : s.Ready) :
    exec (.eval id) s = .next (State.returning (.verdict v) t) :=
  perform_bind_ret (he.run h) .verdict

/-- What `EVAL` can have done when it completes. -/
theorem exec_eval_cases (h : s.Ready) (ht : exec (.eval id) s = .next t) :
    ∃ v u, Evaluated id s v u ∧ t = State.returning (.verdict v) u := by
  obtain ⟨v, u, he⟩ := exists_evaluated id s
  exact ⟨v, u, he, Host.Outcome.next.inj (ht.symm.trans (he.exec_eval h))⟩

/-- An evaluation of a resting machine leaves it resting. -/
theorem Evaluated.resting {v : Verdict} (he : Evaluated id s v t) (h : s.Resting) : t.Resting := by
  cases he with
  | skipped => exact h
  | matched | mismatched | lockoutStarted => exact h.toReady.deciding_resting _ _

/-! ## Countdown (R334) -/

/-- The record one second later. -/
def Record.ticked (r : Record) : Record :=
  { r with lsr := r.lsr - 1#8, wrongAttempts := if r.lsr - 1#8 = 0x00#8 then 0x00#8 else r.wrongAttempts }

/-- The state after `TICK`, but for what it returned. -/
def State.ticked (s : State) : State :=
  if s.record.lsr = 0x00#8 then s else State.storing (s.record.ticked.sealed s.cfg.magic) s

theorem State.ticked_of_active (h : s.record.lsr = 0x00#8) : s.ticked = s := if_pos h

theorem State.ticked_of_lockedOut (h : s.record.lsr ≠ 0x00#8) :
    s.ticked = State.storing (s.record.ticked.sealed s.cfg.magic) s := if_neg h

theorem State.Ready.run_tickSecond (h : s.Ready) (hc : s.cfg = c) : (tickSecond c).run s = .ok ((), s.ticked) := by
  subst hc
  rw [Machine.run_tickSecond h.booted h.held]
  by_cases hlsr : s.record.lsr = 0x00#8
  · rw [if_pos hlsr, State.ticked_of_active hlsr]
  · rw [if_neg hlsr, State.ticked_of_lockedOut hlsr]
    exact run_persist_held s.cfg (State.held_eq_some.mpr ⟨h.loaded, rfl⟩)

theorem State.Ready.exec_tick (h : s.Ready) : exec .tick s = .next (State.returning .unit s.ticked) :=
  perform_andThen_ret (h.run_tickSecond rfl) .unit

/-- What seconds write (R44). -/
def tickWrites : Writes := { store := true, counts := true }

theorem State.Ready.ticked_kept (h : s.Ready) : Kept tickWrites s s.ticked :=
  (Lawful.tickSecond rfl rfl s.cfg).each.kept (h.run_tickSecond rfl)

theorem State.Ready.iterate_ticked_kept (h : s.Ready) (n : Nat) : Kept tickWrites s (State.ticked^[n] s) := by
  induction n with
  | zero => exact .refl s
  | succ n ih =>
    rw [Function.iterate_succ_apply']
    exact ih.trans (h.kept rfl ih).ticked_kept

theorem State.Ready.iterate_ticked (h : s.Ready) (n : Nat) : (State.ticked^[n] s).Ready :=
  h.kept rfl (h.iterate_ticked_kept n)

theorem State.Resting.ticked (h : s.Resting) : s.ticked.Resting := by
  unfold State.ticked
  split
  · exact h
  · exact State.resting_storing h.booted _

theorem State.Resting.iterate_ticked (h : s.Resting) (n : Nat) : (State.ticked^[n] s).Resting :=
  Function.Iterate.rec State.Resting h (fun _ hs => hs.ticked) n

/-- The state with `n` seconds pending. -/
def State.withTicks (n : Nat) (s : State) : State := { s with inp := { s.inp with ticks := n } }

/-- What leaves the record, the configuration and the store alone commutes with `TICK`. -/
theorem commute_ticked {f : State → State} (hr : ∀ s, (f s).record = s.record) (hc : ∀ s, (f s).cfg = s.cfg)
    (hf : ∀ r s, State.storing r (f s) = f (State.storing r s)) : Function.Commute State.ticked f := fun s => by
  by_cases hlsr : s.record.lsr = 0x00#8
  · rw [State.ticked_of_active hlsr, State.ticked_of_active ((hr s).symm ▸ hlsr)]
  · rw [State.ticked_of_lockedOut hlsr, State.ticked_of_lockedOut ((hr s).symm ▸ hlsr), hr, hc, hf]

theorem commute_ticked_withTicks (n : Nat) : Function.Commute State.ticked (State.withTicks n) :=
  commute_ticked (fun _ => rfl) (fun _ => rfl) fun _ _ => rfl

theorem commute_ticked_result (o : Option OpResult) : Function.Commute State.ticked (fun s => { s with result := o }) :=
  commute_ticked (fun _ => rfl) (fun _ => rfl) fun _ _ => rfl

/-- `TICK` any number of times. -/
theorem State.Ready.repeatExec_tick (h : s.Ready) (n : Nat) :
    ∃ o, repeatExec .tick n s = .next { State.ticked^[n] s with result := o } := by
  induction n generalizing s with
  | zero => exact ⟨s.result, rfl⟩
  | succ n ih =>
    obtain ⟨o, ho⟩ := ih (s := State.returning .unit s.ticked) ⟨(h.iterate_ticked 1).booted, (h.iterate_ticked 1).loaded⟩
    have hcomm : State.ticked^[n] (State.returning .unit s.ticked) = { State.ticked^[n] s.ticked with result := some .unit } :=
      (commute_ticked_result (some .unit)).iterate_left n s.ticked
    exact ⟨o, by rw [repeatExec_succ h.exec_tick, ho, hcomm]; rfl⟩

/-- From `s` to `t`, `k` seconds of a running countdown have elapsed. -/
structure Elapsed (k : Nat) (s t : State) : Prop where
  lsr : t.record.lsr.toNat = s.record.lsr.toNat - k
  attempts : t.record.wrongAttempts = if k = s.record.lsr.toNat then 0x00#8 else s.record.wrongAttempts
  writes : t.writes.length = s.writes.length + k

/-- A countdown takes as many seconds as it says, and makes one save for each. -/
theorem elapsed_iterate_ticked {k : Nat} (hlsr : s.record.lsr ≠ 0x00#8) (hk : k ≤ s.record.lsr.toNat) :
    Elapsed k s (State.ticked^[k] s) := by
  induction k with
  | zero =>
    have hpos : 0 ≠ s.record.lsr.toNat := fun e => hlsr (BitVec.eq_of_toNat_eq e.symm)
    exact ⟨rfl, (if_neg hpos).symm, rfl⟩
  | succ k ih =>
    obtain ⟨hl, ha, hw⟩ := ih (by omega)
    rw [Function.iterate_succ_apply']
    generalize State.ticked^[k] s = t at hl ha hw
    rw [if_neg (by omega)] at ha
    have hrun : t.record.lsr ≠ 0x00#8 := by bv_omega
    have hexp : t.record.lsr - 1#8 = 0x00#8 ↔ k + 1 = s.record.lsr.toNat := by bv_omega
    rw [State.ticked_of_lockedOut hrun]
    refine ⟨?_, ?_, ?_⟩
    · change (t.record.lsr - 1#8).toNat = _
      bv_omega
    · simp only [State.storing, Record.sealed, Record.ticked, hexp, ha]
    · rw [State.storing_writes, List.length_append, hw]; rfl

/-! ## Power fail (R335) -/

/-- The state after `PFCHECK`, but for what it returned. -/
def State.powerChecked (s : State) : State :=
  if s.pfl.latch then State.storing (s.record.sealed s.cfg.magic) (takeLatch s).2 else (takeLatch s).2

theorem State.Ready.run_checkPowerFail (h : s.Ready) :
    (checkPowerFail s.cfg).run s = .ok (s.pfl.latch, s.powerChecked) := by
  rw [Machine.run_checkPowerFail h.booted, State.powerChecked]
  cases s.pfl.latch with
  | false => rfl
  | true => exact Prog.run_andThen_ok (run_persist_held s.cfg ((takeLatch_held s).trans h.held)) _

theorem State.Ready.exec_pfcheck (h : s.Ready) :
    exec .pfcheck s = .next (State.returning (.bit s.pfl.latch) s.powerChecked) :=
  perform_bind_ret h.run_checkPowerFail .bit

theorem State.Ready.powerChecked_kept {w : Writes} (h : s.Ready) (hs : w.store = true) (hl : w.latch = true) :
    Kept w s s.powerChecked :=
  (Lawful.checkPowerFail hs hl s.cfg).each.kept h.run_checkPowerFail

/-- A sealed record is saved as it is. -/
theorem State.Resting.powerChecked_record (h : s.Resting) : s.powerChecked.record = s.record := by
  unfold State.powerChecked
  split
  · exact h.sealed
  · rw [takeLatch_snd]

/-- Taking the latch and a save leave a resting machine resting. -/
theorem State.Resting.powerChecked (h : s.Resting) : s.powerChecked.Resting := by
  unfold State.powerChecked
  have hcfg : (takeLatch s).2.cfg = s.cfg := by rw [takeLatch_snd]
  split
  · rw [← hcfg]
    exact State.resting_storing (by rw [takeLatch_seq]; exact h.booted) _
  · rw [takeLatch_snd]
    exact ⟨⟨h.booted, h.loaded⟩, h.sealed, h.stored⟩

/-! ## The control loop, up to its poll (R336) -/

theorem State.withTicks_of_eq {n : Nat} (h : s.inp.ticks = n) : State.withTicks n s = s := by subst h; rfl

/-- One `TICK` for each pending second, and none pending afterwards. -/
theorem State.Ready.run_drainTicks {n : Nat} (h : s.Ready) (hc : s.cfg = c) (hn : s.inp.ticks ≤ n) :
    (drainTicks c n).run s = .ok ((), State.withTicks 0 (State.ticked^[s.inp.ticks] s)) := by
  induction n generalizing s with
  | zero =>
    have hnone := Nat.le_zero.mp hn
    rw [hnone, Function.iterate_zero_apply, State.withTicks_of_eq hnone]; rfl
  | succ n ih =>
    have htest : ∀ k : Bool → Prog Unit, ((Prog.askBit fun s => (decide (0 < s.inp.ticks), s)).bind k).run s =
        (k (decide (0 < s.inp.ticks))).run s := fun _ => rfl
    rw [drainTicks, htest]
    cases hticks : s.inp.ticks with
    | zero => rw [Function.iterate_zero_apply, State.withTicks_of_eq hticks]; rfl
    | succ k =>
      have hsecond : State.takeSecond s = State.withTicks k s := by
        rw [State.takeSecond, State.withTicks, hticks, Nat.add_sub_cancel]
      have htick : (tickSecond c).run (State.takeSecond s) = .ok ((), State.withTicks k s.ticked) := by
        rw [hsecond, ← commute_ticked_withTicks k s]
        exact State.Ready.run_tickSecond ⟨h.booted, h.loaded⟩ hc
      have hready := h.iterate_ticked 1
      have hrest := ih (s := State.withTicks k s.ticked) ⟨hready.booted, hready.loaded⟩ (h.ticked_kept.cfg.trans hc)
        (show k ≤ n by omega)
      rw [decide_eq_true (Nat.succ_pos k), if_pos rfl, Prog.run_andThen_ok (Prog.run_tell _ _), Prog.run_andThen_ok htick,
        hrest]
      have hcomm : State.ticked^[k] (State.withTicks k s.ticked) = State.withTicks k (State.ticked^[k] s.ticked) :=
        (commute_ticked_withTicks k).iterate_left k s.ticked
      exact congrArg (fun t => Except.ok ((), t)) ((congrArg (State.withTicks 0) hcomm).trans rfl)

/-- The state in which `LOOP` polls the tag: the latch checked, and every pending second counted. -/
def State.polling (s : State) : State := State.withTicks 0 (State.ticked^[s.inp.ticks] s.powerChecked)

theorem State.Ready.run_drainTicks_powerChecked (h : s.Ready) : ∃ n,
    (State.secondsAhead s.powerChecked).1 = n ∧ (drainTicks s.cfg n).run s.powerChecked = .ok ((), s.polling) := by
  have hkept : Kept { store := true, latch := true } s s.powerChecked := h.powerChecked_kept rfl rfl
  have hdrain := (h.kept rfl hkept).run_drainTicks hkept.cfg (Nat.le_add_right _ (Move.seconds s.powerChecked.moves))
  rw [hkept.ticks rfl] at hdrain
  exact ⟨_, by rw [State.secondsAhead, hkept.ticks rfl], hdrain⟩

/-- What the power-fail check and the seconds write (R44). -/
def pollingWrites : Writes := { store := true, counts := true, latch := true, ticks := true }

theorem State.Ready.polling_kept (h : s.Ready) : Kept pollingWrites s s.polling := by
  obtain ⟨n, -, hdrain⟩ := h.run_drainTicks_powerChecked
  exact (h.powerChecked_kept rfl rfl).trans ((Lawful.drainTicks rfl rfl rfl s.cfg n).each.kept hdrain)

theorem State.Ready.polling (h : s.Ready) : s.polling.Ready := h.kept rfl h.polling_kept

theorem State.Ready.run_controlLoop (h : s.Ready) :
    (controlLoop s.cfg).run s = (pollTag s.cfg).run s.polling := by
  obtain ⟨n, hn, hdrain⟩ := h.run_drainTicks_powerChecked
  have hcount : (Prog.askCount State.secondsAhead).run s.powerChecked = .ok (n, s.powerChecked) := by
    rw [Prog.run_askCount, ← hn]; rfl
  rw [controlLoop, run_whenBooted_true h.booted, Prog.run_bind_ok h.run_checkPowerFail, Prog.run_bind_ok hcount,
    Prog.run_andThen_ok hdrain]

/-- `LOOP` is what its poll comes to. -/
theorem State.Ready.exec_loop (h : s.Ready) (hpoll : (pollTag s.cfg).run s.polling = .ok ((), t)) :
    exec .loop s = .next (State.returning .unit t) :=
  perform_andThen_ret (h.run_controlLoop.trans hpoll) .unit

/-! ## The poll of the control loop (R336) -/

/-- What the detector writes. -/
def detectorWrites : Writes := { tag := true, sim := true, cs := true, hist := true, eng := true }

theorem tagAvailable_kept {b : Bool} (h : (tagAvailable c).run s = .ok (b, t)) : Kept detectorWrites s t :=
  (Lawful.tagAvailable (fun _ => ⟨fun _ => rfl, rfl, rfl⟩) rfl fun _ => rfl).each.kept h

theorem readTag_kept {n : Nat} {out : List Byte} (h : (readTag n).run s = .ok (out, t)) : Kept detectorWrites s t :=
  (Lawful.readTag rfl n).each.kept h

theorem exec_tagavail_of_run {b : Bool} (hc : s.cfg = c) (h : (tagAvailable c).run s = .ok (b, t)) :
    exec .tagavail s = .next (State.returning (.bit b) t) := by
  subst hc
  exact perform_bind_ret h .bit

theorem exec_readtag_of_run (h : (readTag Config.readMaxLen).run s = .ok (id, t)) :
    exec (.readtag 10#8) s = .next (State.returning (.copied id.length id) t) :=
  perform_bind_ret h fun out => .copied out.length out

/-- The mode after the ticks decides what is polled. -/
theorem State.Ready.run_pollTag (h : s.Ready) :
    (pollTag c).run s = (if s.record.lsr = 0x00#8 then acquire c else discardTag c).run s := by
  rw [pollTag, Prog.run_bind_ok (run_heldRecord_some h.held)]

section Ways

variable {u v : State}

theorem run_acquire_absent (h : (tagAvailable c).run s = .ok (false, t)) : (acquire c).run s = .ok ((), t) :=
  Prog.run_bind_ok h _

theorem run_acquire_present (h : (tagAvailable c).run s = .ok (true, t))
    (hread : (readTag Config.readMaxLen).run t = .ok (id, u)) : (acquire c).run s =
      (if 0 < id.length then (evaluate c id).bind fun _ => .ret () else .ret ()).run u :=
  (Prog.run_bind_ok h _).trans (Prog.run_bind_ok hread _)

theorem run_discardTag_absent (hd : c.lockoutTags = .readAndDiscard) (h : (tagAvailable c).run s = .ok (false, t)) :
    (discardTag c).run s = .ok ((), t) := by
  rw [discardTag, hd]
  exact Prog.run_bind_ok h _

theorem run_discardTag_present (hd : c.lockoutTags = .readAndDiscard) (h : (tagAvailable c).run s = .ok (true, t))
    (hread : (readTag Config.readMaxLen).run t = .ok (id, u)) : (discardTag c).run s = .ok ((), u) := by
  rw [discardTag, hd]
  exact (Prog.run_bind_ok h _).trans (Prog.run_bind_ok hread _)

theorem run_discardTag_notRead (hd : c.lockoutTags = .notRead) : (discardTag c).run s = .ok ((), s) := by
  rw [discardTag, hd]; rfl

/-- In Active, `LOOP` is what acquiring a tag comes to. -/
theorem State.Ready.exec_loop_acquire (h : s.Ready) (hlsr : s.polling.record.lsr = 0x00#8)
    (hrun : (acquire s.cfg).run s.polling = .ok ((), t)) : exec .loop s = .next (State.returning .unit t) :=
  h.exec_loop (by rw [h.polling.run_pollTag, if_pos hlsr, hrun])

/-- In LockedOut, `LOOP` is what discarding one comes to. -/
theorem State.Ready.exec_loop_discardTag (h : s.Ready) (hlsr : s.polling.record.lsr ≠ 0x00#8)
    (hrun : (discardTag s.cfg).run s.polling = .ok ((), t)) : exec .loop s = .next (State.returning .unit t) :=
  h.exec_loop (by rw [h.polling.run_pollTag, if_neg hlsr, hrun])

/-- The identifier that was read is evaluated, if it has any bytes. -/
theorem State.Ready.exec_loop_evaluates {w : Verdict} (h : s.Ready) (hlsr : s.polling.record.lsr = 0x00#8)
    (htag : (tagAvailable s.cfg).run s.polling = .ok (true, t)) (hread : (readTag Config.readMaxLen).run t = .ok (id, u))
    (hlen : 0 < id.length) (he : Evaluated id u w v) :
    exec (.eval id) u = .next (State.returning (.verdict w) v) ∧ exec .loop s = .next (State.returning .unit v) := by
  have hkept := (tagAvailable_kept htag).trans (readTag_kept hread)
  have hready := h.polling.kept rfl hkept
  have hrun := he.run hready
  rw [hkept.cfg, h.polling_kept.cfg] at hrun
  refine ⟨he.exec_eval hready, h.exec_loop_acquire hlsr ?_⟩
  rw [run_acquire_present htag hread, if_pos hlen, Prog.run_bind_ok hrun, Prog.run_ret]

theorem State.Ready.exec_loop_reads_nothing (h : s.Ready) (hlsr : s.polling.record.lsr = 0x00#8)
    (htag : (tagAvailable s.cfg).run s.polling = .ok (true, t)) (hread : (readTag Config.readMaxLen).run t = .ok (id, u))
    (hlen : ¬ 0 < id.length) : exec .loop s = .next (State.returning .unit u) :=
  h.exec_loop_acquire hlsr (by rw [run_acquire_present htag hread, if_neg hlen, Prog.run_ret])

end Ways

theorem Prog.Quiet.discardTag (c : Config) : (discardTag c).Quiet := by
  unfold Machine.discardTag
  split
  · exact (Prog.Quiet.tagAvailable c).bind fun _ => .ite ((Prog.Quiet.readTag _).bind fun _ => trivial) trivial
  · trivial

theorem exists_run_discardTag (c : Config) (s : State) : ∃ t, (discardTag c).run s = .ok ((), t) ∧ Kept detectorWrites s t := by
  obtain ⟨_, t, hrun⟩ := (Prog.Quiet.discardTag c).run s
  exact ⟨t, hrun, (Lawful.discardTag (fun _ => ⟨fun _ => rfl, rfl, rfl⟩) rfl fun _ => rfl).each.kept hrun⟩

/-! ## The control loop as a whole -/

/-- A `LOOP` whose pending seconds do not end the countdown only counts them down: it evaluates nothing. -/
theorem State.Resting.exec_loop_lockedOut (h : s.Resting) (hlsr : s.record.lsr ≠ 0x00#8)
    (hticks : s.inp.ticks < s.record.lsr.toNat) : ∃ t, exec .loop s = .next t ∧ t.held = some t.record ∧ t.act = s.act ∧
      t.record.lockState = s.record.lockState ∧ t.record.wrongAttempts = s.record.wrongAttempts ∧
      t.record.lsr.toNat = s.record.lsr.toNat - s.inp.ticks := by
  have hrec := h.powerChecked_record
  have hkept := h.polling_kept
  obtain ⟨hl, ha, -⟩ : Elapsed s.inp.ticks s.powerChecked s.polling := by
    obtain ⟨hl, ha, hw⟩ := elapsed_iterate_ticked (s := s.powerChecked) (hrec ▸ hlsr) (hrec ▸ hticks.le)
    exact ⟨hl, ha, hw⟩
  rw [hrec] at hl ha
  have hready := h.polling
  have hlocked : s.polling.record.lsr ≠ 0x00#8 := by bv_omega
  obtain ⟨t, hrun, hdet⟩ := exists_run_discardTag s.cfg s.polling
  have hpoll : (pollTag s.cfg).run s.polling = .ok ((), t) := by rw [hready.run_pollTag, if_neg hlocked, hrun]
  have hrecord : t.record = s.polling.record := (hdet.store rfl).1
  refine ⟨_, h.exec_loop hpoll, (hready.kept rfl hdet).held, (hdet.act rfl).trans (hkept.act rfl), ?_, ?_, ?_⟩
  · exact (congrArg Record.lockState hrecord).trans (hkept.lock rfl)
  · exact (congrArg Record.wrongAttempts hrecord).trans (ha.trans (if_neg hticks.ne))
  · exact (congrArg (fun r : Record => r.lsr.toNat) hrecord).trans hl

theorem run_tickSecond_unwritten (hb : s.seq.booted = true) (hl : s.loaded = false) :
    (tickSecond c).run s = .error .unwritten := by
  rw [tickSecond, run_whenBooted_true hb, Prog.run_bind, run_heldRecord_none hl]

/-- Without a record the seconds fault, or there are none. -/
theorem run_drainTicks_unwritten (hb : s.seq.booted = true) (hl : s.loaded = false) (n : Nat) :
    (drainTicks c n).run s = .error .unwritten ∨ (drainTicks c n).run s = .ok ((), s) := by
  cases n with
  | zero => exact .inr rfl
  | succ n =>
    by_cases hticks : 0 < s.inp.ticks
    · left
      have htick : (tickSecond c).run (State.takeSecond s) = .error .unwritten := run_tickSecond_unwritten hb hl
      simp only [drainTicks, Prog.andThen, Prog.run_bind, Prog.run_askBit, decide_eq_true hticks, if_true, Prog.run_tell, htick]
    · right
      simp only [drainTicks, Prog.run_bind, Prog.run_askBit, decide_eq_false hticks, Bool.false_eq_true, if_false,
        Prog.run_ret]

/-- Without a record `LOOP` faults, at the latest where it reads the mode. -/
theorem exec_loop_unwritten (hb : s.seq.booted = true) (hl : s.loaded = false) : exec .loop s = .fault .unwritten := by
  refine perform_bind_error ?_ _
  rw [controlLoop, run_whenBooted_true hb, Prog.run_bind, run_checkPowerFail hb]
  have hb' : (takeLatch s).2.seq.booted = true := by rw [takeLatch_seq]; exact hb
  have hl' : (takeLatch s).2.loaded = false := by rw [takeLatch_snd]; exact hl
  cases s.pfl.latch with
  | true => simp only [if_true, Prog.andThen, Prog.run_bind, run_persist_none s.cfg hl']
  | false =>
    simp only [Bool.false_eq_true, if_false, Prog.andThen, Prog.run_bind, Prog.run_askCount, State.secondsAhead]
    rcases run_drainTicks_unwritten hb' hl' ((takeLatch s).2.inp.ticks + Move.seconds (takeLatch s).2.moves) with h | h
    · rw [h]
    · rw [h]
      simp only [pollTag, Prog.run_bind, run_heldRecord_none hl']

/-! ## Boot (R330, R331) -/

/-- The state after `SLOAD`, but for what it returned. -/
def State.loading (s : State) : State :=
  if (Record.ofBytes s.recordBytes).valid s.cfg then { s with record := Record.ofBytes s.recordBytes, loaded := true }
  else State.storing (defaultRecord s.cfg.magic) s

theorem State.loading_of_valid (h : (Record.ofBytes s.recordBytes).valid s.cfg = true) :
    s.loading = { s with record := Record.ofBytes s.recordBytes, loaded := true } := if_pos h

theorem State.loading_of_corrupt (h : (Record.ofBytes s.recordBytes).valid s.cfg = false) :
    s.loading = State.storing (defaultRecord s.cfg.magic) s := if_neg (Bool.eq_false_iff.mp h)

theorem run_loadRecord (s : State) : (loadRecord s.cfg).run s = .ok (s.loading.record.bytes, s.loading) := by
  cases hv : (Record.ofBytes s.recordBytes).valid s.cfg
  · rw [run_loadRecord_corrupt hv, State.loading_of_corrupt hv]; rfl
  · rw [run_loadRecord_valid hv, State.loading_of_valid hv, Record.bytes_ofBytes _ s.length_recordBytes]

/-- A load writes the record and the store alone. -/
theorem State.exists_loading_eq (s : State) : ∃ (r : Record) (d : Memory) (w : List StorageWrite),
    s.loading = { s with record := r, loaded := true, durable := d, writes := w } := by
  unfold State.loading
  split
  · exact ⟨_, _, _, rfl⟩
  · exact ⟨_, _, _, rfl⟩

/-- The phase is nothing to a load. -/
theorem State.loading_setPhase (p : Phase) (s : State) : (State.setPhase p s).loading = State.setPhase p s.loading := by
  cases hv : (Record.ofBytes s.recordBytes).valid s.cfg
  · rw [State.loading_of_corrupt hv, State.loading_of_corrupt (s := State.setPhase p s) hv]; rfl
  · rw [State.loading_of_valid hv, State.loading_of_valid (s := State.setPhase p s) hv]; rfl

/-- The actuator is driven by the record that is held, or not at all (R331). -/
theorem run_bootDrive (h : s.loaded = true) : (bootDrive c).run s = .ok ((), { s with
    act := { hist := s.act.hist ++ if c.bootDrive then [s.record.decision] else [] } }) := by
  rw [bootDrive]
  cases c.bootDrive
  · rw [if_neg Bool.false_ne_true, if_neg Bool.false_ne_true, List.append_nil]; rfl
  · exact Prog.run_bind_ok (run_heldRecord_some (State.held_eq_some.mpr ⟨h, rfl⟩)) _

/-- The state after the first `BOOT`, but for what it returned. -/
def State.bootedUp (s : State) : State :=
  { s.loading with
    irq := { s.irq with attached := true }
    act := { hist := s.act.hist ++ if s.cfg.bootDrive then [s.loading.record.decision] else [] }
    link := if s.cfg.backend = .live then
        { cs := .deasserted, rst := .deasserted, hist := s.link.hist ++ initEvents s.cfg s.draws.byte.1 }
      else s.link
    draws := if s.cfg.backend = .live then s.draws.byte.2 else s.draws
    seq := { s.seq with booted := true, phase := .running } }

theorem run_bootUp (hb : s.seq.booted = false) : (bootUp s.cfg).run s = .ok ((), s.bootedUp) := by
  have htest : (Prog.askBit State.testBooted).run s = .ok (false, s) := by rw [Prog.run_askBit, State.testBooted, hb]
  have hload : (loadRecord s.cfg).run (State.setPhase .booting s) = .ok (_, State.setPhase .booting s.loading) :=
    (run_loadRecord (State.setPhase .booting s)).trans (by rw [State.loading_setPhase])
  obtain ⟨r, d, w, hl⟩ := s.exists_loading_eq
  rw [State.bootedUp]
  rw [hl] at hload ⊢
  rw [bootUp, Prog.run_bind_ok htest, if_neg Bool.false_ne_true, Prog.run_andThen_ok (Prog.run_tell _ _),
    Prog.run_bind_ok hload, Prog.run_andThen_ok (Prog.run_tell _ _), Prog.run_andThen_ok (run_bootDrive rfl)]
  cases hbackend : s.cfg.backend
  · rw [Prog.run_andThen_ok (run_initReader s.cfg _)]; rfl
  · rfl

theorem exec_boot (hb : s.seq.booted = false) : exec .boot s = .next (State.returning .unit s.bootedUp) :=
  perform_andThen_ret (run_bootUp hb) .unit

theorem exec_boot_twice (hb : s.seq.booted = true) : exec .boot s = .fault .bootedTwice := by
  refine perform_bind_error ?_ _
  simp only [bootUp, Prog.run_bind, Prog.run_askBit, State.testBooted, hb, if_true, Prog.run_raise]

/-! ## What operations leave alone -/

theorem exec_cfg {i : Instr} (ht : exec i s = .next t) : t.cfg = s.cfg := (accessMatrix i s t ht).1

theorem exec_act {i : Instr} (hi : i.mayCommand = false) (ht : exec i s = .next t) : t.act = s.act := by
  obtain ⟨r, u, -, rfl, hk⟩ := exec_kept ht
  exact hk.act (by simpa using hi)

theorem exec_tag {i : Instr} (hi : i.mayWriteTag = false) (ht : exec i s = .next t) : t.tag = s.tag := by
  obtain ⟨r, u, -, rfl, hk⟩ := exec_kept ht
  exact hk.tag (by simpa using hi)

theorem exec_held {i : Instr} (hi : i.mayWriteStorage = false) (ht : exec i s = .next t) : t.held = s.held := by
  obtain ⟨r, u, -, rfl, hk⟩ := exec_kept ht
  exact hk.held_eq (by simpa using hi)

/-- An operation that may not command the actuator does not, however often it is repeated. -/
theorem repeatExec_act {i : Instr} (hi : i.mayCommand = false) {n : Nat} (ht : repeatExec i n s = .next t) :
    t.act = s.act ∧ t.cfg = s.cfg := by
  induction n generalizing s with
  | zero => cases ht; exact ⟨rfl, rfl⟩
  | succ n ih =>
    cases hexec : exec i s with
    | next u =>
      obtain ⟨hact, hcfg⟩ := ih ((repeatExec_succ hexec n).symm.trans ht)
      exact ⟨hact.trans (exec_act hi hexec), hcfg.trans (exec_cfg hexec)⟩
    | fault f => rw [repeatExec, hexec] at ht; cases ht
    | refused r => rw [repeatExec, hexec] at ht; cases ht

/-! ## Presentations one after the other (R338) -/

theorem evalAll_cons (h : exec (.eval id) s = .next t) (ids : List (List Byte)) : evalAll (id :: ids) s = evalAll ids t := by
  rw [evalAll, h]

/-- While locked out, presentations change nothing. -/
theorem evalAll_lockedOut (ids : List (List Byte)) (h : s.Ready) (hlsr : s.record.lsr ≠ 0x00#8) :
    ∃ o, evalAll ids s = .next { s with result := o } := by
  induction ids generalizing s with
  | nil => exact ⟨s.result, rfl⟩
  | cons id ids ih =>
    rw [evalAll_cons ((Evaluated.skipped hlsr).exec_eval h)]
    exact ih (s := State.returning (.verdict .skipped) s) ⟨h.booted, h.loaded⟩ hlsr

/-- From `s` to `t`, `n` identifiers that AUTH rejects were presented. -/
structure Presented (n : Nat) (s t : State) : Prop where
  ready : t.Ready
  below : s.record.wrongAttempts.toNat + n < 3 →
    t.record.wrongAttempts.toNat = s.record.wrongAttempts.toNat + n ∧ t.record.lsr = 0x00#8 ∧ t.act = s.act ∧
      t.writes.length = s.writes.length + n
  reached : 3 ≤ s.record.wrongAttempts.toNat + n →
    t.record.wrongAttempts = 0x00#8 ∧ t.record.lsr = 30#8 ∧ t.record.lockState = 0x00#8 ∧
      t.act.hist = s.act.hist ++ [.lock] ∧ t.writes.length = s.writes.length + (3 - s.record.wrongAttempts.toNat)

/-- One more presentation before, which counted. -/
theorem Presented.cons {n : Nat} {u : State} (h : Presented n u t)
    (hwa : u.record.wrongAttempts.toNat = s.record.wrongAttempts.toNat + 1) (hlt : u.record.wrongAttempts.toNat < 3)
    (hact : u.act = s.act) (hwrites : u.writes.length = s.writes.length + 1) : Presented (n + 1) s t where
  ready := h.ready
  below hlt := by
    obtain ⟨hw, hl, ha, hn⟩ := h.below (by omega)
    exact ⟨by omega, hl, ha.trans hact, by omega⟩
  reached hle := by
    obtain ⟨hw, hl, hk, ha, hn⟩ := h.reached (by omega)
    exact ⟨hw, hl, hk, hact ▸ ha, by omega⟩

/-- Rejected identifiers count up to the limit; the lockout they start then skips the others. -/
theorem evalAll_rejected (ids : List (List Byte)) (h : s.Ready) (hlsr : s.record.lsr = 0x00#8)
    (hwa : s.record.wrongAttempts.toNat < 3) (hauth : ∀ id ∈ ids, s.cfg.auth id = false) :
    ∃ t, evalAll ids s = .next t ∧ Presented ids.length s t := by
  induction ids generalizing s with
  | nil => exact ⟨s, rfl, h, fun _ => ⟨rfl, hlsr, rfl, rfl⟩, fun hle => absurd hwa (Nat.not_lt.mpr hle)⟩
  | cons id ids ih =>
    have hfirst := hauth id List.mem_cons_self
    by_cases hlast : s.record.wrongAttempts.toNat + 1 < 3
    · rw [evalAll_cons ((Evaluated.mismatched hlsr hfirst hlast).exec_eval h)]
      have hready := h.deciding_resting [] s.record.counted
      have hcount : (s.deciding [] s.record.counted).record.wrongAttempts.toNat = s.record.wrongAttempts.toNat + 1 :=
        Nat.mod_eq_of_lt (by omega)
      obtain ⟨t, hrun, ht⟩ := ih (s := State.returning (.verdict .mismatched) (s.deciding [] s.record.counted))
        ⟨hready.booted, hready.loaded⟩ hlsr (hcount ▸ hlast) fun id hid => hauth id (List.mem_cons_of_mem _ hid)
      have hact : (s.deciding [] s.record.counted).act = s.act := congrArg Actuator.mk (List.append_nil _)
      exact ⟨t, hrun, ht.cons hcount (hcount ▸ hlast) hact List.length_append⟩
    · have hready := h.deciding_resting [.lock] s.record.lockedOut
      rw [evalAll_cons ((Evaluated.lockoutStarted hlsr hfirst hlast).exec_eval h)]
      obtain ⟨o, ho⟩ := evalAll_lockedOut ids
        (s := State.returning (.verdict .lockoutStarted) (s.deciding [.lock] s.record.lockedOut))
        ⟨hready.booted, hready.loaded⟩ (by decide : (30#8 : Byte) ≠ 0x00#8)
      refine ⟨_, ho, ⟨hready.booted, hready.loaded⟩, fun hlt => ?_, fun _ => ⟨rfl, rfl, rfl, rfl, ?_⟩⟩
      · rw [List.length_cons] at hlt; omega
      · have hsaves : 3 - s.record.wrongAttempts.toNat = 1 := by omega
        rw [hsaves]
        exact List.length_append

/-- Presentations leave a resting machine resting, with its configuration. -/
theorem State.Resting.evalAll {ids : List (List Byte)} (h : s.Resting) (ht : evalAll ids s = .next t) :
    t.Resting ∧ t.cfg = s.cfg := by
  induction ids generalizing s with
  | nil => cases ht; exact ⟨h, rfl⟩
  | cons id ids ih =>
    obtain ⟨v, u, he⟩ := exists_evaluated id s
    have hexec := he.exec_eval h.toReady
    obtain ⟨⟨hb, hl⟩, hsealed, hstored⟩ := he.resting h
    obtain ⟨hrest, hcfg⟩ := ih (s := State.returning (.verdict v) u) ⟨⟨hb, hl⟩, hsealed, hstored⟩
      ((evalAll_cons hexec ids).symm.trans ht)
    exact ⟨hrest, hcfg.trans (exec_cfg hexec)⟩

/-! ## Records, written out -/

section Sealed

variable {m : Byte} {r : Record}

theorem Record.sealed_unlocked (h : r.lsr = 0x00#8) : r.unlocked.sealed m =
    { magic := m, lockState := 0x01#8, wrongAttempts := 0x00#8, lsr := 0x00#8, checksum := m ^^^ 0x01#8 } := by
  simp [Record.sealed, Record.unlocked, fold4, h]

theorem Record.sealed_lockedOut : r.lockedOut.sealed m =
    { magic := m, lockState := 0x00#8, wrongAttempts := 0x00#8, lsr := 30#8, checksum := m ^^^ 30#8 } := by
  simp [Record.sealed, Record.lockedOut, fold4]

theorem Record.sealed_counted (h : r.lsr = 0x00#8) : r.counted.sealed m =
    { magic := m, lockState := r.lockState, wrongAttempts := BitVec.ofNat 8 (r.wrongAttempts.toNat + 1), lsr := 0x00#8
      checksum := m ^^^ r.lockState ^^^ BitVec.ofNat 8 (r.wrongAttempts.toNat + 1) } := by
  simp [Record.sealed, Record.counted, fold4, h]

/-- A sealed record is made of its magic, its lock state, its attempts and its countdown. -/
theorem Record.eq_of_sealed (hs : r.sealed m = r) {l w x : Byte} (hl : r.lockState = l) (hw : r.wrongAttempts = w)
    (hx : r.lsr = x) :
    r = { magic := m, lockState := l, wrongAttempts := w, lsr := x, checksum := m ^^^ l ^^^ w ^^^ x } := by
  subst hl hw hx
  exact hs.symm

end Sealed

end Sys2Proof.Machine

namespace Sys2Proof.LockoutPolicy

/-! ## The statements, in a namespace of their own: `Machine.evaluate` is a program -/

open Machine

/-- Settles O38: the closed form of `BOOT`, its load that of `SLOAD` and its initialisation that of `PINIT`. -/
theorem boot : Obligations.Boot := by
  refine fun s => ⟨exec_boot_twice, fun hb => ?_⟩
  obtain ⟨r, d, w, hl⟩ := s.exists_loading_eq
  refine ⟨_, _, r, perform_bind_ret (run_loadRecord s) .bytes, ?_, perform_andThen_ret (run_initReader s.cfg s) .unit, ?_⟩
  · rw [hl]; rfl
  · rw [exec_boot hb, State.bootedUp, hl]; rfl

/-- Settles O39: the four verdicts, each with the record it saves. -/
theorem evaluate : Obligations.Evaluate := by
  refine fun id s => ⟨fun hb => perform_whenBooted_unbooted hb _ _, fun hb hl => perform_whenBooted_unwritten hb hl _ _, ?_⟩
  intro r hb hr m wa saved
  obtain ⟨hloaded, rfl⟩ := State.held_eq_some.mp hr
  have hready : s.Ready := ⟨hb, hloaded⟩
  have hsaved : ∀ {cs q v}, Evaluated id s v (s.deciding cs q) → saved (q.sealed m) cs v := fun he =>
    ⟨_, he.exec_eval hready, by rw [hloaded]; rfl, State.storing_recordBytes _ _, fun _ => State.storing_read_other _ _⟩
  refine ⟨fun hlsr => (Evaluated.skipped hlsr).exec_eval hready, fun hlsr hauth => ?_, fun hlsr hauth hwa => ?_,
    fun hlsr hauth hwa => ?_⟩
  · rw [← Record.sealed_unlocked hlsr]
    exact hsaved (.matched hlsr hauth)
  · rw [← Record.sealed_lockedOut (r := s.record)]
    exact hsaved (.lockoutStarted hlsr hauth (by omega))
  · have hcount : wa = s.record.wrongAttempts.toNat + 1 := by omega
    rw [hcount, ← Record.sealed_counted hlsr]
    exact hsaved (.mismatched hlsr hauth (by omega))

/-- Settles O40: the state after `TICK`, its record written out. -/
theorem countdownSecond : Obligations.CountdownSecond := by
  refine fun s => ⟨fun hb => perform_whenBooted_unbooted hb _ _, fun hb hl => perform_whenBooted_unwritten hb hl _ _, ?_⟩
  intro r hb hr
  obtain ⟨hloaded, rfl⟩ := State.held_eq_some.mp hr
  have htick := State.Ready.exec_tick ⟨hb, hloaded⟩
  refine ⟨fun hlsr => by rw [htick, State.ticked_of_active hlsr]; rfl, fun hlsr => ?_⟩
  rw [State.ticked_of_lockedOut hlsr] at htick
  have hexpires : s.record.lsr - 1#8 = 0x00#8 ↔ s.record.lsr = 0x01#8 := by bv_omega
  refine ⟨_, s.record.ticked.sealed s.cfg.magic, htick, rfl, rfl, ?_, ?_, rfl, by rw [hloaded]; rfl,
    State.storing_recordBytes _ _, fun _ => State.storing_read_other _ _⟩
  · simp only [Record.sealed, Record.ticked]
    bv_omega
  · simp only [Record.sealed, Record.ticked, hexpires]

/-- Settles O41: the latch is taken, and the save that follows if it was set is `SSAVE`'s. -/
theorem powerFailCheck : Obligations.PowerFailCheck := by
  refine fun s => ⟨fun hb => perform_whenBooted_unbooted hb _ _, fun r hb hr => ?_⟩
  have hcfg : (Machine.takeLatch s).2.cfg = s.cfg := by rw [takeLatch_snd]
  refine ⟨_, _, exec_ltake s, exec_ssave_held (r := r) ((takeLatch_held s).trans hr),
    fun hclear => exec_pfcheck_clear hb hclear, fun hset => ⟨?_, ?_⟩⟩
  · rw [exec_pfcheck_set hb hr hset, ← hcfg]; rfl
  · simp

/-- Settles O42: `LOOP` is its poll in the state after the power-fail check and the seconds. -/
theorem loopIsItsSteps : Obligations.LoopIsItsSteps := by
  intro s hb hloaded
  have hready : s.Ready := ⟨hb, hloaded⟩
  -- the latch, and the seconds
  have hchecked : s.powerChecked.Ready := hready.kept rfl (hready.powerChecked_kept (w := pollingWrites) rfl rfl)
  obtain ⟨o, hticks⟩ := State.Ready.repeatExec_tick (s := State.returning (.bit s.pfl.latch) s.powerChecked)
    ⟨hchecked.booted, hchecked.loaded⟩ s.inp.ticks
  have hcomm : State.ticked^[s.inp.ticks] (State.returning (.bit s.pfl.latch) s.powerChecked) =
      State.returning (.bit s.pfl.latch) (State.ticked^[s.inp.ticks] s.powerChecked) :=
    (commute_ticked_result (some (.bit s.pfl.latch))).iterate_left s.inp.ticks s.powerChecked
  rw [hcomm] at hticks
  refine ⟨_, _, s.polling.record, hready.exec_pfcheck, hticks, hready.polling.held, ?_⟩
  intro s3
  -- the tag
  obtain ⟨b, t, htag⟩ := (Prog.Quiet.tagAvailable s.cfg).run s.polling
  obtain ⟨id, u, hread⟩ := (Prog.Quiet.readTag Config.readMaxLen).run t
  have hpolled : exec .tagavail s3 = .next (State.returning (.bit b) t) :=
    (exec_result _ s.polling o).trans (exec_tagavail_of_run hready.polling_kept.cfg htag)
  have hcopied : exec (.readtag 10#8) (State.returning (.bit b) t) = .next (State.returning (.copied id.length id) u) :=
    (exec_result _ t _).trans (exec_readtag_of_run hread)
  refine ⟨fun hlsr => ⟨_, hpolled, ?_⟩, fun hlsr hdiscard => ⟨_, hpolled, ?_⟩, fun hlsr hnot => ?_⟩
  · cases b with
    | false => exact .inl ⟨rfl, hready.exec_loop_acquire (t := t) hlsr (run_acquire_absent htag)⟩
    | true =>
      refine .inr ⟨rfl, _, _, _, hcopied, rfl, ?_⟩
      by_cases hlen : 0 < id.length
      · obtain ⟨w, v, he⟩ := exists_evaluated id u
        obtain ⟨heval, hloop⟩ := hready.exec_loop_evaluates hlsr htag hread hlen he
        exact .inr ⟨hlen, _, (exec_result _ u _).trans heval, hloop⟩
      · exact .inl ⟨Nat.eq_zero_of_not_pos hlen, hready.exec_loop_reads_nothing (u := u) hlsr htag hread hlen⟩
  · cases b with
    | false => exact .inl ⟨rfl, hready.exec_loop_discardTag (t := t) hlsr (run_discardTag_absent hdiscard htag)⟩
    | true =>
      exact .inr ⟨rfl, _, hcopied,
        hready.exec_loop_discardTag (t := u) hlsr (run_discardTag_present hdiscard htag hread)⟩
  · exact hready.exec_loop_discardTag (t := s.polling) hlsr (run_discardTag_notRead hnot)

/-- While the countdown runs, every operation but `TICK`, `SLOAD` and `LOOP` keeps the record and commands nothing: an
evaluation is skipped, and a save is of the record as it is stored. -/
theorem lockedOut_keeps {i : Instr} {s t : State} (h : s.Resting) (hlsr : s.record.lsr ≠ 0x00#8)
    (ht : exec i s = .next t) (htick : i ≠ .tick) (hsload : i ≠ .sload) (hloop : i ≠ .loop) :
    t.held = some s.record ∧ t.act = s.act := by
  have hheld := h.toReady.held
  cases i with
  | tick => exact absurd rfl htick
  | sload => exact absurd rfl hsload
  | loop => exact absurd rfl hloop
  | boot => rw [exec_boot_twice h.booted] at ht; cases ht
  | eval id =>
    cases ((Evaluated.skipped hlsr).exec_eval h.toReady).symm.trans ht
    exact ⟨hheld, rfl⟩
  | ssave =>
    refine ⟨?_, exec_act rfl ht⟩
    cases (exec_ssave_held hheld).symm.trans ht
    exact congrArg some h.sealed
  | pfcheck =>
    refine ⟨?_, exec_act rfl ht⟩
    cases h.toReady.exec_pfcheck.symm.trans ht
    rw [← h.powerChecked_record]
    exact h.powerChecked.held
  | _ => exact ⟨(exec_held rfl ht).trans hheld, exec_act rfl ht⟩

/-- Settles O44: beside the operations that keep the record, a second counts it down, a load reads it back, and `LOOP`
evaluates nothing. -/
theorem lockoutGuarantee : Obligations.LockoutGuarantee := by
  intro s r hinv hpos hb hr hlsr
  obtain ⟨-, rfl⟩ := State.held_eq_some.mp hr
  have hsettled := hinv.settled hpos
  have hrest : s.Resting := hsettled.resting hb
  have hready := hrest.toReady
  obtain ⟨hvalid, hstored⟩ := hsettled.record s.record hr
  refine ⟨fun id => (Evaluated.skipped hlsr).exec_eval hready,
    fun i t ht htick hsload hloop => (lockedOut_keeps hrest hlsr ht htick hsload hloop).1,
    fun i t ht hcount => ?_, fun hcount => ?_⟩
  · by_cases htick : i = .tick
    · subst htick
      cases hready.exec_tick.symm.trans ht
      have hkept := hready.ticked_kept
      refine ⟨_, (hready.kept rfl hkept).held, hkept.act rfl, hkept.lock rfl, fun hone => ?_⟩
      have hne : 1 ≠ s.record.lsr.toNat := fun e => hone rfl (BitVec.eq_of_toNat_eq e.symm)
      exact (elapsed_iterate_ticked (k := 1) hlsr (by bv_omega)).attempts.trans (if_neg hne)
    by_cases hsload : i = .sload
    · subst hsload
      cases (exec_sload_stored hstored hvalid).symm.trans ht
      exact ⟨s.record, rfl, rfl, rfl, fun _ => rfl⟩
    by_cases hloop : i = .loop
    · obtain ⟨t', ht', hheld, hact, hlock, hwa, -⟩ := hrest.exec_loop_lockedOut hlsr (hcount hloop)
      subst hloop
      cases ht'.symm.trans ht
      exact ⟨_, hheld, hact, hlock, fun _ => hwa⟩
    obtain ⟨hheld, hact⟩ := lockedOut_keeps hrest hlsr ht htick hsload hloop
    exact ⟨_, hheld, hact, rfl, fun _ => rfl⟩
  · obtain ⟨t, ht, hheld, -, -, -, hleft⟩ := hrest.exec_loop_lockedOut hlsr hcount
    exact ⟨t, _, ht, hheld, hleft⟩

/-- An evaluation that completes started from a booted machine with a record. -/
theorem ready_of_eval {id : List Byte} {s t : State} (ht : exec (.eval id) s = .next t) : s.Ready := by
  obtain ⟨hunbooted, hunwritten, -⟩ := evaluate id s
  cases hb : s.seq.booted with
  | false => rw [hunbooted hb] at ht; cases ht
  | true =>
    cases hl : s.loaded with
    | false => rw [hunwritten hb hl] at ht; cases ht
    | true => exact ⟨hb, hl⟩

/-- What an evaluation commands, with the record it leaves. -/
theorem eval_commands {id : List Byte} {s t : State} (ht : exec (.eval id) s = .next t) :
    t.act = s.act ∨
    (t.act.hist = s.act.hist ++ [.unlock] ∧ s.cfg.auth id = true ∧
      ∃ q, t.held = some q ∧ q.lockState = 0x01#8 ∧ q.wrongAttempts = 0x00#8 ∧ q.lsr = 0x00#8) ∨
    (t.act.hist = s.act.hist ++ [.lock] ∧ s.cfg.auth id = false ∧
      ∃ q, t.held = some q ∧ q.lockState = 0x00#8 ∧ q.wrongAttempts = 0x00#8 ∧ q.lsr = 30#8) := by
  obtain ⟨v, u, he, rfl⟩ := exec_eval_cases (ready_of_eval ht) ht
  cases he with
  | skipped => exact .inl rfl
  | matched hlsr hauth => exact .inr (.inl ⟨rfl, hauth, _, rfl, rfl, rfl, hlsr⟩)
  | mismatched => exact .inl (congrArg Actuator.mk (List.append_nil _))
  | lockoutStarted hlsr hauth => exact .inr (.inr ⟨rfl, hauth, _, rfl, rfl, rfl, rfl⟩)

/-- What `READTAG` copied is still the beginning of the tag buffer. -/
theorem copied_eq {n : Byte} {s t : State} {k : Nat} {id : List Byte} (ht : exec (.readtag n) s = .next t)
    (hres : t.result = some (.copied k id)) (hk : 0 < k) : id = t.tag.bytes.take n.toNat := by
  by_cases h : s.tag.valid = false ∨ n.toNat = 0
  · cases (exec_readtag_nothing h).symm.trans ht
    cases hres
    exact absurd hk (Nat.lt_irrefl 0)
  · cases (exec_readtag_copies h).symm.trans ht
    cases hres
    rfl

/-- `LOOP` commands nothing, or what the evaluation of the identifier it copied does (O42). -/
theorem loop_commands {s t : State} (hb : s.seq.booted = true) (ht : exec .loop s = .next t) :
    t.act = s.act ∨ ∃ u v, u.act = s.act ∧ u.cfg = s.cfg ∧ exec (.eval (t.tag.bytes.take 10)) u = .next v ∧
      t = State.returning .unit v := by
  have hloaded : s.loaded = true := by
    by_contra h
    rw [exec_loop_unwritten hb (Bool.eq_false_iff.mpr h)] at ht
    cases ht
  obtain ⟨s1, s2, r, hcheck, hticks, -, hpoll⟩ := loopIsItsSteps s hb hloaded
  obtain ⟨hactive, hdiscard, hnot⟩ := hpoll
  obtain ⟨hact2, hcfg2⟩ := repeatExec_act rfl hticks
  have hact : s2.act = s.act := hact2.trans (exec_act rfl hcheck)
  have hcfg : s2.cfg = s.cfg := hcfg2.trans (exec_cfg hcheck)
  by_cases hlsr : r.lsr = 0x00#8
  · obtain ⟨s4, htag, ⟨-, hloop⟩ | ⟨-, s5, k, id, hread, hcopied, ⟨-, hloop⟩ | ⟨hk, s6, heval, hloop⟩⟩⟩ := hactive hlsr
    · cases hloop.symm.trans ht
      exact .inl ((exec_act rfl htag).trans hact)
    · cases hloop.symm.trans ht
      exact .inl ((exec_act rfl hread).trans ((exec_act rfl htag).trans hact))
    · cases hloop.symm.trans ht
      refine .inr ⟨s5, s6, (exec_act rfl hread).trans ((exec_act rfl htag).trans hact),
        (exec_cfg hread).trans ((exec_cfg htag).trans hcfg), ?_, rfl⟩
      have htaken : id = s6.tag.bytes.take 10 := (copied_eq hread hcopied hk).trans (by rw [exec_tag rfl heval]; rfl)
      exact htaken ▸ heval
  · cases hhandling : s.cfg.lockoutTags with
    | readAndDiscard =>
      obtain ⟨s4, htag, ⟨-, hloop⟩ | ⟨-, s5, hread, hloop⟩⟩ := hdiscard hlsr hhandling
      · cases hloop.symm.trans ht
        exact .inl ((exec_act rfl htag).trans hact)
      · cases hloop.symm.trans ht
        exact .inl ((exec_act rfl hread).trans ((exec_act rfl htag).trans hact))
    | notRead =>
      cases (hnot hlsr hhandling).symm.trans ht
      exact .inl hact

/-- Settles O45: only an evaluation commands, and that of `LOOP` is of what its `READTAG` copied. -/
theorem unlockOnlyOnMatch : Obligations.UnlockOnlyOnMatch := by
  intro i s t hb ht
  cases hi : i.mayCommand with
  | false => exact .inl (exec_act hi ht)
  | true =>
    cases i with
    | boot => rw [exec_boot_twice hb] at ht; cases ht
    | eval id =>
      rcases eval_commands ht with h | ⟨h, hauth, hq⟩ | ⟨h, hauth, hq⟩
      · exact .inl h
      · exact .inr (.inl ⟨h, ⟨id, hauth, .inl rfl⟩, hq⟩)
      · exact .inr (.inr ⟨h, ⟨id, hauth, .inl rfl⟩, hq⟩)
    | loop =>
      rcases loop_commands hb ht with h | ⟨u, v, hact, hcfg, heval, rfl⟩
      · exact .inl h
      · have hcommands := eval_commands heval
        rw [hact, hcfg] at hcommands
        rcases hcommands with h | ⟨h, hauth, hq⟩ | ⟨h, hauth, hq⟩
        · exact .inl h
        · exact .inr (.inl ⟨h, ⟨_, hauth, .inr ⟨rfl, rfl⟩⟩, hq⟩)
        · exact .inr (.inr ⟨h, ⟨_, hauth, .inr ⟨rfl, rfl⟩⟩, hq⟩)
    | _ => cases hi

/-- Settles O46: the presentations that count, and the one that starts the lockout. -/
theorem mismatchSequence : Obligations.MismatchSequence := by
  intro ids s r hb hr hlsr hwa hauth
  obtain ⟨hloaded, rfl⟩ := State.held_eq_some.mp hr
  obtain ⟨t, ht, hpresented⟩ := evalAll_rejected ids ⟨hb, hloaded⟩ hlsr hwa hauth
  exact ⟨t, t.record, ht, hpresented.ready.held, hpresented.below, hpresented.reached⟩

/-- The first `BOOT` of a device whose stored record is corrupt, without an actuator drive. -/
theorem exec_boot_corrupt {s : State} (hb : s.seq.booted = false) (hdrive : s.cfg.bootDrive = false)
    (hcorrupt : (Record.ofBytes s.recordBytes).valid s.cfg = false) : ∃ t, exec .boot s = .next t ∧ t.Resting ∧
      t.record = defaultRecord s.cfg.magic ∧ t.cfg = s.cfg ∧ t.act = s.act ∧
      t.writes.length = s.writes.length + 1 := by
  obtain ⟨l, p, r, hload, hr, -, hboot⟩ := (boot s).2 hb
  cases hload.symm.trans (exec_sload_corrupt hcorrupt)
  obtain rfl : defaultRecord s.cfg.magic = r := Option.some.inj hr
  refine ⟨_, hboot, ⟨⟨rfl, rfl⟩, ?_, State.storing_recordBytes _ s⟩, rfl, rfl, ?_, List.length_append⟩
  · exact Record.sealed_of_valid s.cfg _ (defaultRecord_valid s.cfg)
  · rw [hdrive, if_neg Bool.false_ne_true, List.append_nil]

/-- A countdown taken to its end: Active again, with no attempts, and nothing else of the record changed. -/
theorem repeatExec_tick_expires {s : State} {n : Nat} (h : s.Resting) (hlsr : s.record.lsr ≠ 0x00#8)
    (hn : s.record.lsr.toNat = n) : ∃ t, repeatExec .tick n s = .next t ∧ t.Resting ∧ t.cfg = s.cfg ∧ t.act = s.act ∧
      t.record.lockState = s.record.lockState ∧ t.record.wrongAttempts = 0x00#8 ∧ t.record.lsr = 0x00#8 ∧
      t.writes.length = s.writes.length + n := by
  obtain ⟨o, hticks⟩ := h.toReady.repeatExec_tick n
  obtain ⟨hl, hwa, hwrites⟩ := elapsed_iterate_ticked hlsr hn.ge
  have hkept := h.toReady.iterate_ticked_kept n
  obtain ⟨⟨hb, hloaded⟩, hsealed, hstored⟩ := h.iterate_ticked n
  refine ⟨_, hticks, ⟨⟨hb, hloaded⟩, hsealed, hstored⟩, hkept.cfg, hkept.act rfl, hkept.lock rfl,
    hwa.trans (if_pos hn.symm), BitVec.eq_of_toNat_eq ?_, hwrites⟩
  exact hl.trans (by rw [hn, Nat.sub_self]; rfl)

/-- Settles O47: a load that heals, O46 for three identifiers, and a countdown of thirty seconds. -/
theorem freshDevice : Obligations.FreshDevice := by
  intro s a b c hb hdrive hcorrupt ha hb' hc rec0 rec1
  obtain ⟨t0, hboot, hrest0, hrec0, hcfg0, hact0, hwrites0⟩ := exec_boot_corrupt hb hdrive hcorrupt
  change t0.record = rec0 at hrec0
  have hnone : t0.record.wrongAttempts.toNat = 0 := by rw [hrec0]; rfl
  -- three wrong cards
  obtain ⟨t1, hevals, hpresented⟩ := evalAll_rejected [a, b, c] hrest0.toReady (by rw [hrec0]; rfl) (by omega)
    (by rw [hcfg0]; simp [ha, hb', hc])
  obtain ⟨hwa1, hlsr1, hlock1, hact1, hwrites1⟩ := hpresented.reached (by rw [hnone]; exact le_refl 3)
  obtain ⟨hrest1, hcfg1⟩ := hrest0.evalAll hevals
  have hrec1 : t1.record = rec1 := by
    rw [Record.eq_of_sealed hrest1.sealed hlock1 hwa1 hlsr1, hcfg1, hcfg0, BitVec.xor_zero, BitVec.xor_zero]
    rfl
  -- thirty seconds
  obtain ⟨t2, hticks, hrest2, hcfg2, hact2, hlock2, hwa2, hlsr2, hwrites2⟩ :=
    repeatExec_tick_expires (n := 30) hrest1 (by rw [hlsr1]; decide) (by rw [hlsr1]; rfl)
  have hrec2 : t2.record = rec0 := by
    rw [Record.eq_of_sealed hrest2.sealed (hlock2.trans hlock1) hwa2 hlsr2, hcfg2, hcfg1, hcfg0, BitVec.xor_zero,
      BitVec.xor_zero, BitVec.xor_zero]
    rfl
  refine ⟨t0, t1, t2, hboot, ?_, ?_, ?_, hevals, ?_, ?_, ?_, hact0 ▸ hact1, hticks, ?_, ?_, ?_, hact2, by omega⟩
  · rw [hrest0.held, hrec0]
  · rw [hrest0.stored, hrec0]
  · rw [hrest0.mode, hrec0]; rfl
  · rw [hrest1.held, hrec1]
  · rw [hrest1.stored, hrec1]
  · rw [hrest1.mode, hrec1]; rfl
  · rw [hrest2.held, hrec2]
  · rw [hrest2.stored, hrec2]
  · rw [hrest2.mode, hrec2]; rfl

end Sys2Proof.LockoutPolicy
end

section
/-! SUPPORT. How an operation can end (60_exceptions.md R366, R367; O43): its four endings, each with the state it needs, and
the operations that cannot raise. -/

namespace Sys2Proof.Machine

variable {s t : State} {i : Instr}

/-! ## The operations without a fault -/

/-- Beside `BOOT`, `SSAVE` and what needs a completed `BOOT`, no operation's pseudocode raises. -/
theorem program_quiet (c : Config) (hpolicy : i.needsBoot = false) (hboot : i ≠ .boot) (hsave : i ≠ .ssave) :
    (program c i).Quiet := by
  have hreturn : ∀ {α : Type} {p : Prog α} (f : α → OpResult), p.Quiet → (p.bind fun a => .ret (f a)).Quiet :=
    fun _ hp => hp.bind fun _ => trivial
  cases i with
  | boot => exact absurd rfl hboot
  | ssave => exact absurd rfl hsave
  | eval | tick | pfcheck | loop => cases hpolicy
  | xwr | linkWrite | pcdIdle | pcdCalcCrc | pcdTransceive | pcdSoftReset => exact hreturn _ (.linkWrite _ _)
  | xrd => exact hreturn _ (.linkRead _)
  | xsetb | panton => exact hreturn _ (.setBits _ _)
  | xclrb => exact hreturn _ ((Prog.Quiet.linkRead _).bind fun _ => .linkWrite _ _)
  | xwait => exact hreturn _ (.waitFlag _ _)
  | xdelay => exact hreturn _ (.tell _)
  | xrst => exact hreturn _ (.resetPulse _)
  | pinit => exact hreturn _ (.initReader _)
  | pxcv | reqa | anticollCl1 => exact hreturn _ (.transceive _ _ _ _ _)
  | preqa | panticoll => exact hreturn _ (.checked (.transceive _ _ _ _ _) _)
  | pcrc => exact hreturn _ (.computeCrc _ _)
  | tagavail => exact hreturn _ (.tagAvailable _)
  | readtag => exact hreturn _ (.readTag _)
  | sload => exact hreturn _ (.loadRecord _)
  | ltake => exact hreturn _ .ask
  | linkRead => exact hreturn _ fun _ _ _ => trivial

/-- An operation that cannot raise completes. -/
theorem exists_exec_of_quiet (h : (program s.cfg i).Quiet) : ∃ t, exec i s = .next t := by
  obtain ⟨r, u, hrun⟩ := h.run s
  exact ⟨_, (exec_eq_perform i s).trans (perform_ok hrun)⟩

/-! ## The policy operations -/

/-- `LOOP` completes when `BOOT` has completed and the record is loaded, whatever the detector finds. -/
theorem State.Ready.exists_exec_loop (h : s.Ready) : ∃ t, exec .loop s = .next t := by
  by_cases hlsr : s.polling.record.lsr = 0x00#8
  · obtain ⟨present, t, htag⟩ := (Prog.Quiet.tagAvailable s.cfg).run s.polling
    cases present with
    | false => exact ⟨_, h.exec_loop_acquire hlsr (run_acquire_absent htag)⟩
    | true =>
      obtain ⟨id, u, hread⟩ := (Prog.Quiet.readTag Config.readMaxLen).run t
      by_cases hlen : 0 < id.length
      · obtain ⟨w, v, he⟩ := exists_evaluated id u
        exact ⟨_, (h.exec_loop_evaluates hlsr htag hread hlen he).2⟩
      · exact ⟨_, h.exec_loop_reads_nothing hlsr htag hread hlen⟩
  · obtain ⟨t, hrun, -⟩ := exists_run_discardTag s.cfg s.polling
    exact ⟨_, h.exec_loop_discardTag hlsr hrun⟩

/-- `PFCHECK` without a record faults where it would save one. -/
theorem exec_pfcheck_unwritten (hb : s.seq.booted = true) (hl : s.loaded = false) (hlatch : s.pfl.latch = true) :
    exec .pfcheck s = .fault .unwritten := by
  have hl' : (takeLatch s).2.loaded = false := by rw [takeLatch_snd]; exact hl
  refine perform_bind_error ?_ _
  rw [run_checkPowerFail hb, if_pos hlatch, Prog.andThen, Prog.run_bind, run_persist_none s.cfg hl']

/-- Before `BOOT` every operation that needs it faults (R367). -/
theorem exec_notBooted (hi : i.needsBoot = true) (hb : s.seq.booted = false) : exec i s = .fault .notBooted := by
  cases i with
  | eval | tick | pfcheck | loop => exact perform_whenBooted_unbooted hb _ _
  | _ => cases hi

/-- With a record such an operation completes. -/
theorem State.Ready.exists_exec (h : s.Ready) (hi : i.needsBoot = true) : ∃ t, exec i s = .next t := by
  cases i with
  | eval id =>
    obtain ⟨v, u, he⟩ := exists_evaluated id s
    exact ⟨_, he.exec_eval h⟩
  | tick => exact ⟨_, h.exec_tick⟩
  | pfcheck => exact ⟨_, h.exec_pfcheck⟩
  | loop => exact h.exists_exec_loop
  | _ => cases hi

/-- Without one it faults, but for a `PFCHECK` that has nothing to save (R366). -/
theorem exec_unwritten_or_next (hi : i.needsBoot = true) (hb : s.seq.booted = true) (hl : s.loaded = false) :
    exec i s = .fault .unwritten ∨ ∃ t, exec i s = .next t := by
  cases i with
  | eval | tick => exact .inl (perform_whenBooted_unwritten hb hl _ _)
  | loop => exact .inl (exec_loop_unwritten hb hl)
  | pfcheck =>
    cases hlatch : s.pfl.latch with
    | false => exact .inr ⟨_, exec_pfcheck_clear hb hlatch⟩
    | true => exact .inl (exec_pfcheck_unwritten hb hl hlatch)
  | _ => cases hi

/-! ## The endings of an operation -/

/-- How an operation can end, with what each ending needs of the operation and of the state. -/
inductive Ending (i : Instr) (s : State) : Host.Outcome State Fault Refusal → Prop
  | completed (t : State) (hpolicy : i.needsBoot = true → s.seq.booted = true) (hboot : i = .boot → s.seq.booted = false) :
      Ending i s (.next t)
  | unwritten (hi : (i.needsBoot = true ∧ s.seq.booted = true) ∨ i = .ssave) (hl : s.loaded = false) :
      Ending i s (.fault .unwritten)
  | notBooted (hi : i.needsBoot = true) (hb : s.seq.booted = false) : Ending i s (.fault .notBooted)
  | bootedTwice (hi : i = .boot) (hb : s.seq.booted = true) : Ending i s (.fault .bootedTwice)

/-- To complete is an ending wherever neither fault of R367 is due. -/
theorem Ending.of_exists (h : ∃ t, exec i s = .next t) (hpolicy : i.needsBoot = true → s.seq.booted = true)
    (hboot : i = .boot → s.seq.booted = false) : Ending i s (exec i s) := by
  obtain ⟨t, ht⟩ := h
  exact ht ▸ .completed t hpolicy hboot

theorem exec_ending_policy (hi : i.needsBoot = true) : Ending i s (exec i s) := by
  have hboot : i = .boot → s.seq.booted = false := by rintro rfl; cases hi
  cases hb : s.seq.booted with
  | false => exact exec_notBooted hi hb ▸ .notBooted hi hb
  | true =>
    have hcompletes : (∃ t, exec i s = .next t) → Ending i s (exec i s) :=
      fun h => .of_exists h (fun _ => hb) hboot
    cases hl : s.loaded with
    | false =>
      rcases exec_unwritten_or_next hi hb hl with h | h
      · exact h ▸ .unwritten (.inl ⟨hi, hb⟩) hl
      · exact hcompletes h
    | true => exact hcompletes (State.Ready.exists_exec ⟨hb, hl⟩ hi)

theorem exec_ending_boot : Ending .boot s (exec .boot s) := by
  cases hb : s.seq.booted with
  | false => exact .of_exists ⟨_, exec_boot hb⟩ nofun fun _ => hb
  | true => exact exec_boot_twice hb ▸ .bootedTwice rfl hb

theorem exec_ending_ssave : Ending .ssave s (exec .ssave s) := by
  cases hl : s.loaded with
  | false => exact exec_ssave_unwritten hl ▸ .unwritten (.inr rfl) hl
  | true => exact .of_exists ⟨_, exec_ssave_held (State.held_eq_some.mpr ⟨hl, rfl⟩)⟩ nofun nofun

/-- Every operation ends in one of these ways. -/
theorem exec_ending (i : Instr) (s : State) : Ending i s (exec i s) := by
  by_cases hpolicy : i.needsBoot = true
  · exact exec_ending_policy hpolicy
  by_cases hboot : i = .boot
  · exact hboot ▸ exec_ending_boot
  by_cases hsave : i = .ssave
  · exact hsave ▸ exec_ending_ssave
  exact .of_exists (exists_exec_of_quiet (program_quiet s.cfg (Bool.eq_false_iff.mpr hpolicy) hboot hsave))
    (fun h => absurd h hpolicy) (fun h => absurd h hboot)

section Readings

variable {o : Host.Outcome State Fault Refusal}

theorem Ending.notBooted_iff (h : Ending i s o) : o = .fault .notBooted ↔ i.needsBoot = true ∧ s.seq.booted = false := by
  cases h with
  | completed t hpolicy _ => exact ⟨nofun, fun ⟨hi, hb⟩ => absurd (hpolicy hi) (by simp [hb])⟩
  | unwritten hi _ =>
    refine ⟨nofun, fun ⟨hn, hb⟩ => ?_⟩
    obtain ⟨-, hb'⟩ | rfl := hi
    · exact absurd hb' (by simp [hb])
    · cases hn
  | notBooted hi hb => exact ⟨fun _ => ⟨hi, hb⟩, fun _ => rfl⟩
  | bootedTwice hi _ => exact ⟨nofun, fun ⟨hn, _⟩ => by subst hi; cases hn⟩

theorem Ending.bootedTwice_iff (h : Ending i s o) : o = .fault .bootedTwice ↔ i = .boot ∧ s.seq.booted = true := by
  cases h with
  | completed t _ hboot => exact ⟨nofun, fun ⟨hi, hb⟩ => absurd (hboot hi) (by simp [hb])⟩
  | unwritten hi _ =>
    refine ⟨nofun, fun ⟨hboot, _⟩ => ?_⟩
    subst hboot
    obtain ⟨hn, -⟩ | hs := hi
    · cases hn
    · cases hs
  | notBooted hi _ => exact ⟨nofun, fun ⟨hboot, _⟩ => by subst hboot; cases hi⟩
  | bootedTwice hi hb => exact ⟨fun _ => ⟨hi, hb⟩, fun _ => rfl⟩

/-- What is not sequenced completes, `SSAVE` with a record. -/
theorem Ending.exists_next (h : Ending i s o) (hpolicy : i.needsBoot = false) (hboot : i ≠ .boot)
    (hsave : i = .ssave → s.loaded = true) : ∃ t, o = .next t := by
  cases h with
  | completed t _ _ => exact ⟨t, rfl⟩
  | unwritten hi hl =>
    obtain ⟨hn, -⟩ | hs := hi
    · exact absurd hn (by simp [hpolicy])
    · exact absurd (hsave hs) (by simp [hl])
  | notBooted hi _ => exact absurd hi (by simp [hpolicy])
  | bootedTwice hi _ => exact absurd hi hboot

theorem Ending.ne_refused (h : Ending i s o) (r : Refusal) : o ≠ .refused r := by cases h <;> nofun

end Readings

/-- Settles O43: each clause is read off the endings. -/
theorem sequencingFaults : Obligations.SequencingFaults :=
  ⟨fun i s => (exec_ending i s).notBooted_iff, fun i s => (exec_ending i s).bootedTwice_iff,
    fun i s => (exec_ending i s).exists_next, fun i s => (exec_ending i s).ne_refused⟩

end Sys2Proof.Machine
end

section
/-! SUPPORT. What any moves leave in storage, and what a power loss finds there (20_memory.md R66, 60_exceptions.md R382; O53):
whole records, one after the other, replayed on the old storage. -/

namespace Sys2Proof.Machine

variable {w : Writes} {s t u : State} {ws : List StorageWrite} {ms : List Move}

/-! ## Sequences of whole records -/

/-- Each write is a whole record at the record's offset (R66, R68). -/
def WholeRecords (ws : List StorageWrite) : Prop := ∀ w ∈ ws, ∃ r : Record, w = (Config.recordOffset, r.bytes)

theorem WholeRecords.append {vs : List StorageWrite} (hv : WholeRecords vs) (hw : WholeRecords ws) :
    WholeRecords (vs ++ ws) := fun x hx => (List.mem_append.mp hx).elim (hv x) (hw x)

theorem wholeRecords_one (r : Record) : WholeRecords [(Config.recordOffset, r.bytes)] :=
  fun _ hx => ⟨r, List.mem_singleton.mp hx⟩

/-- The bytes beyond the record survive. -/
theorem WholeRecords.read_replay_other (h : WholeRecords ws) (m : Memory) {a : Nat} (ha : Config.recordSize ≤ a) :
    Memory.read (Memory.replay m ws) a = Memory.read m a := by
  induction ws generalizing m with
  | nil => rfl
  | cons x ws ih =>
    obtain ⟨r, rfl⟩ := h x List.mem_cons_self
    rw [Memory.replay, ih (fun y hy => h y (List.mem_cons_of_mem _ hy))]
    exact Memory.read_writeBytes_other _ _ _ _ (.inr (by rwa [Record.length_bytes, Config.recordOffset, Nat.zero_add]))

/-- The last record written is the one that is read back. -/
theorem WholeRecords.readBytes_replay_last (h : WholeRecords ws) (m : Memory) {x : StorageWrite}
    (hx : ws.getLast? = some x) :
    Memory.readBytes (Memory.replay m ws) Config.recordOffset Config.recordSize = x.2 := by
  obtain ⟨vs, rfl⟩ := List.getLast?_eq_some_iff.mp hx
  obtain ⟨r, rfl⟩ := h x (List.mem_append_right _ List.mem_cons_self)
  rw [Memory.replay_append]
  exact Memory.readBytes_writeBytes r.bytes _ Config.recordOffset

/-! ## What a stretch of a run writes -/

/-- From `s` to `t` the configuration and the schedule stay, and storage takes whole records alone, each recorded in the
write history. -/
structure Recorded (s t : State) : Prop where
  cfg : t.cfg = s.cfg
  moves : t.moves = s.moves
  stored : ∃ ws, WholeRecords ws ∧ t.writes = s.writes ++ ws ∧ t.durable = Memory.replay s.durable ws

/-- Nothing reaches storage. -/
theorem Recorded.still (hc : t.cfg = s.cfg) (hm : t.moves = s.moves) (hw : t.writes = s.writes)
    (hd : t.durable = s.durable) : Recorded s t :=
  ⟨hc, hm, [], nofun, hw.trans (List.append_nil _).symm, hd⟩

theorem Recorded.refl (s : State) : Recorded s s := .still rfl rfl rfl rfl

theorem Recorded.trans (h : Recorded s t) (k : Recorded t u) : Recorded s u := by
  obtain ⟨hc, hm, vs, hv, hvw, hvd⟩ := h
  obtain ⟨kc, km, ws, kw, kww, kwd⟩ := k
  exact ⟨kc.trans hc, km.trans hm, vs ++ ws, hv.append kw, by rw [kww, hvw, List.append_assoc],
    by rw [kwd, hvd, Memory.replay_append]⟩

/-- The rest of the schedule is nothing to storage. -/
theorem Recorded.withMoves (h : Recorded s t) (ms : List Move) : Recorded { s with moves := ms } { t with moves := ms } :=
  ⟨h.cfg, rfl, h.stored⟩

/-! ## Each agent -/

theorem Atom.recorded {f : State → Answer × State} (h : Atom w f) (s : State) : Recorded s (f s).2 := by
  have hk := h.kept s
  rcases h.written s with ⟨hd, hw⟩ | ⟨r, hd, hw⟩
  · exact .still hk.cfg hk.moves hw hd
  · exact ⟨hk.cfg, hk.moves, _, wholeRecords_one r, hw, hd⟩

theorem recorded_of_perform {p : Prog OpResult} (hp : p.Each (Atom w)) (h : perform p s = .next t) : Recorded s t := by
  obtain ⟨r, v, hrun, rfl⟩ := perform_next h
  have hv : Recorded s v := (hp.mono fun _ hf => hf.recorded).run .refl (fun _ _ _ => .trans) hrun
  exact hv.trans (.still rfl rfl rfl rfl)

/-- Issuing an operation leaves storage alone. -/
theorem recorded_of_fetch {i : Instr} (h : fetch s = .ok (i, u)) : Recorded s u := by
  rw [(fetch_ok h).1]
  exact .still rfl rfl rfl rfl

theorem runSequencer_recorded (h : runSequencer s = .next t) : Recorded s t := by
  unfold runSequencer at h
  split at h
  · next p _ =>
    have hidle : Recorded s s.idle := .still rfl rfl rfl rfl
    exact hidle.trans (recorded_of_perform (remaining_each s.cfg p) h)
  · split at h
    · cases h
    · next x hx =>
      rw [exec_eq_perform] at h
      exact (recorded_of_fetch hx).trans (recorded_of_perform (program_lawful x.2.cfg x.1).each h)

theorem advance_recorded (h : advance s = .next t) : Recorded s t := by
  rcases advance_cases h with ⟨-, i, u, hf, rfl⟩ | ⟨p, act, next, -, hr, rfl⟩ | ⟨p, r, -, -, rfl⟩
  · exact (recorded_of_fetch hf).trans (.still rfl rfl rfl rfl)
  · exact ((atom_of_remaining hr).recorded s).trans (.still rfl rfl rfl rfl)
  · exact .still rfl rfl rfl rfl

theorem arrive_recorded (a : Arrival) (s : State) : Recorded s (arrive a s) := by
  cases a with
  | edge => rw [arrive, takeEdge_eq]; exact .still rfl rfl rfl rfl
  | second | char => exact .still rfl rfl rfl rfl

/-- Every move but the loss of power uses up its entry of the schedule and writes whole records alone. -/
theorem step_recorded {m : Move} (hm : s.moves = m :: ms) (hloss : ∀ c, m ≠ .powerLoss c) (h : step s = .next t) :
    Recorded { s with moves := ms } t := by
  simp only [step, hm] at h
  cases m with
  | sequencer => exact runSequencer_recorded h
  | advance => exact advance_recorded h
  | arrive a => exact Host.Outcome.next.inj h ▸ arrive_recorded a _
  | powerLoss c => exact absurd rfl (hloss c)

/-! ## Runs up to the loss -/

/-- A run that answers took its first step. -/
theorem run_succ_next {n : Nat} (h : Host.Core.run Sys2Proof.core (n + 1) s = .next u) :
    ∃ t, step s = .next t ∧ Host.Core.run Sys2Proof.core n t = .next u := by
  cases hs : step s with
  | next t => exact ⟨t, rfl, (run_of_next hs).symm.trans h⟩
  | fault f | refused r =>
    simp only [Host.Core.run, Host.Check.core_step, hs] at h
    cases h

/-- Any moves without a loss of power write whole records alone. -/
theorem run_recorded {mvs : List Move} (hloss : ∀ c, Move.powerLoss c ∉ mvs) (hm : s.moves = mvs ++ ms)
    (h : Host.Core.run Sys2Proof.core mvs.length s = .next u) : Recorded { s with moves := ms } u := by
  induction mvs generalizing s with
  | nil => cases h; exact .still rfl hm rfl rfl
  | cons m mvs ih =>
    obtain ⟨t, hstep, hrun⟩ := run_succ_next h
    have hfirst := step_recorded hm (fun c e => hloss c (e ▸ List.mem_cons_self)) hstep
    have hrest := ih (fun c hc => hloss c (List.mem_cons_of_mem _ hc)) hfirst.moves hrun
    exact (hfirst.withMoves ms).trans hrest

/-- The step of a power loss. -/
theorem step_powerLoss {chars : List Byte} (h : s.moves = .powerLoss chars :: ms) :
    step s = .next (State.powerUp chars { s with moves := ms }) := by
  simp only [step, h]; rfl

/-- Settles O53: the moves left whole records in storage, and power-up leaves storage as it finds it. -/
theorem powerLoss : Obligations.PowerLoss := by
  intro s u mvs ms chars hloss hm hrun
  obtain ⟨(hcfg : u.cfg = s.cfg), hmoves, ws, hwhole, hwrites, (hdurable : u.durable = Memory.replay s.durable ws)⟩ :=
    run_recorded hloss hm hrun
  have hbytes : (State.powerUp chars { u with moves := ms }).recordBytes =
      Memory.readBytes (Memory.replay s.durable ws) Config.recordOffset Config.recordSize := by rw [← hdurable]; rfl
  refine ⟨_, ws, step_powerLoss hmoves, ?_, hwrites, hwhole, hdurable, ?_, fun w hw => ?_, fun a ha => ?_⟩
  · rw [← hcfg]; rfl
  · rintro rfl; exact hbytes
  · exact hbytes.trans (hwhole.readBytes_replay_last _ hw)
  · rw [State.powerUp_durable, hdurable]
    exact hwhole.read_replay_other _ ha

end Sys2Proof.Machine
end

section
/-! SUPPORT. What a power loss takes away (70_reset_and_hazards.md R406; O54): a loaded record stays loaded until the power is
lost, so the record in storage is valid at that moment, and `BOOT` takes it as it is. -/

namespace Sys2Proof.Machine

variable {s t u : State} {r : Record} {ws : List StorageWrite} {ms mvs : List Move}

/-! ## A loaded record stays loaded -/

theorem perform_loaded {w : Writes} {p : Prog OpResult} (hp : p.Each (Atom w)) (hs : s.loaded = true)
    (h : perform p s = .next t) : t.loaded = true := by
  obtain ⟨r, v, hrun, rfl⟩ := perform_next h
  exact (hp.kept hrun).held hs

theorem fetch_loaded {i : Instr} (h : fetch s = .ok (i, u)) : u.loaded = s.loaded := by
  rw [(fetch_ok h).1]

theorem runSequencer_loaded (hs : s.loaded = true) (h : runSequencer s = .next t) : t.loaded = true := by
  unfold runSequencer at h
  split at h
  · next p _ => exact perform_loaded (s := s.idle) (remaining_each s.cfg p) hs h
  · split at h
    · cases h
    · next x hx =>
      rw [exec_eq_perform] at h
      exact perform_loaded (program_lawful x.2.cfg x.1).each ((fetch_loaded hx).trans hs) h

theorem advance_loaded (hs : s.loaded = true) (h : advance s = .next t) : t.loaded = true := by
  rcases advance_cases h with ⟨-, i, u, hf, rfl⟩ | ⟨p, act, next, -, hr, rfl⟩ | ⟨p, r, -, -, rfl⟩
  · exact (fetch_loaded hf).trans hs
  · exact ((atom_of_remaining hr).kept s).held hs
  · exact hs

/-- Only the loss of power unloads the record. -/
theorem step_loaded (hs : s.loaded = true) (hloss : ∀ c ms, s.moves ≠ .powerLoss c :: ms) (h : step s = .next t) :
    t.loaded = true := by
  rcases step_cases h with ⟨ms, -, h⟩ | ⟨ms, -, h⟩ | ⟨ms, a, -, rfl⟩ | ⟨ms, c, hm, -⟩
  · exact runSequencer_loaded (s := { s with moves := ms }) hs h
  · exact advance_loaded (s := { s with moves := ms }) hs h
  · exact (Disturbed.arrive a { s with moves := ms }).loaded.trans hs
  · exact absurd hm (hloss c ms)

/-- Any moves without a loss of power keep the invariant and the record loaded. -/
theorem run_inv_loaded (hi : s.Inv) (hs : s.loaded = true) (hloss : ∀ c, Move.powerLoss c ∉ mvs)
    (hm : s.moves = mvs ++ ms) (h : Host.Core.run Sys2Proof.core mvs.length s = .next u) :
    u.Inv ∧ u.loaded = true := by
  induction mvs generalizing s with
  | nil => cases h; exact ⟨hi, hs⟩
  | cons m mvs ih =>
    obtain ⟨t, hstep, hrun⟩ := run_succ_next h
    have hfirst : ∀ c, m ≠ .powerLoss c := fun c e => hloss c (e ▸ List.mem_cons_self)
    have hloaded := step_loaded hs (fun c _ e => hfirst c (List.cons.inj (hm.symm.trans e)).1) hstep
    exact ih (hi.step hstep) hloaded (fun c hc => hloss c (List.mem_cons_of_mem _ hc))
      (step_recorded hm hfirst hstep).moves hrun

/-! ## The record in storage -/

/-- Between operations the record that is held is the one in storage (R45). -/
theorem State.recordStored.ofBytes_eq (h : s.recordStored) (hr : s.held = some r) :
    Record.ofBytes s.recordBytes = r := by
  rw [(h r hr).2, Record.ofBytes_bytes]

/-- The last of some whole records is the record that storage then holds (R66). -/
theorem WholeRecords.getLast_eq (h : WholeRecords ws) (hd : t.durable = Memory.replay s.durable ws) {x : StorageWrite}
    (hx : ws.getLast? = some x) : x = (Config.recordOffset, (Record.ofBytes t.recordBytes).bytes) := by
  have hbytes : t.recordBytes = x.2 := by rw [State.recordBytes, hd, h.readBytes_replay_last _ hx]
  obtain ⟨r, rfl⟩ := h x (List.mem_of_getLast? hx)
  rw [hbytes, Record.ofBytes_bytes]

/-- `BOOT` takes a valid stored record as it is, and writes no storage (R330, R274). -/
theorem exec_boot_stored (hb : s.seq.booted = false) (hv : (Record.ofBytes s.recordBytes).valid s.cfg = true) :
    ∃ v, exec .boot s = .next v ∧ v.held = some (Record.ofBytes s.recordBytes) ∧ v.writes = s.writes := by
  refine ⟨_, exec_boot hb, ?_, ?_⟩ <;> rw [State.bootedUp, State.loading_of_valid hv] <;> rfl

/-- Settles O54: the record stays loaded up to the loss, so what storage holds then is valid; it is what the moves wrote
last, or what `s` had stored, and `BOOT` loads it. -/
theorem resumption : Obligations.Resumption := by
  intro s u r mvs ms chars hi hp hr hloss hm hrun
  obtain ⟨(hcfg : u.cfg = s.cfg), hmoves, ws, hwhole, hwrites, (hdurable : u.durable = Memory.replay s.durable ws)⟩ :=
    run_recorded hloss hm hrun
  obtain ⟨hui, hul⟩ := run_inv_loaded hi (State.held_eq_some.mp hr).1 hloss hm hrun
  have hvalid := hui.always.stored hul
  obtain ⟨v, hboot, hheld, hvw⟩ := exec_boot_stored (s := State.powerUp chars { u with moves := ms }) rfl hvalid
  refine ⟨ws, _, v, _, hwrites, step_powerLoss hmoves, hboot, hheld, hcfg ▸ hvalid, hvw, ?unsaved, ?saved, ?idle⟩
  case unsaved =>
    rintro rfl
    have hbytes : u.recordBytes = s.recordBytes := congrArg (Memory.readBytes · _ _) hdurable
    exact (congrArg Record.ofBytes hbytes).trans ((hi.settled hp).record.ofBytes_eq hr)
  case saved => exact fun x hx => hwhole.getLast_eq hdurable hx
  case idle =>
    intro hup
    have huheld : u.held = some u.record := State.held_eq_some.mpr ⟨hul, rfl⟩
    exact huheld.trans (congrArg some ((hui.settled hup).record.ofBytes_eq huheld).symm)

end Sys2Proof.Machine
end
